-- ==== Sys2Proof/Word.lean ====
section
/-! DEFINITION. The two word types of the block: bytes (stream, buffers) and 32-bit register words. -/

namespace Sys2Proof

/-- A stream byte or a buffer byte (R60, R80). -/
abbrev Byte := BitVec 8

/-- A 32-bit register value, counter or command word (R46, R84). -/
abbrev Word := BitVec 32

end Sys2Proof
end

