-- ==== Sys2Proof/Syntax.lean ====
section
/-! DEFINITION. The syntax of the block's two kinds of instruction (R2): stream codes and host commands.
One constructor per row of `spec/opcode_table.json`, in the table's order. -/

namespace Sys2Proof

/-- The block's instructions (R2). The table lists LIT as three rows, one per tag value (log 11). -/
inductive Instr where
  /-- LIT with tag 00 (R80, R120); VALUE is the whole byte, tag included. -/
  | lit00 (value : Byte)
  /-- LIT with tag 01 (R80, R120). -/
  | lit01 (value : Byte)
  /-- LIT with tag 10 (R80, R120). -/
  | lit10 (value : Byte)
  /-- RUN (R80, R121): LEN from 0 to 63, VALUE any byte. -/
  | run (len : BitVec 6) (value : Byte)
  /-- NOP, command code 0 (R85, R182). -/
  | nop
  /-- START, command code 1 (R85, R183). -/
  | start
  /-- PACK_ROW, command code 2 (R85, R184). -/
  | packRow
  /-- DECODE_RUN, command code 3 (R85, R185). -/
  | decodeRun
  /-- FILL_SCANLINE, command code 4 (R85, R186). -/
  | fillScanline
  deriving DecidableEq, Repr

/-- The encoded form of an instruction: the bytes of a stream code (R80) or one word written to CTRL (R84). -/
inductive Code where
  | stream (bytes : List Byte)
  | ctrl (word : Word)
  deriving DecidableEq, Repr

end Sys2Proof
end

