-- ==== Sys2Proof/WellFormed.lean ====
section
/-! DEFINITION. Which instructions have an encoding: a LIT's VALUE carries the tag of its row (R80).
RUN and the commands have no operand that could be out of range. -/

namespace Sys2Proof

/-- Bits [7:6] of a byte: the TAG of a stream code's first byte (R80). -/
abbrev tagOf (b : Byte) : BitVec 2 := b.extractLsb' 6 2

/-- `i` has an encoding: a LIT's VALUE has its row's tag (R80; R89: no LIT with a value of 0xC0 or above). -/
abbrev Instr.wellFormed : Instr → Bool
  | .lit00 v => tagOf v == 0
  | .lit01 v => tagOf v == 1
  | .lit10 v => tagOf v == 2
  | .run _ _ => true
  | .nop => true
  | .start => true
  | .packRow => true
  | .decodeRun => true
  | .fillScanline => true

end Sys2Proof
end

