-- ==== Sys2Proof/Decode.lean ====
section
/-! DEFINITION. Decoding of stream codes (R80 to R83) and of CTRL command words (R84 to R86), total on any bits
and rejecting by name; then the encoder, from the same tables. -/

namespace Sys2Proof

/-- Why a decoder answers no instruction. -/
inductive DecodeError where
  /-- No byte to decode. -/
  | noByte
  /-- A run marker whose value byte is not there (yet): R81 gives a RUN two bytes. -/
  | noValueByte
  /-- A reserved command word (R86): CMD 5 to 15, or a nonzero bit in [31:4]. -/
  | reservedCommand (word : Word)
  deriving DecidableEq, Repr

/-- A byte is a run marker iff both its high bits are set (R8 MARKER_MASK, R81). -/
def isMarker (b : Byte) : Bool := b &&& 0xC0#8 == 0xC0#8

/-- LEN of a run marker: bits [5:0] (R82). -/
def markerLen (b : Byte) : BitVec 6 := b.extractLsb' 0 6

/-- The run marker with a given LEN: tag 11, then LEN (R80). -/
def markerOf (len : BitVec 6) : Byte := 3#2 ++ len

/-- The LIT row of a byte that is no marker, by its tag (R80). -/
def literalOf (b : Byte) : Instr :=
  if tagOf b = 0#2 then .lit00 b else if tagOf b = 1#2 then .lit01 b else .lit10 b

/-- Decode the stream code at the head of a byte sequence (R80, R81); the rest follows. The length is told from the
first byte alone, and the second byte of a RUN is not interpreted. -/
def decodeStream : List Byte → Except DecodeError (Instr × List Byte)
  | [] => .error .noByte
  | b :: rest =>
    if isMarker b then
      match rest with
      | [] => .error .noValueByte
      | v :: rest' => .ok (.run (markerLen b) v, rest')
    else .ok (literalOf b, rest)

/-- CMD, bits [3:0] of a command word (R84). -/
def cmdField (w : Word) : BitVec 4 := w.extractLsb' 0 4

/-- RES, bits [31:4] of a command word, which must be 0 (R84). -/
def resField (w : Word) : BitVec 28 := w.extractLsb' 4 28

/-- Decode a word written to CTRL (R84, R85); reserved words are rejected (R86). -/
def decodeCommand (w : Word) : Except DecodeError Instr :=
  if resField w ≠ 0 then .error (.reservedCommand w)
  else if cmdField w = 0 then .ok .nop
  else if cmdField w = 1 then .ok .start
  else if cmdField w = 2 then .ok .packRow
  else if cmdField w = 3 then .ok .decodeRun
  else if cmdField w = 4 then .ok .fillScanline
  else .error (.reservedCommand w)

/-- Decode either kind of code; a stream code leaves the bytes after it. -/
def decode : Code → Except DecodeError (Instr × List Byte)
  | .stream bytes => decodeStream bytes
  | .ctrl w => (decodeCommand w).map fun i => (i, [])

/-- The instruction read from an opcode-table row's bits: up to 16 bits are the bytes of a stream code, the first byte
lowest (a LIT is one byte, a RUN two); 32 bits are a command word. Bits from `nbits` on are 0. -/
def decodeTableWord (nbits w : Nat) : Option Instr :=
  if nbits ≤ 16 then
    match decodeStream [BitVec.ofNat 8 (w % 2 ^ nbits), BitVec.ofNat 8 (w % 2 ^ nbits / 256)] with
    | .ok (i, _) => some i
    | .error _ => none
  else
    match decodeCommand (BitVec.ofNat 32 (w % 2 ^ nbits)) with
    | .ok i => some i
    | .error _ => none

/-- The encoding of an instruction (R80, R85). -/
def encode : Instr → Code
  | .lit00 v => .stream [v]
  | .lit01 v => .stream [v]
  | .lit10 v => .stream [v]
  | .run len v => .stream [markerOf len, v]
  | .nop => .ctrl 0x00000000#32
  | .start => .ctrl 0x00000001#32
  | .packRow => .ctrl 0x00000002#32
  | .decodeRun => .ctrl 0x00000003#32
  | .fillScanline => .ctrl 0x00000004#32

/-- The bytes a stream code occupies in the stream; a command occupies none. -/
def streamBytes (i : Instr) : List Byte :=
  match encode i with
  | .stream bytes => bytes
  | .ctrl _ => []

end Sys2Proof
end

