-- ==== Sys2Proof/Config.lean ====
section
/-! DEFINITION. What an implementation fixes (R8, R9) and the free values: what the spec leaves as "any value". -/

namespace Sys2Proof.Config

/-- WIN_CAP (R8): capacity of the input window, and the size of one stream read request. -/
abbrev winCap : Nat := 256

/-- TILE_DIM (R8): a tile is 8 by 8 pixels. -/
abbrev tileDim : Nat := 8

/-- PLANES (R8): bit-planes per tile row. -/
abbrev planes : Nat := 4

/-- BYTES_PER_TILE (R8): 8 rows of 4 plane bytes. -/
abbrev bytesPerTile : Nat := 32

/-- The largest MAX_WIDTH an implementation may have (R9). -/
abbrev maxWidthBound : Nat := 65536

/-- A legal instantiation of MAX_WIDTH (R9): a multiple of 8 from 8 to 65536. -/
abbrev legalMaxWidth (m : Nat) : Prop := 8 ≤ m ∧ m ≤ maxWidthBound ∧ m % 8 = 0

/-- FREE VALUE (log 3): the `n`-th word a host register read returns where R53 says "any value". Nothing constrains it. -/
opaque freeWord : Nat → Word

/-- FREE VALUE (log 3): the `n`-th byte a host buffer read returns where R53 or R63 says "any value". Nothing constrains it. -/
opaque freeByte : Nat → Byte

end Sys2Proof.Config
end

