-- ==== Sys2Proof/Machine/State.lean ====
section
/-! DEFINITION. The state of the block (R20 to R54) with its stream port and its host, as plain data, and its reset value. -/

namespace Sys2Proof.Machine

/-- A byte buffer (R60): the bytes written since reset as (index, byte) pairs, indices strictly rising. An index that is
not listed has not been written since reset and holds no value (R54, log 2). -/
abbrev Memory := List Host.Cell

/-- Engine state (R22). -/
inductive EngState where
  | idle | ready | busy | error
  deriving DecidableEq, Repr

/-- Error codes (R200); codes 7 to 15 are never produced. -/
inductive ErrCode where
  | none | truncatedStream | runOverrun | dimension | streamIo | sequence | illegalCommand
  deriving DecidableEq, Repr

/-- The commands that make the engine BUSY (R85, R180); NOP does not. -/
inductive Command where
  | start | packRow | decodeRun | fillScanline
  deriving DecidableEq, Repr

/-- The buffer spaces the host's read port reaches (R60, R63). -/
inductive Space where
  | win | scan | tile
  deriving DecidableEq, Repr

/-- What the engine goes on to do when a `refill()` has been answered (R102, R105, R122). -/
inductive Resume where
  /-- START's prime: complete the command (R183). -/
  | primed
  /-- `next_run()` after the marker's `advance()`: peek at the value byte of the run of this length and start offset. -/
  | value (len : BitVec 6) (start : Word)
  /-- `next_run()` after its last `advance()`: latch the run (R122). -/
  | latch (value : Byte) (len : BitVec 6) (start : Word)
  deriving DecidableEq, Repr

/-- The engine's next micro-step inside the command in progress (R45): one byte access, or one stream request or answer. -/
inductive Micro where
  /-- No command is in progress. -/
  | quiet
  /-- `next_run()` is about to peek at a code's first byte (R122). -/
  | code
  /-- `next_run()` has consumed a marker of this LEN at this stream offset and is about to peek at the value byte (R122). -/
  | value (len : BitVec 6) (start : Word)
  /-- `refill()` (R103): about to issue its request while `reqPending` is false, waiting for the answer while it is true. -/
  | refill (k : Resume)
  /-- `refill_scanline()` is about to write the next byte of the latched run to `scan` (R140). -/
  | writeRun
  /-- `next_8_pixels()` has read the pixels `px` and is about to read the next one (R143). -/
  | pixels (px : List Byte)
  /-- `next_8_scanlines()` is about to write plane byte `p` of the pixels `px` to `tile` (R163). -/
  | plane (p : Nat) (px : List Byte)
  deriving DecidableEq, Repr

/-- The environment's draw for one stream read (R104, N7, N8): that it delivers `extra + 1` bytes, or as many as the
stream still has if they are fewer, or that it answers IOERR. The law of R104 (n ≤ 256, n = 0 only at the end of the
stream) holds of every draw (log 6). -/
inductive Draw where
  | bytes (extra : Byte)
  | ioErr
  deriving DecidableEq, Repr

/-- One action of the host or of the environment (R21, R91), or a micro-step left to the engine. -/
inductive HostAct where
  /-- Nothing from the host: the engine takes its next micro-step, if it has one. -/
  | tick
  /-- WAIT (R91): poll STATUS until STATE is not BUSY; the engine runs meanwhile. -/
  | wait
  /-- WR: write a register (R52). -/
  | write (reg : BitVec 4) (v : Word)
  /-- RD: read a register (R52). -/
  | read (reg : BitVec 4)
  /-- BUF: read one byte through the buffer read port (R63). -/
  | bufRead (sp : Space) (i : Nat)
  /-- Assert reset (R240). -/
  | reset
  /-- Bind the stream port (R244, R255): to these bytes, and after them to `cycle` repeated without end, if it is not empty
  (R189, log 6). -/
  | bind (bytes cycle : List Byte)
  /-- The environment answers a read that reset has abandoned (R241, log 7). -/
  | lateAnswer (d : Draw)
  deriving DecidableEq, Repr

/-- Why the machine stops with a fault. -/
inductive Fault where
  /-- An engine access to a buffer byte outside the live part, or to a byte no engine step has written (R61: "An access outside
  the live part would be an engine fault"). Raised by the engine's micro-steps; safe: no state that keeps the invariant of
  `Sys2Proof.Machine.State.Inv` raises it, as R61 derives. -/
  | engineAccess (sp : Space) (i : Nat)
  deriving DecidableEq, Repr

/-- Why the model gives no next state. -/
inductive Refusal where
  /-- An instruction without a meaning; no instruction of this model is refused by it. Safe. -/
  | notModelled (mnemonic : String)
  /-- A host buffer read at or above the buffer's capacity (R63: "the index does not exist and the model refuses the
  access"). Raised by the buffer read port only. Safe. -/
  | noSuchByte (sp : Space) (i : Nat)
  deriving DecidableEq, Repr

/-- The whole state: the spec's elements (R22 to R45), the parameter MAX_WIDTH, and the host and environment side. -/
structure State where
  /-- Engine state `state` (R22). -/
  state : EngState
  /-- `err_code` (R41). -/
  errCode : ErrCode
  /-- `err_offset` (R42). -/
  errOffset : Word
  /-- `cmd_ignored`, sticky (R43). -/
  cmdIgnored : Bool
  /-- `win` (R24). -/
  win : Memory
  /-- `in_filled` (R25). -/
  inFilled : BitVec 9
  /-- `in_cursor` (R26). -/
  inCursor : BitVec 9
  /-- `eos` (R27). -/
  eos : Bool
  /-- `in_offset`, the stream position and program counter (R30, R31). -/
  inOffset : Word
  /-- `refill_count` (R32). -/
  refillCount : Word
  /-- `scan` (R33). -/
  scan : Memory
  /-- `sl_cursor` (R34). -/
  slCursor : Word
  /-- `run_value` (R37). -/
  runValue : Byte
  /-- `run_length` (R37). -/
  runLength : BitVec 6
  /-- `tile` (R36). -/
  tile : Memory
  /-- `width_reg` (R38). -/
  widthReg : Word
  /-- `W`, the latched width (R40). -/
  latchedW : Word
  /-- Hidden: `cur_cmd` (R45). -/
  curCmd : Option Command
  /-- Hidden: the row of `next_8_scanlines()` (R45). -/
  row : Nat
  /-- Hidden: the column of `next_8_scanlines()` (R45). -/
  col : Nat
  /-- Hidden: the remaining count of the run being written (R45). -/
  runLeft : Nat
  /-- Hidden: the engine's position in the command's pseudocode (R45). -/
  micro : Micro
  /-- Hidden: `req_pending` (R45, R104). -/
  reqPending : Bool
  /-- The parameter MAX_WIDTH (R9); no step writes it (log 1). -/
  maxWidth : Nat
  /-- Environment: the bytes of the bound stream not yet delivered, before its cycle (R104, log 6). -/
  stream : List Byte
  /-- Environment: the bytes the bound stream repeats without end after `stream` (R189, N10); empty, the stream ends (log 6). -/
  streamCycle : List Byte
  /-- Environment: its draws for the reads to come (log 6). -/
  draws : List Draw
  /-- Environment: the draws repeated without end after `draws`; empty, a further read is not (yet) answered (log 6). -/
  drawCycle : List Draw
  /-- Environment: the reads abandoned by reset whose answers may still come (R241, log 7). -/
  abandoned : Nat
  /-- Host: its actions to come; with none left the engine runs on (log 5). -/
  agenda : List HostAct
  /-- Host: the word its last register read returned (log 13). -/
  readData : Word
  /-- Host: the byte its last buffer read returned (log 13). -/
  bufData : Byte
  /-- How many free values have been drawn (log 3). -/
  freeIndex : Nat
  deriving DecidableEq, Repr

/-- What one operation of the machine answers. -/
abbrev Result := Host.Outcome State Fault Refusal

/-- The machine right after reset (R54, R240, R242). Every element has the value R54 gives; the buffers list no byte
(unspecified contents); the parameter and the host and environment side have the values logs 1, 3, 5, 6, 7, 13 and 15 name. -/
def State.reset : State where
  state := .idle
  errCode := .none
  errOffset := 0
  cmdIgnored := false
  win := []
  inFilled := 0
  inCursor := 0
  eos := false
  inOffset := 0
  refillCount := 0
  scan := []
  slCursor := 0
  runValue := 0
  runLength := 0
  tile := []
  widthReg := 0
  latchedW := 0
  curCmd := none
  row := 0
  col := 0
  runLeft := 0
  micro := .quiet
  reqPending := false
  maxWidth := 65536
  stream := []
  streamCycle := []
  draws := []
  drawCycle := []
  abandoned := 0
  agenda := []
  readData := 0
  bufData := 0
  freeIndex := 0

end Sys2Proof.Machine
end

