-- ==== Sys2Proof/Machine/Ops.lean ====
section
/-! DEFINITION. The shared operations: buffer reads and writes in canonical form, the end of a command, error entry
(taking an exception, R206), the ignored command, and the reset input. Leaving ERROR is START's or reset's (R209): the block has no
return-from-error operation. -/

namespace Sys2Proof.Machine

/-- What a buffer index nothing has written since reset reads as: no value (R54, log 2). -/
def Memory.unlisted : Option Byte := none

/-- Read one byte of a buffer (R11 `MemRead`): the engine's last write to it (R71). -/
def Memory.read (m : Memory) (a : Nat) : Option Byte :=
  match m with
  | [] => Memory.unlisted
  | (k, b) :: rest => if a = k then some b else Memory.read rest a

/-- Write one byte of a buffer (R11 `MemWrite`), keeping the indices strictly rising. -/
def Memory.write (m : Memory) (a : Nat) (v : Byte) : Memory :=
  match m with
  | [] => [(a, v)]
  | (k, b) :: rest =>
    if a < k then (a, v) :: (k, b) :: rest
    else if a = k then (a, v) :: rest
    else (k, b) :: Memory.write rest a v

/-- Write consecutive bytes from index `a` on, lowest first (the loop of `refill()`, R103). -/
def Memory.writeAll (m : Memory) (a : Nat) (bs : List Byte) : Memory :=
  match bs with
  | [] => m
  | b :: rest => Memory.writeAll (m.write a b) (a + 1) rest

/-- The canonical form of a buffer: indices strictly rising. -/
def Memory.wf (m : Memory) : Bool :=
  match m with
  | [] => true
  | (k, _) :: rest => rest.all (fun c => k < c.1) && Memory.wf rest

/-- The engine's next micro-step is `m` (R45). -/
def goto (m : Micro) (s : State) : State := { s with micro := m }

/-- `sl_cursor <- w` (R34). -/
def setScanCursor (w : Word) (s : State) : State := { s with slCursor := w }

/-- The Run register is written (R37). -/
def setRun (value : Byte) (len : BitVec 6) (s : State) : State := { s with runValue := value, runLength := len }

/-- The remaining count of the run being written (R45). -/
def setRunLeft (n : Nat) (s : State) : State := { s with runLeft := n }

/-- The row and column of `next_8_scanlines()` (R45, R163). -/
def setTilePos (row col : Nat) (s : State) : State := { s with row := row, col := col }

/-- `scan[i] <- b` (R11, R140). -/
def storeScan (i : Nat) (b : Byte) (s : State) : State := { s with scan := s.scan.write i b }

/-- `tile[i] <- b` (R11, R163). -/
def storeTile (i : Nat) (b : Byte) (s : State) : State := { s with tile := s.tile.write i b }

/-- `width_reg <- v` (R38). -/
def setWidthReg (v : Word) (s : State) : State := { s with widthReg := v }

/-- The environment's draws to come, before its cycle of draws (R104, log 6). -/
def setDraws (ds : List Draw) (s : State) : State := { s with draws := ds }

/-- The host's actions to come (log 5). -/
def setAgenda (acts : List HostAct) (s : State) : State := { s with agenda := acts }

/-- Error entry `raise E(off)` (R206): the four elements it names, and nothing else. The engine takes no further micro-step. -/
def raise (e : ErrCode) (off : Word) (s : State) : State :=
  { s with errCode := e, errOffset := off, state := .error, curCmd := none, micro := .quiet }

/-- Normal end of a command (R180, R189): READY, and no command in progress. -/
def complete (s : State) : State :=
  { s with state := .ready, curCmd := none, micro := .quiet }

/-- Acceptance of a command (R180): BUSY, and the command in progress, before its first micro-step. -/
def accept (c : Command) (s : State) : State :=
  { s with state := .busy, curCmd := some c }

/-- An ignored CTRL write (R181): nothing but the sticky flag. -/
def ignoreWrite (s : State) : State :=
  { s with cmdIgnored := true }

/-- The reset input (R240, R241): every element at its reset value; an outstanding stream read is abandoned. The stream is not
rewound (R255), and the parameter, the environment and the host are not the block's to reset. -/
def resetPin (s : State) : State :=
  { State.reset with
    maxWidth := s.maxWidth
    stream := s.stream
    streamCycle := s.streamCycle
    draws := s.draws
    drawCycle := s.drawCycle
    abandoned := if s.reqPending then s.abandoned + 1 else s.abandoned
    agenda := s.agenda
    readData := s.readData
    bufData := s.bufData
    freeIndex := s.freeIndex }

end Sys2Proof.Machine
end

