-- ==== Sys2Proof/Machine/Operands.lean ====
section
/-! DEFINITION. The operands the meanings work on: the values of a stream code (R82), the buffers by space (R60, R63), the
index of a tile byte (R69, R163) and the plane byte of 8 pixels (R160). -/

namespace Sys2Proof.Machine

/-- The run length as a number, 0 to 63 (R82: zero-extended). -/
def lenOf (len : BitVec 6) : Nat := len.toNat

/-- The length of a LIT, 1 (R82: implicit). -/
def litLen : BitVec 6 := 1#6

/-- The latched width as a number. -/
def State.width (s : State) : Nat := s.latchedW.toNat

/-- The contents of a buffer space (R60). -/
def State.buffer (s : State) : Space → Memory
  | .win => s.win
  | .scan => s.scan
  | .tile => s.tile

/-- How many bytes a buffer space has (R60): 256, MAX_WIDTH, 4 * MAX_WIDTH. -/
def State.capacity (s : State) : Space → Nat
  | .win => Config.winCap
  | .scan => s.maxWidth
  | .tile => 4 * s.maxWidth

/-- The length of a buffer's live part (R61, R63): `in_filled`, W, 4W. -/
def State.liveLen (s : State) : Space → Nat
  | .win => s.inFilled.toNat
  | .scan => s.width
  | .tile => 4 * s.width

/-- Index in `tile` of the plane-`p` byte of pixel row `r` of the tile in column `c` (R69, R163). -/
def tileIndex (c r p : Nat) : Nat := c * 32 + r * 4 + p

/-- Bit `p` of a pixel (R160: `(px >> p) & 1`). -/
def pixelBit (b : Byte) (p : Nat) : Byte := (b >>> p) &&& 1#8

/-- The accumulation of `plane_byte` (R160): pixel `b` contributes its bit `p` at bit position `7 - b`. -/
def planeFrom (px : List Byte) (p b : Nat) : Byte :=
  match px with
  | [] => 0
  | x :: rest => (pixelBit x p <<< (7 - b)) ||| planeFrom rest p (b + 1)

/-- `plane_byte(px, p)` (R160): one bit-plane of 8 pixels, the leftmost pixel in bit 7. -/
def planeByte (px : List Byte) (p : Nat) : Byte := planeFrom px p 0

end Sys2Proof.Machine
end

