-- ==== Sys2Proof/Machine/Flags.lean ====
section
/-! DEFINITION. The status fields: the codes of the engine state and of the errors, the conditions the rules test, and the
words the registers STATUS, WIN_STATE and RUN show (R22, R39, R48 to R50, R200). -/

namespace Sys2Proof.Machine

/-- The 2-bit code of an engine state (R22, R48). -/
def EngState.bits : EngState → BitVec 2
  | .idle => 0
  | .ready => 1
  | .busy => 2
  | .error => 3

/-- The 4-bit code of an error (R200). -/
def ErrCode.bits : ErrCode → BitVec 4
  | .none => 0
  | .truncatedStream => 1
  | .runOverrun => 2
  | .dimension => 3
  | .streamIo => 4
  | .sequence => 5
  | .illegalCommand => 6

/-- A flag as one bit. -/
def flagBit (b : Bool) : BitVec 1 := if b then 1 else 0

/-- STATUS (R48): STATE in [1:0], CMD_IGNORED in [2], 0 in [3], ERR_CODE in [7:4], 0 above. -/
def statusWord (s : State) : Word :=
  0#24 ++ s.errCode.bits ++ 0#1 ++ flagBit s.cmdIgnored ++ s.state.bits

/-- WIN_STATE (R49): IN_CURSOR in [8:0], IN_FILLED in [24:16], EOS in [31], 0 elsewhere. -/
def winStateWord (s : State) : Word :=
  flagBit s.eos ++ 0#6 ++ s.inFilled ++ 0#7 ++ s.inCursor

/-- RUN (R50): RUN_VALUE in [7:0], RUN_LENGTH in [13:8], 0 above. -/
def runWord (s : State) : Word :=
  0#18 ++ s.runLength ++ s.runValue

/-- The window has no byte left to consume: the condition of `peek()`'s error and of the eager refill (R101, R102). -/
def windowEmpty (s : State) : Bool := s.inCursor == s.inFilled

/-- A legal width (R39): not 0, a multiple of 8, and at most MAX_WIDTH. -/
def legalWidth (maxWidth : Nat) (w : Word) : Bool :=
  w.toNat != 0 && w.toNat % 8 == 0 && decide (w.toNat ≤ maxWidth)

/-- The scanline is consumed (R34, R143): its cursor equals W. -/
def scanConsumed (s : State) : Bool := s.slCursor == s.latchedW

/-- A run of this length would write past W (R141). -/
def overruns (s : State) (len : BitVec 6) : Bool := decide (s.width < s.slCursor.toNat + lenOf len)

end Sys2Proof.Machine
end

