-- ==== Sys2Proof/Machine/Source.lean ====
section
/-! DEFINITION. The Buffered Byte Source (R100 to R105): consuming a byte, and the two micro-steps of `refill()`. `peek()`'s
error is `truncated`; the byte it returns is the one the decoder was given (`Sys2Proof/Machine/Fetch.lean`). -/

namespace Sys2Proof.Machine

/-- `advance()` up to its refill (R102): cursor and stream offset move by one byte. -/
def consume (s : State) : State :=
  { s with inCursor := s.inCursor + 1, inOffset := s.inOffset + 1 }

/-- `peek()` with no byte available (R101, R201): TRUNCATED_STREAM at the offset of the byte wanted. -/
def truncated (s : State) : State := raise .truncatedStream s.inOffset s

/-- The rest of `advance()` (R102): if the window is emptied, `refill()` comes first and `k` names what follows its answer;
otherwise `go` follows at once. -/
def afterConsume (k : Resume) (go : State → State) (s : State) : State :=
  if windowEmpty s then goto (.refill k) s else go s

/-- `refill()` issues its stream read (R32, R103, R104). -/
def issueRead (s : State) : State :=
  { s with refillCount := s.refillCount + 1, reqPending := true }

/-- `bytes`, then `cycle` without end, as far as the next `n` bytes need it. -/
def unroll (n : Nat) (bytes cycle : List Byte) : List Byte :=
  if n ≤ bytes.length || cycle.isEmpty then bytes else bytes ++ (List.replicate n cycle).flatten

/-- The undelivered stream, as far as one read request of WIN_CAP bytes can reach into it (R104, log 6). -/
def State.upcoming (s : State) : List Byte := unroll Config.winCap s.stream s.streamCycle

/-- The environment's answer to the next read, and the draws that stand before the cycle of draws after it; none, if the read is
not answered (R104, R252, log 6). -/
def State.nextDraw (s : State) : Option (Draw × List Draw) :=
  match s.draws with
  | d :: rest => some (d, rest)
  | [] =>
    match s.drawCycle with
    | d :: rest => some (d, rest)
    | [] => none

/-- How many bytes a draw delivers of the bytes to come (R104): at least 1 if there is one, at most 256, none at the end. -/
def delivered (extra : Byte) (bytes : List Byte) : Nat := min (extra.toNat + 1) bytes.length

/-- `refill()` takes the bytes of an answered read (R103); a read that delivers none sets `eos`. -/
def takeBytes (extra : Byte) (s : State) : State :=
  let n := delivered extra s.upcoming
  { s with
    reqPending := false
    win := s.win.writeAll 0 (s.upcoming.take n)
    inFilled := BitVec.ofNat 9 n
    inCursor := 0
    eos := s.eos || n == 0
    stream := s.upcoming.drop n }

/-- `refill()` takes IOERR (R103, R204): STREAM_IO at the offset of the first byte the read would have delivered. Whether a failed
read consumes bytes of the stream the spec does not say; by the model's choice (DESIGN CHOICE, log 20) it consumes none, and a
START after it goes on with the byte the read would have delivered first. -/
def readFailed (s : State) : State :=
  raise .streamIo s.inOffset { s with reqPending := false }

end Sys2Proof.Machine
end

