-- ==== Sys2Proof/Machine/Scanline.lean ====
section
/-! DEFINITION. The Scanline Assembler and the Tile Packer (R140 to R144, R160 to R164) as micro-steps of one byte access
each, and the loop control between them. -/

namespace Sys2Proof.Machine

/-- `refill_scanline()` has returned (R140): FILL_SCANLINE completes (R186); `next_8_pixels()` goes on to read its pixels
(R143). -/
def scanlineDone (s : State) : State :=
  match s.curCmd with
  | some .fillScanline => complete s
  | some .packRow => goto (.pixels []) s
  | some .start => goto .quiet s
  | some .decodeRun => goto .quiet s
  | none => goto .quiet s

/-- The loop test of `refill_scanline()` (R140): the next run while `sl_cursor < W`, else the cursor back to 0 and return. -/
def scanLoop (s : State) : State :=
  if s.slCursor.toNat < s.width then goto .code s else scanlineDone (setScanCursor 0 s)

/-- Entry of `refill_scanline()` (R140). -/
def refillScanline (s : State) : State := scanLoop (setScanCursor 0 s)

/-- The latched run has been written (R140): the cursor moves past it, and the loop goes on. -/
def runWritten (s : State) : State :=
  scanLoop (setScanCursor (s.slCursor + s.runLength.zeroExtend 32) s)

/-- `refill_scanline()` has a run whose code starts at `start`: RUN_OVERRUN before any byte of it is written (R141), or its
bytes are written one by one, none for a zero-length run (R142). -/
def assembleRun (start : Word) (s : State) : State :=
  if overruns s s.runLength then raise .runOverrun start s
  else if lenOf s.runLength = 0 then runWritten (setRunLeft 0 s)
  else goto .writeRun (setRunLeft (lenOf s.runLength) s)

/-- Index in `scan` of the next byte of the run being written: `sl_cursor + k` (R140). -/
def runIndex (s : State) : Nat := s.slCursor.toNat + (lenOf s.runLength - s.runLeft)

/-- One byte of the run is written to `scan` (R140); after the last one the cursor moves. -/
def writeRunByte (s : State) : Result :=
  let i := runIndex s
  if i < s.width then
    let s' := setRunLeft (s.runLeft - 1) (storeScan i s.runValue s)
    if s.runLeft ≤ 1 then .next (runWritten s') else .next s'
  else .fault (.engineAccess .scan i)

/-- Entry of `next_8_pixels()` (R143): a consumed scanline is refilled first. -/
def nextPixels (s : State) : State :=
  if scanConsumed s then refillScanline s else goto (.pixels []) s

/-- One pixel is read from `scan` (R143); after the eighth the cursor moves by 8 and the plane bytes follow. -/
def readPixel (px : List Byte) (s : State) : Result :=
  let i := s.slCursor.toNat + px.length
  if i < s.width then
    match s.scan.read i with
    | some b =>
      if px.length = 7 then .next (goto (.plane 0 (px ++ [b])) (setScanCursor (s.slCursor + 8) s))
      else .next (goto (.pixels (px ++ [b])) s)
    | none => .fault (.engineAccess .scan i)
  else .fault (.engineAccess .scan i)

/-- The column is packed (R163): the next column, the next row, or the end of the tile row. -/
def nextColumn (s : State) : State :=
  if s.col + 1 < s.width / Config.tileDim then nextPixels (setTilePos s.row (s.col + 1) s)
  else if s.row + 1 < Config.tileDim then nextPixels (setTilePos (s.row + 1) 0 s)
  else complete s

/-- One plane byte is written to `tile` (R163). -/
def writePlane (p : Nat) (px : List Byte) (s : State) : Result :=
  let i := tileIndex s.col s.row p
  if i < 4 * s.width then
    let s' := storeTile i (planeByte px p) s
    if p + 1 < Config.planes then .next (goto (.plane (p + 1) px) s') else .next (nextColumn s')
  else .fault (.engineAccess .tile i)

end Sys2Proof.Machine
end

