-- ==== Sys2Proof/Machine/Commands.lean ====
section
/-! DEFINITION. The meanings of the host commands (R180 to R190): what the CTRL write does, atomically, in each engine state.
A command that runs is BUSY after it, at its first micro-step; the micro-steps follow one by one (R45). -/

namespace Sys2Proof.Machine

/-- Dispatch of PACK_ROW, DECODE_RUN and FILL_SCANLINE by engine state (R180, R190): they run in READY, raise SEQUENCE in IDLE
(R188), and are ignored in BUSY and ERROR (R181). -/
def whenReady (run : State → State) (s : State) : State :=
  match s.state with
  | .ready => run s
  | .idle => raise .sequence s.inOffset s
  | .busy => ignoreWrite s
  | .error => ignoreWrite s

/-- A reserved command word (R86, R187): ILLEGAL_COMMAND in IDLE and READY, ignored in BUSY and ERROR. -/
def reservedCommand (s : State) : State :=
  match s.state with
  | .idle => raise .illegalCommand s.inOffset s
  | .ready => raise .illegalCommand s.inOffset s
  | .busy => ignoreWrite s
  | .error => ignoreWrite s

/-- What START sets before it checks the width (R183): errors and flags cleared, the window and the counters at 0, no run, and
W latched from `width_reg`. -/
def clearConversion (s : State) : State :=
  { s with
    errCode := .none, errOffset := 0, cmdIgnored := false
    inCursor := 0, inFilled := 0, eos := false
    inOffset := 0, refillCount := 0
    runValue := 0, runLength := 0
    slCursor := 0
    latchedW := s.widthReg }

/-- The body of START (R183): re-initialise, latch and check the width, then prime the window. -/
def startBody (s : State) : State :=
  let t := clearConversion (accept .start s)
  if legalWidth t.maxWidth t.latchedW then goto (.refill .primed) (setScanCursor t.latchedW t)
  else raise .dimension 0 t

/-- The body of PACK_ROW (R184): `next_8_scanlines()` from row 0, column 0 (R163). -/
def packRowBody (s : State) : State := nextPixels (setTilePos 0 0 (accept .packRow s))

/-- The body of DECODE_RUN (R185): `next_run()`. -/
def decodeRunBody (s : State) : State := goto .code (accept .decodeRun s)

/-- The body of FILL_SCANLINE (R186): `refill_scanline()`, unconditionally. -/
def fillScanlineBody (s : State) : State := refillScanline (accept .fillScanline s)

/-- NOP (R182): nothing, but that in BUSY the write is ignored (R181). -/
def execNop (s : State) : Result :=
  match s.state with
  | .busy => .next (ignoreWrite s)
  | .idle => .next s
  | .ready => .next s
  | .error => .next s

/-- START (R183): runs in IDLE, READY and ERROR; ignored in BUSY. -/
def execStart (s : State) : Result :=
  match s.state with
  | .busy => .next (ignoreWrite s)
  | .idle => .next (startBody s)
  | .ready => .next (startBody s)
  | .error => .next (startBody s)

/-- PACK_ROW (R184). -/
def execPackRow (s : State) : Result := .next (whenReady packRowBody s)

/-- DECODE_RUN (R185). -/
def execDecodeRun (s : State) : Result := .next (whenReady decodeRunBody s)

/-- FILL_SCANLINE (R186). -/
def execFillScanline (s : State) : Result := .next (whenReady fillScanlineBody s)

end Sys2Proof.Machine
end

