-- ==== Sys2Proof/Machine/StreamCodes.lean ====
section
/-! DEFINITION. The meanings of the stream codes LIT and RUN (R120, R121) inside `next_run()` (R122), for whichever command
is in progress. -/

namespace Sys2Proof.Machine

/-- `next_run()` completes (R122): the run is latched, and its caller goes on: DECODE_RUN is complete (R185),
`refill_scanline()` has its run (R140). With no caller in progress the engine has nothing further to do (log 12). -/
def latchRun (value : Byte) (len : BitVec 6) (start : Word) (s : State) : State :=
  let s' := setRun value len s
  match s.curCmd with
  | some .decodeRun => complete s'
  | some .packRow => assembleRun start s'
  | some .fillScanline => assembleRun start s'
  | some .start => goto .quiet s'
  | none => goto .quiet s'

/-- The last byte of a code, `value` at the window cursor, is consumed and the run latched, after the refill if the window is
emptied (R102, R122). -/
def takeValue (value : Byte) (len : BitVec 6) (start : Word) (s : State) : State :=
  if windowEmpty s then truncated s
  else afterConsume (.latch value len start) (latchRun value len start) (consume s)

/-- The meaning shared by the LIT rows (R120): the `else` branch of `next_run()`. -/
def literal (value : Byte) (s : State) : State := takeValue value litLen s.inOffset s

/-- The first byte access of a RUN (R121): the marker is consumed, and the value byte is wanted next, after the refill if the window
is emptied. -/
def takeMarker (len : BitVec 6) (s : State) : State :=
  if windowEmpty s then truncated s
  else
    let start := s.inOffset
    afterConsume (.value len start) (goto (.value len start)) (consume s)

/-- The meaning of RUN (R121), the `if` branch of `next_run()`, one byte access a micro-step (R45): at the start of the code its
marker is consumed; once it is, the value byte is, and the run is latched. -/
def runCode (len : BitVec 6) (value : Byte) (s : State) : State :=
  match s.micro with
  | .value _ start => takeValue value len start s
  | _ => takeMarker len s

/-- LIT, tag 00 (R120). -/
def execLit00 (value : Byte) (s : State) : Result := .next (literal value s)

/-- LIT, tag 01 (R120). -/
def execLit01 (value : Byte) (s : State) : Result := .next (literal value s)

/-- LIT, tag 10 (R120). -/
def execLit10 (value : Byte) (s : State) : Result := .next (literal value s)

/-- RUN (R121). -/
def execRun (len : BitVec 6) (value : Byte) (s : State) : Result := .next (runCode len value s)

end Sys2Proof.Machine
end

