-- ==== Sys2Proof/Machine/Dispatch.lean ====
section
/-! DEFINITION. One arm per instruction, each a direct call of its meaning. -/

namespace Sys2Proof.Machine

def exec (i : Instr) (s : State) : Host.Outcome State Fault Refusal :=
  match i with
  | .lit00 value => Sys2Proof.Machine.execLit00 value s
  | .lit01 value => Sys2Proof.Machine.execLit01 value s
  | .lit10 value => Sys2Proof.Machine.execLit10 value s
  | .run len value => Sys2Proof.Machine.execRun len value s
  | .nop => Sys2Proof.Machine.execNop s
  | .start => Sys2Proof.Machine.execStart s
  | .packRow => Sys2Proof.Machine.execPackRow s
  | .decodeRun => Sys2Proof.Machine.execDecodeRun s
  | .fillScanline => Sys2Proof.Machine.execFillScanline s

end Sys2Proof.Machine
end

