-- ==== Sys2Proof/Machine/HostPort.lean ====
section
/-! DEFINITION. The host's side: register writes and reads (R46 to R53), the buffer read port (R63), and the environment's late
answers (R241). -/

namespace Sys2Proof.Machine

/-- The exact value of a register (R46 to R52): CTRL and the reserved numbers read 0. -/
def registerValue (r : BitVec 4) (s : State) : Word :=
  match r.toNat with
  | 1 => statusWord s
  | 2 => s.widthReg
  | 3 => s.latchedW
  | 4 => s.inOffset
  | 5 => winStateWord s
  | 6 => runWord s
  | 7 => s.slCursor
  | 8 => s.errOffset
  | 9 => s.refillCount
  | _ => 0

/-- STATUS and WIDTH are exact in every state, the other registers only while not BUSY (R53). -/
def exactWhileBusy (r : BitVec 4) : Bool := r == 1#4 || r == 2#4

/-- The host gets this word from a register read. -/
def gotWord (v : Word) (s : State) : State := { s with readData := v }

/-- The host gets any value from a register read: the next free word (R53, log 3). -/
def drawWord (s : State) : State :=
  { s with readData := Config.freeWord s.freeIndex, freeIndex := s.freeIndex + 1 }

/-- The host gets this byte from a buffer read. -/
def gotByte (b : Byte) (s : State) : State := { s with bufData := b }

/-- The host gets any value from a buffer read: the next free byte (R53, R63, log 3). -/
def drawByte (s : State) : State :=
  { s with bufData := Config.freeByte s.freeIndex, freeIndex := s.freeIndex + 1 }

/-- RD (R52, R53): the host gets the register's value, or any value while BUSY; nothing else changes. -/
def readRegister (r : BitVec 4) (s : State) : State :=
  if s.state = .busy ∧ exactWhileBusy r = false then drawWord s else gotWord (registerValue r s) s

/-- A write to CTRL (R180): the decoded command runs, a reserved word is taken by `reservedCommand`. -/
def writeCtrl (v : Word) (s : State) : Result :=
  match decodeCommand v with
  | .ok i => exec i s
  | .error _ => .next (reservedCommand s)

/-- WR (R46, R52): CTRL starts a command, WIDTH is stored in every state (R38), every other register ignores the write. -/
def writeRegister (r : BitVec 4) (v : Word) (s : State) : Result :=
  if r = 0#4 then writeCtrl v s
  else if r = 2#4 then .next (setWidthReg v s)
  else .next s

/-- BUF (R63): refused at or above the capacity; exact inside the live part while not BUSY; any value otherwise. A byte of the
live part that nothing has written since reset has no exact value and reads as any value (R54, `93_implementation_defined.md`
N4, log 2). -/
def readBuffer (sp : Space) (i : Nat) (s : State) : Result :=
  if s.capacity sp ≤ i then .refused (.noSuchByte sp i)
  else if s.state ≠ .busy ∧ i < s.liveLen sp then
    match (s.buffer sp).read i with
    | some b => .next (gotByte b s)
    | none => .next (drawByte s)
  else .next (drawByte s)

/-- The host binds the stream port (R244, R255). Reads abandoned before belong to the old binding: their bytes are not of
these (log 7). The spec has the host bind outside BUSY only (R244) and says nothing of a read of the command in progress that is
outstanding when the host binds while BUSY: by the model's choice (DESIGN CHOICE, log 19) the binding is swapped at once and that
read is answered with bytes of the new one. -/
def bindStream (bytes cycle : List Byte) (s : State) : State :=
  { s with stream := bytes, streamCycle := cycle, abandoned := 0 }

/-- The late answer of an abandoned read (R241): discarded, and the bytes it carried are lost to the block (log 7). -/
def takeLateAnswer (d : Draw) (s : State) : State :=
  if s.abandoned = 0 then s
  else
    match d with
    | .bytes extra =>
      { s with abandoned := s.abandoned - 1, stream := s.upcoming.drop (delivered extra s.upcoming) }
    | .ioErr => { s with abandoned := s.abandoned - 1 }

end Sys2Proof.Machine
end

