-- ==== Sys2Proof/Machine/Fetch.lean ====
section
/-! DEFINITION. Fetching a stream code: the bytes `next_run()` decodes, and where a word is placed to be the next instruction. -/

namespace Sys2Proof.Machine

/-- The window's bytes from the cursor on, at most `n` of them (R101). -/
def windowBytes (n : Nat) (s : State) : List Byte :=
  match n with
  | 0 => []
  | k + 1 =>
    if windowEmpty s then []
    else
      match s.win.read s.inCursor.toNat with
      | some b => b :: windowBytes k (consume s)
      | none => []

/-- The bytes of the code `next_run()` is decoding: the marker it has consumed, if any, and the window's bytes from the cursor
on, as far as the code needs them. At a marker the value byte is only shown to the decoder: it is read from the window again, and
consumed, by the micro-step after the marker's (R45, R122). -/
def fetchBytes (s : State) : List Byte :=
  match s.micro with
  | .value len _ => markerOf len :: windowBytes 1 s
  | _ => windowBytes 2 s

/-- Two bytes stand at the cursor as the next stream code of a DECODE_RUN in progress, and the engine takes the next step. -/
def placeStreamCode (b0 b1 : Byte) (s : State) : State :=
  { s with
    state := .busy
    curCmd := some .decodeRun
    micro := .code
    reqPending := false
    win := (s.win.write 0 b0).write 1 b1
    inCursor := 0
    inFilled := 2
    agenda := .tick :: s.agenda }

/-- A word is the host's next CTRL write. -/
def placeCommand (w : Word) (s : State) : State :=
  { s with agenda := .write 0#4 w :: s.agenda }

/-- An opcode-table word is the next instruction: up to 16 bits a stream code, more a command word. -/
def placeWord (nbits w : Nat) (s : State) : State :=
  if nbits ≤ 16 then
    placeStreamCode (BitVec.ofNat 8 (w % 2 ^ nbits)) (BitVec.ofNat 8 (w % 2 ^ nbits / 256)) s
  else placeCommand (BitVec.ofNat 32 (w % 2 ^ nbits)) s

end Sys2Proof.Machine
end

