-- ==== Sys2Proof/Machine/Engine.lean ====
section
/-! DEFINITION. One micro-step of the engine (R21, R45), one action of the host, and what comes next. -/

namespace Sys2Proof.Machine

/-- What follows an answered `refill()` (R102, R105, R122). -/
def resume (k : Resume) (s : State) : State :=
  match k with
  | .primed => complete s
  | .value len start => goto (.value len start) s
  | .latch value len start => latchRun value len start s

/-- The environment answers the outstanding read and `refill()` goes on (R103, R104). With no draw left the read is not
answered (yet), and the engine waits (R189, R252). -/
def answerRead (k : Resume) (s : State) : State :=
  match s.nextDraw with
  | none => s
  | some (.ioErr, rest) => readFailed (setDraws rest s)
  | some (.bytes extra, rest) => resume k (takeBytes extra (setDraws rest s))

/-- `next_run()` at a fetch point (R122): TRUNCATED_STREAM if no byte is available; else the code at the cursor runs; a marker
whose value byte is not in the window with it is consumed all the same (R121). -/
def fetchCode (s : State) : Result :=
  if windowEmpty s then .next (truncated s)
  else
    match decodeStream (fetchBytes s) with
    | .ok (i, _) => exec i s
    | .error .noValueByte =>
      match fetchBytes s with
      | b :: _ =>
        match s.micro with
        | .value _ _ => .fault (.engineAccess .win s.inCursor.toNat)
        | _ => .next (takeMarker (markerLen b) s)
      | [] => .fault (.engineAccess .win s.inCursor.toNat)
    | .error .noByte => .fault (.engineAccess .win s.inCursor.toNat)
    | .error (.reservedCommand _) => .fault (.engineAccess .win s.inCursor.toNat)

/-- The engine's next micro-step of the command in progress (R45). -/
def microStep (s : State) : Result :=
  match s.micro with
  | .quiet => .next s
  | .code => fetchCode s
  | .value _ _ => fetchCode s
  | .refill k => if s.reqPending then .next (answerRead k s) else .next (issueRead s)
  | .writeRun => writeRunByte s
  | .pixels px => readPixel px s
  | .plane p px => writePlane p px s

/-- The engine takes a micro-step only while BUSY; in IDLE, READY and ERROR it is quiescent (R210, R219). -/
def engineTick (s : State) : Result :=
  match s.state with
  | .busy => microStep s
  | .idle => .next s
  | .ready => .next s
  | .error => .next s

/-- One action of the host or the environment (R21, R91), already taken off the agenda; WAIT is `hostStep`'s. -/
def perform (a : HostAct) (s : State) : Result :=
  match a with
  | .tick => engineTick s
  | .wait => .next (readRegister 1#4 s)
  | .write r v => writeRegister r v s
  | .read r => .next (readRegister r s)
  | .bufRead sp i => readBuffer sp i s
  | .reset => .next (resetPin s)
  | .bind bytes cycle => .next (bindStream bytes cycle s)
  | .lateAnswer d => .next (takeLateAnswer d s)

/-- One step of the block with its host: the next action of the agenda; with none, or while WAIT finds the engine BUSY, the
engine's next micro-step (R72, R91, R256; log 5). -/
def hostStep (s : State) : Result :=
  match s.agenda with
  | [] => engineTick s
  | a :: rest =>
    if a = .wait ∧ s.state = .busy then engineTick s
    else perform a (setAgenda rest s)

end Sys2Proof.Machine
end

