-- ==== Sys2Proof/Machine/Step.lean ====
section
/-! DEFINITION. The machine's step, and the placing of an instruction where the step fetches it. -/

namespace Sys2Proof.Machine

/-- One step: one host action, or one micro-step of the engine. -/
def step (s : State) : Host.Outcome State Fault Refusal := hostStep s

/-- `s` with the opcode-table word `w` as the next instruction (log 14): a command word is the host's next CTRL write; a
stream code stands in the window, where a DECODE_RUN in progress fetches it in the engine's next micro-step. -/
def State.withFetchWord (s : State) (nbits w : Nat) : State := placeWord nbits w s

end Sys2Proof.Machine
end

