-- ==== Sys2Proof/Machine/Assembler.lean ====
section
/-! DEFINITION. The spec's stream and host notation (R89 to R91): the codes a listing stands for, and the host actions a program
line stands for. -/

namespace Sys2Proof.Machine

/-- `LIT v` (R89): an error for 0xC0 and above. -/
def asmLit (v : Byte) : Option Instr := if isMarker v then none else some (literalOf v)

/-- `RUN n, v` (R89). -/
def asmRun (n : BitVec 6) (v : Byte) : Instr := .run n v

/-- `PIX v` (R90): `LIT v` where it exists, else `RUN 1, v`. -/
def asmPix (v : Byte) : Instr := if isMarker v then .run 1 v else literalOf v

/-- What `REP` emits after its runs of 63 (R90), for a remaining count below 63. -/
def asmRepTail (v : Byte) (n : Nat) : List Instr :=
  if n = 0 then [] else if n = 1 then [asmPix v] else [.run (BitVec.ofNat 6 n) v]

/-- `REP v, n` (R90): runs of 63 while they fit, then what is left. -/
def asmRep (v : Byte) (n : Nat) : List Instr :=
  List.replicate (n / 63) (.run 63 v) ++ asmRepTail v (n % 63)

/-- `ZRUN v` (R90): a zero-length run. -/
def asmZrun (v : Byte) : Instr := .run 0 v

/-- The bytes of a stream listing (R89): the codes' bytes, one after another. -/
def assemble (codes : List Instr) : List Byte := codes.flatMap streamBytes

/-- A command mnemonic as a host program line (R91): `WR CTRL, <code>`. A stream code is no host program line. -/
def hostCommand (i : Instr) : List HostAct :=
  match encode i with
  | .ctrl w => [.write 0#4 w]
  | .stream _ => []

end Sys2Proof.Machine
end

