-- ==== Sys2Proof/Safety.lean ====
section
/-! DEFINITION. The terms the claims use: runs of the machine, the invariant that rules out engine faults (R28, R35, R41, R61),
and what a byte sequence stands for as runs and scanlines, told on the bytes alone (R83, R140 to R144). -/

namespace Sys2Proof.Machine

/-- `n` steps of the machine, stopping where a step stops (`Host.Core.run` of `Sys2Proof.core`, see `runSteps_eq_run`). -/
def runSteps (n : Nat) (s : State) : Result :=
  match n with
  | 0 => .next s
  | k + 1 =>
    match step s with
    | .next t => runSteps k t
    | .fault f => .fault f
    | .refused r => .refused r

/-- R28: a byte is available, or the stream is exhausted. -/
abbrev WindowReady (s : State) : Prop :=
  s.inCursor.toNat < s.inFilled.toNat ∨ (s.eos = true ∧ s.inCursor = 0 ∧ s.inFilled = 0)

/-- Every byte of the current scanline has been written. -/
abbrev ScanFull (s : State) : Prop := ∀ i, i < s.width → (s.scan.read i).isSome = true

/-- R35 at a command boundary: the scanline is consumed, or assembled and not yet read. -/
abbrev BetweenScanlines (s : State) : Prop :=
  s.slCursor = s.latchedW ∨ (s.slCursor = 0 ∧ ScanFull s)

/-- Inside `refill_scanline()`, between runs (R140): the cursor is below W and the bytes below it are written. -/
abbrev Assembling (s : State) : Prop :=
  s.slCursor.toNat < s.width ∧ ∀ i, i < s.slCursor.toNat → (s.scan.read i).isSome = true

/-- What holds while `next_run()` is under way, by its caller. -/
def InNextRun (s : State) : Prop :=
  match s.curCmd with
  | some .decodeRun => BetweenScanlines s
  | some .fillScanline => Assembling s
  | some .packRow => Assembling s ∧ s.row < 8 ∧ s.col = 0
  | some .start => False
  | none => False

/-- The window is emptied and its refill read not yet answered (R28, last sentence). -/
abbrev AtRefill (s : State) : Prop := s.inCursor = s.inFilled ∧ s.eos = false

/-- What holds at each position of the engine. -/
def MicroOk (s : State) : Prop :=
  match s.micro with
  | .quiet => True
  | .code => WindowReady s ∧ InNextRun s
  | .value _ _ => WindowReady s ∧ InNextRun s
  | .refill .primed => AtRefill s ∧ s.curCmd = some .start ∧ s.slCursor = s.latchedW
  | .refill (.value _ _) => AtRefill s ∧ InNextRun s
  | .refill (.latch _ _ _) => AtRefill s ∧ InNextRun s
  | .writeRun =>
    WindowReady s ∧ (s.curCmd = some .fillScanline ∨ (s.curCmd = some .packRow ∧ s.row < 8 ∧ s.col = 0)) ∧
      0 < s.runLeft ∧ s.runLeft ≤ lenOf s.runLength ∧ s.slCursor.toNat + lenOf s.runLength ≤ s.width ∧
      ∀ i, i < runIndex s → (s.scan.read i).isSome = true
  | .pixels px =>
    WindowReady s ∧ s.curCmd = some .packRow ∧ ScanFull s ∧ px.length < 8 ∧ s.row < 8 ∧ s.col < s.width / 8 ∧
      s.slCursor.toNat = 8 * s.col
  | .plane p px =>
    WindowReady s ∧ s.curCmd = some .packRow ∧ ScanFull s ∧ px.length = 8 ∧ p < 4 ∧ s.row < 8 ∧ s.col < s.width / 8 ∧
      s.slCursor.toNat = 8 * (s.col + 1)

/-- The invariant every step keeps. -/
structure State.Inv (s : State) : Prop where
  /-- The buffers are in canonical form. -/
  winWf : s.win.wf = true
  scanWf : s.scan.wf = true
  tileWf : s.tile.wf = true
  /-- Nothing is written at or above a buffer's capacity (R60). -/
  winBelow : ∀ i, Config.winCap ≤ i → s.win.read i = none
  scanBelow : ∀ i, s.maxWidth ≤ i → s.scan.read i = none
  tileBelow : ∀ i, 4 * s.maxWidth ≤ i → s.tile.read i = none
  /-- MAX_WIDTH is a legal instantiation (R9). -/
  parameter : Config.legalMaxWidth s.maxWidth
  /-- The ranges of `in_filled` and `in_cursor` (R25, R26, R28). -/
  filledRange : s.inFilled.toNat ≤ Config.winCap
  cursorRange : s.inCursor.toNat ≤ s.inFilled.toNat
  /-- The live part of the window has been delivered (R29). -/
  winLive : ∀ i, i < s.inFilled.toNat → (s.win.read i).isSome = true
  /-- At the end of the stream the window is empty (R103). -/
  eosEmpty : s.eos = true → s.inFilled = 0
  /-- `err_code` is NONE in every state but ERROR, and names an error there (R41). -/
  errorCode : s.errCode = .none ↔ s.state ≠ .error
  /-- A command is in progress exactly while BUSY (R22, R45). -/
  command : s.curCmd = none ↔ s.state ≠ .busy
  quiet : s.micro = .quiet ↔ s.state ≠ .busy
  /-- A read is outstanding only inside `refill()` (R104). -/
  request : s.reqPending = true → ∃ k, s.micro = .refill k
  /-- The latched width is legal once START has accepted it (R40). -/
  latched : s.state = .ready ∨ s.state = .busy → legalWidth s.maxWidth s.latchedW = true
  /-- R28 and R35 at a command boundary. -/
  boundary : s.state = .ready → WindowReady s ∧ BetweenScanlines s
  /-- The position of the engine. -/
  position : MicroOk s

/-- The bytes the window still holds, from the cursor on. -/
def State.windowRest (s : State) : List Byte :=
  (List.range' s.inCursor.toNat (s.inFilled.toNat - s.inCursor.toNat)).filterMap fun i => s.win.read i

/-- The bytes the engine can still get, from the stream position on, with `n` rounds of the stream's cycle: what the window still
holds, then what the stream has not delivered yet; once `eos` is set no read asks for more (R27, D6). -/
def State.pendingTo (n : Nat) (s : State) : List Byte :=
  s.windowRest ++ if s.eos then [] else s.stream ++ (List.replicate n s.streamCycle).flatten

/-- The byte `i` places after the stream position; none, if the stream ends before it. -/
def State.byteAhead (s : State) (i : Nat) : Option Byte := (s.pendingTo (i + 1))[i]?

/-- The next bytes from the stream position on are `l`. -/
abbrev State.supplies (s : State) (l : List Byte) : Prop := ∀ i, i < l.length → s.byteAhead i = l[i]?

/-- The bytes `l` are next, and the stream ends after them. -/
abbrev State.endsAfter (s : State) (l : List Byte) : Prop := s.supplies l ∧ s.byteAhead l.length = none

/-- The environment's draw for the read `i` places ahead, 0 the next one; none, if that read is not answered. -/
def State.drawAhead (s : State) (i : Nat) : Option Draw :=
  (s.draws ++ (List.replicate (i + 1) s.drawCycle).flatten)[i]?

/-- The environment answers each of the next `n` reads, and none of them with IOERR; of the reads after them it says nothing. -/
abbrev State.answers (s : State) (n : Nat) : Prop :=
  ∀ i, i < n → s.drawAhead i ≠ none ∧ s.drawAhead i ≠ some .ioErr

/-- What assembling a scanline from bytes comes to. -/
inductive Assembled where
  /-- The scanline's pixels, and the bytes left. -/
  | row (px rest : List Byte)
  /-- The bytes end before the scanline is full. -/
  | truncated
  /-- A run of the bytes `from` on would overrun the scanline. -/
  | overrun (rest : List Byte)
  deriving DecidableEq, Repr

/-- A scanline of `w` pixels from a byte sequence, with `acc` assembled already (R83, R140 to R144): bytes below 0xC0 are
pixels, a byte from 0xC0 on is a run marker of length `b - 0xC0` whose value byte follows. -/
def assembleRow (w : Nat) (acc : List Byte) (bytes : List Byte) : Assembled :=
  match bytes with
  | [] => if w ≤ acc.length then .row acc [] else .truncated
  | b :: rest =>
    if w ≤ acc.length then .row acc (b :: rest)
    else if b.toNat < 0xC0 then assembleRow w (acc ++ [b]) rest
    else
      match rest with
      | [] => .truncated
      | v :: rest' =>
        if w < acc.length + (b.toNat - 0xC0) then .overrun (b :: v :: rest')
        else assembleRow w (acc ++ List.replicate (b.toNat - 0xC0) v) rest'

/-- What assembling scanlines one after another comes to. -/
inductive AssembledRows where
  | rows (px : List (List Byte)) (rest : List Byte)
  | truncated
  | overrun (rest : List Byte)
  deriving DecidableEq, Repr

/-- `n` scanlines of `w` pixels from a byte sequence. -/
def assembleRows (w : Nat) (n : Nat) (bytes : List Byte) : AssembledRows :=
  match n with
  | 0 => .rows [] bytes
  | k + 1 =>
    match assembleRow w [] bytes with
    | .truncated => .truncated
    | .overrun rest => .overrun rest
    | .row px rest =>
      match assembleRows w k rest with
      | .truncated => .truncated
      | .overrun rest' => .overrun rest'
      | .rows pxs rest' => .rows (px :: pxs) rest'

/-- The scanline in `scan`, as far as it is written. -/
def State.scanline (s : State) : List Byte := (List.range s.width).filterMap fun i => s.scan.read i

end Sys2Proof.Machine
end

