-- ==== Sys2Proof/Certificates/Slice0/Obligations.lean ====
section
/-! DEFINITION. The statements for the provers: what the spec's numbered rules say of the model. -/

open Sys2Proof Sys2Proof.Machine

/-! ### Encoding -/

/-- Every well-formed instruction is decoded from its encoding, whatever bytes follow a stream code (R80, R82, R84, R85). -/
def Obligations.DecodeInvertsEncode : Prop :=
  ∀ (i : Instr) (rest : List Byte), i.wellFormed = true →
    match encode i with
    | .stream bytes => decodeStream (bytes ++ rest) = .ok (i, rest)
    | .ctrl w => decodeCommand w = .ok i

/-- What the decoders accept is the encoding of what they answer: no two codes are one instruction, and none is ill-formed. -/
def Obligations.EncodeInvertsDecode : Prop :=
  (∀ (bytes rest : List Byte) (i : Instr), decodeStream bytes = .ok (i, rest) →
    i.wellFormed = true ∧ ∃ code, encode i = .stream code ∧ bytes = code ++ rest) ∧
  (∀ (w : Word) (i : Instr), decodeCommand w = .ok i → encode i = .ctrl w)

/-- R81: two bytes if both high bits of the first are set, one byte otherwise; the second byte of a RUN is a value whatever
its bits. -/
def Obligations.CodeLengthFromFirstByte : Prop :=
  ∀ (b v : Byte) (rest : List Byte),
    (b &&& 0xC0#8 = 0xC0#8 → decodeStream (b :: v :: rest) = .ok (.run (b.extractLsb' 0 6) v, rest)) ∧
    (b &&& 0xC0#8 ≠ 0xC0#8 →
      ∃ i, (i = .lit00 b ∨ i = .lit01 b ∨ i = .lit10 b) ∧ decodeStream (b :: v :: rest) = .ok (i, v :: rest))

/-- R84 to R86: a command word is rejected exactly if a bit of [31:4] is set or its code is 5 to 15. -/
def Obligations.ReservedCommandWordsRejected : Prop :=
  ∀ w : Word, decodeCommand w = .error (.reservedCommand w) ↔
    (w.extractLsb' 4 28 ≠ 0#28 ∨ 5 ≤ (w.extractLsb' 0 4).toNat)

/-- Words written out from the spec's encodings decode to the instructions they stand for. -/
def Obligations.SpecWordsDecode : Prop :=
  decodeStream [0x05#8] = .ok (.lit00 0x05#8, []) ∧
  decodeStream [0x40#8] = .ok (.lit01 0x40#8, []) ∧
  decodeStream [0xBF#8] = .ok (.lit10 0xBF#8, []) ∧
  decodeStream [0xC3#8, 0x0A#8] = .ok (.run 3#6 0x0A#8, []) ∧
  decodeCommand 0x00000000#32 = .ok .nop ∧
  decodeCommand 0x00000001#32 = .ok .start ∧
  decodeCommand 0x00000002#32 = .ok .packRow ∧
  decodeCommand 0x00000003#32 = .ok .decodeRun ∧
  decodeCommand 0x00000004#32 = .ok .fillScanline

/-! ### A step runs the decoded instruction -/

/-- A CTRL write whose word decodes to an instruction runs that instruction, the host's action being done. -/
def Obligations.StepRunsWrittenCommand : Prop :=
  ∀ (s : State) (w : Word) (i : Instr) (rest : List HostAct),
    s.agenda = .write 0#4 w :: rest → decodeCommand w = .ok i → step s = exec i { s with agenda := rest }

/-- Where `next_run()` is about to take a byte and the bytes at the cursor decode to an instruction, the engine's step runs
it: with nothing from the host to do, in a step the host leaves to the engine, and under WAIT. -/
def Obligations.StepRunsStreamCode : Prop :=
  ∀ (s : State) (i : Instr) (left : List Byte),
    s.state = .busy → (s.micro = .code ∨ ∃ len start, s.micro = .value len start) →
    s.inCursor ≠ s.inFilled → decodeStream (fetchBytes s) = .ok (i, left) →
    (s.agenda = [] → step s = exec i s) ∧
    (∀ rest, s.agenda = .wait :: rest → step s = exec i s) ∧
    (∀ rest, s.agenda = .tick :: rest → step s = exec i { s with agenda := rest })

/-- The bytes `next_run()` decodes: from the cursor on where a code begins; the consumed marker and the byte at the cursor
where the value byte of a RUN is wanted. -/
def Obligations.FetchReadsAtCursor : Prop :=
  ∀ (s : State) (b v : Byte), s.inCursor ≠ s.inFilled → s.win.read s.inCursor.toNat = some b →
    (s.micro = .code → s.inCursor + 1#9 = s.inFilled → fetchBytes s = [b]) ∧
    (s.micro = .code → s.inCursor + 1#9 ≠ s.inFilled → s.win.read (s.inCursor + 1#9).toNat = some v →
      fetchBytes s = [b, v]) ∧
    (∀ len start, s.micro = .value len start → fetchBytes s = [3#2 ++ len, b])

/-! ### Reset -/

/-- The table of R54: every element at its reset value, the buffers without a defined byte. -/
def Obligations.ResetTableValues : Prop :=
  State.reset.state = .idle ∧ State.reset.inFilled = 0#9 ∧ State.reset.inCursor = 0#9 ∧ State.reset.eos = false ∧
  State.reset.inOffset = 0#32 ∧ State.reset.refillCount = 0#32 ∧ State.reset.slCursor = 0#32 ∧
  State.reset.runValue = 0#8 ∧ State.reset.runLength = 0#6 ∧ State.reset.widthReg = 0#32 ∧ State.reset.latchedW = 0#32 ∧
  State.reset.errCode = .none ∧ State.reset.errOffset = 0#32 ∧ State.reset.cmdIgnored = false ∧
  State.reset.curCmd = none ∧ State.reset.micro = .quiet ∧ State.reset.reqPending = false ∧
  ∀ i, State.reset.win.read i = none ∧ State.reset.scan.read i = none ∧ State.reset.tile.read i = none

/-- Asserting reset, in any state, puts every element of the block at its reset value and leaves the stream where it is; a read
that was outstanding is counted as abandoned (R240, R241). By the model's choice: the count of abandoned reads (log 7), the value 0
of the loop positions row, column and remaining run (log 15), and that MAX_WIDTH, the draws, the agenda, the host's last read results
and the count of free values are kept (log 16). -/
def Obligations.ResetStepRestoresResetState : Prop :=
  ∀ (s : State) (rest : List HostAct), s.agenda = .reset :: rest →
    step s = .next { State.reset with
      maxWidth := s.maxWidth, stream := s.stream, streamCycle := s.streamCycle, draws := s.draws, drawCycle := s.drawCycle
      agenda := rest
      abandoned := if s.reqPending = true then s.abandoned + 1 else s.abandoned
      readData := s.readData, bufData := s.bufData, freeIndex := s.freeIndex }

/-- The late answer of an abandoned read is discarded: no element of the block changes; the bytes it carried are gone from the
stream, and an IOERR raises nothing (R241; the count of abandoned reads, and that an IOERR carries no bytes, are the model's choices,
logs 7 and 20). -/
def Obligations.LateAnswerIsDiscarded : Prop :=
  ∀ (s : State) (rest : List HostAct), 0 < s.abandoned →
    (∀ extra : Byte, s.agenda = .lateAnswer (.bytes extra) :: rest →
      step s = .next { s with
        agenda := rest, abandoned := s.abandoned - 1
        stream := s.upcoming.drop (min (extra.toNat + 1) s.upcoming.length) }) ∧
    (s.agenda = .lateAnswer .ioErr :: rest → step s = .next { s with agenda := rest, abandoned := s.abandoned - 1 })

/-! ### The invariant -/

/-- The state after reset keeps the invariant. -/
def Obligations.ResetKeepsInvariant : Prop := State.reset.Inv

/-- Every step, of the engine, the host or the environment, keeps the invariant (R28, R35, R39 to R41, R61). -/
def Obligations.EveryStepKeepsInvariant : Prop :=
  ∀ s t : State, s.Inv → step s = .next t → t.Inv

/-- R61: no engine access leaves the live part of a buffer or reads a byte that was not written; the model's fault for it never
happens from a state that keeps the invariant. -/
def Obligations.NoEngineAccessFault : Prop :=
  ∀ (s : State) (f : Fault), s.Inv → step s ≠ .fault f

/-- R61, R29, R103: what a step changes in `scan` and `tile` lies in their live parts, and in `win` in the live part after the step (a
refill replaces it: `win[n..255]` keep stale contents), reset apart. -/
def Obligations.BuffersChangeOnlyInLivePart : Prop :=
  ∀ s t : State, s.Inv → (∀ rest, s.agenda ≠ .reset :: rest) → step s = .next t →
    (∀ i, s.width ≤ i → t.scan.read i = s.scan.read i) ∧ (∀ i, 4 * s.width ≤ i → t.tile.read i = s.tile.read i) ∧
    (∀ i, t.inFilled.toNat ≤ i → t.win.read i = s.win.read i)

/-- R28, over the states that keep the invariant. -/
def Obligations.WindowAtCommandBoundary : Prop :=
  ∀ s : State, s.Inv →
    s.inCursor.toNat ≤ s.inFilled.toNat ∧
    (s.state = .ready →
      ¬(s.inCursor.toNat < s.inFilled.toNat ↔ (s.eos = true ∧ s.inCursor = 0#9 ∧ s.inFilled = 0#9))) ∧
    (s.state ≠ .busy → s.inCursor = s.inFilled → s.eos = false → s.state = .idle ∨ s.state = .error) ∧
    (s.state = .busy → s.inCursor = s.inFilled → s.eos = false → ∃ k, s.micro = .refill k)

/-- R35, over the states that keep the invariant. -/
def Obligations.ScanlineCursorAtBoundaries : Prop :=
  ∀ s : State, s.Inv →
    (s.state = .ready → s.slCursor = 0#32 ∨ s.slCursor = s.latchedW) ∧
    (s.curCmd = some .packRow → (s.micro = .pixels [] ∨ ∃ p px, s.micro = .plane p px) →
      s.slCursor.toNat % 8 = 0 ∧ s.slCursor.toNat ≤ s.latchedW.toNat)

/-! ### Rules about every step -/

/-- The parameter MAX_WIDTH is fixed (R9; log 1). -/
def Obligations.ParameterNeverChanges : Prop :=
  ∀ s t : State, step s = .next t → t.maxWidth = s.maxWidth

/-- R22: the points at which the engine state changes. -/
def Obligations.EngineStateChangePoints : Prop :=
  ∀ s t : State, step s = .next t → t.state ≠ s.state →
    (t.state = .idle → ∃ rest, s.agenda = .reset :: rest) ∧
    (t.state = .busy → t.curCmd ≠ none ∧ ∃ v rest, s.agenda = .write 0#4 v :: rest ∧
      (v = 1#32 ∨ v = 2#32 ∨ v = 3#32 ∨ v = 4#32)) ∧
    (t.state = .ready → s.state = .busy ∧ t.curCmd = none) ∧
    (t.state = .error → t.errCode ≠ .none ∧ t.curCmd = none)

/-- R209, R210: ERROR is left only by a START written to CTRL or by reset, and until then the first error stays recorded. -/
def Obligations.ErrorLeftOnlyByStartOrReset : Prop :=
  ∀ s t : State, s.state = .error → step s = .next t →
    (∀ rest, s.agenda ≠ .reset :: rest) → (∀ rest, s.agenda ≠ .write 0#4 1#32 :: rest) →
    t.state = .error ∧ t.errCode = s.errCode ∧ t.errOffset = s.errOffset

/-- R30, R31, R45: a step moves the stream position by 0 or 1, for a micro-step consumes at most one byte, or START or reset sets it
to 0. -/
def Obligations.StreamPositionOnlyAdvances : Prop :=
  ∀ s t : State, step s = .next t →
    t.inOffset = s.inOffset ∨ t.inOffset = s.inOffset + 1#32 ∨
    (t.inOffset = 0#32 ∧ ∃ rest, s.agenda = .reset :: rest ∨ s.agenda = .write 0#4 1#32 :: rest)

/-- R27: while `eos` is set no stream read is issued and none is outstanding, and only START and reset clear `eos`. -/
def Obligations.NoReadAfterEndOfStream : Prop :=
  ∀ s t : State, s.Inv → s.eos = true → step s = .next t →
    (∀ rest, s.agenda ≠ .reset :: rest) → (∀ rest, s.agenda ≠ .write 0#4 1#32 :: rest) →
    t.eos = true ∧ t.reqPending = false ∧ t.refillCount = s.refillCount

/-- R255: no step, START and reset among them, gives back a byte of the stream, or of the rounds of its cycle; only the host's binding
sets it anew. -/
def Obligations.StreamIsNeverRewound : Prop :=
  ∀ s t : State, step s = .next t → (∀ bytes cycle rest, s.agenda ≠ .bind bytes cycle :: rest) →
    t.streamCycle = s.streamCycle ∧
    ∃ n gone, s.stream ++ (List.replicate n s.streamCycle).flatten = gone ++ t.stream

/-- R219: outside BUSY the engine takes no micro-step; all state survives. -/
def Obligations.QuiescentOutsideBusy : Prop :=
  ∀ s : State, s.state ≠ .busy →
    (s.agenda = [] → step s = .next s) ∧ (∀ rest, s.agenda = .tick :: rest → step s = .next { s with agenda := rest })

/-- R189, R252: while a read is not answered the engine waits, however long, and reset still leaves BUSY (R241); that reset counts the
read as abandoned is the model's choice (log 7). -/
def Obligations.UnansweredReadWaits : Prop :=
  ∀ (s : State) (k : Resume), s.state = .busy → s.micro = .refill k → s.reqPending = true → s.draws = [] → s.drawCycle = [] →
    (s.agenda = [] → ∀ n, runSteps n s = .next s) ∧
    (∀ rest, s.agenda = .wait :: rest → ∀ n, runSteps n s = .next s) ∧
    (∀ rest, s.agenda = .reset :: rest → ∃ t, step s = .next t ∧ t.state = .idle ∧ t.abandoned = s.abandoned + 1)

/-! ### The host's registers and buffers -/

/-- R46 to R51: what a register read returns while the engine is not BUSY, bit by bit for the words made of fields. -/
def Obligations.RegisterReadValues : Prop :=
  ∀ (s : State) (r : BitVec 4) (rest : List HostAct), s.agenda = .read r :: rest → s.state ≠ .busy →
    let stateCode : EngState → BitVec 2 := fun e => match e with | .idle => 0#2 | .ready => 1#2 | .busy => 2#2 | .error => 3#2
    let errorCode : ErrCode → BitVec 4 := fun e => match e with
      | .none => 0#4 | .truncatedStream => 1#4 | .runOverrun => 2#4 | .dimension => 3#4 | .streamIo => 4#4
      | .sequence => 5#4 | .illegalCommand => 6#4
    ∃ v : Word, step s = .next { s with agenda := rest, readData := v } ∧
      (r = 0#4 → v = 0#32) ∧
      (r = 1#4 → v.extractLsb' 0 2 = stateCode s.state ∧ v.getLsbD 2 = s.cmdIgnored ∧ v.getLsbD 3 = false ∧
        v.extractLsb' 4 4 = errorCode s.errCode ∧ v.extractLsb' 8 24 = 0#24) ∧
      (r = 2#4 → v = s.widthReg) ∧ (r = 3#4 → v = s.latchedW) ∧ (r = 4#4 → v = s.inOffset) ∧
      (r = 5#4 → v.extractLsb' 0 9 = s.inCursor ∧ v.extractLsb' 9 7 = 0#7 ∧ v.extractLsb' 16 9 = s.inFilled ∧
        v.extractLsb' 25 6 = 0#6 ∧ v.getLsbD 31 = s.eos) ∧
      (r = 6#4 → v.extractLsb' 0 8 = s.runValue ∧ v.extractLsb' 8 6 = s.runLength ∧ v.extractLsb' 14 18 = 0#18) ∧
      (r = 7#4 → v = s.slCursor) ∧ (r = 8#4 → v = s.errOffset) ∧ (r = 9#4 → v = s.refillCount) ∧
      (10 ≤ r.toNat → v = 0#32)

/-- R53: while BUSY, STATUS and WIDTH are exact, and any other register read draws a free value (its form is the model's choice, log 3);
in every case nothing of the block changes. That CTRL and registers 10 to 15, which R47 and R52 say read 0, are among the others while
BUSY is the model's reading (log 8). -/
def Obligations.RegisterReadsWhileBusy : Prop :=
  ∀ (s : State) (r : BitVec 4) (rest : List HostAct), s.agenda = .read r :: rest → s.state = .busy →
    let errorCode : ErrCode → BitVec 4 := fun e => match e with
      | .none => 0#4 | .truncatedStream => 1#4 | .runOverrun => 2#4 | .dimension => 3#4 | .streamIo => 4#4
      | .sequence => 5#4 | .illegalCommand => 6#4
    (r = 1#4 → ∃ v : Word, step s = .next { s with agenda := rest, readData := v } ∧ v.extractLsb' 0 2 = 2#2 ∧
      v.getLsbD 2 = s.cmdIgnored ∧ v.getLsbD 3 = false ∧ v.extractLsb' 4 4 = errorCode s.errCode ∧
      v.extractLsb' 8 24 = 0#24) ∧
    (r = 2#4 → step s = .next { s with agenda := rest, readData := s.widthReg }) ∧
    (r ≠ 1#4 → r ≠ 2#4 →
      step s = .next { s with agenda := rest, readData := Config.freeWord s.freeIndex, freeIndex := s.freeIndex + 1 })

/-- R38, R52: WIDTH stores every value in every state; a write to any other register but CTRL changes nothing. -/
def Obligations.RegisterWriteEffects : Prop :=
  ∀ (s : State) (r : BitVec 4) (v : Word) (rest : List HostAct), s.agenda = .write r v :: rest →
    (r = 2#4 → step s = .next { s with agenda := rest, widthReg := v }) ∧
    (r ≠ 0#4 → r ≠ 2#4 → step s = .next { s with agenda := rest })

/-- R91, R73, R48: WAIT leaves the engine its micro-steps while BUSY, and ends once the host has read a STATUS whose STATE is not
BUSY; the word it gets is STATUS, field by field. -/
def Obligations.WaitEndsOutsideBusy : Prop :=
  ∀ (s : State) (rest : List HostAct), s.agenda = .wait :: rest →
    let stateCode : EngState → BitVec 2 := fun e => match e with | .idle => 0#2 | .ready => 1#2 | .busy => 2#2 | .error => 3#2
    let errorCode : ErrCode → BitVec 4 := fun e => match e with
      | .none => 0#4 | .truncatedStream => 1#4 | .runOverrun => 2#4 | .dimension => 3#4 | .streamIo => 4#4
      | .sequence => 5#4 | .illegalCommand => 6#4
    (s.state = .busy → step s = microStep s) ∧
    (s.state ≠ .busy → ∃ v : Word, step s = .next { s with agenda := rest, readData := v } ∧
      v.extractLsb' 0 2 = stateCode s.state ∧ v.extractLsb' 0 2 ≠ 2#2 ∧ v.getLsbD 2 = s.cmdIgnored ∧ v.getLsbD 3 = false ∧
      v.extractLsb' 4 4 = errorCode s.errCode ∧ v.extractLsb' 8 24 = 0#24)

/-- R244, R255: binding gives the block a stream anew and changes nothing of the block. By the model's choice it forgets the reads
abandoned before (log 7) and, if a read of a command in progress is outstanding, swaps the stream under it (log 19). -/
def Obligations.BindingSetsStream : Prop :=
  ∀ (s : State) (bytes cycle : List Byte) (rest : List HostAct), s.agenda = .bind bytes cycle :: rest →
    step s = .next { s with agenda := rest, stream := bytes, streamCycle := cycle, abandoned := 0 }

/-- R63: the buffer read port. The index spaces are 256, MAX_WIDTH and 4*MAX_WIDTH bytes, the live parts `in_filled`, W and 4W.
By the model's choice: a byte of the live part that nothing has written since reset has no exact value and is read as any value
(log 2), 'any value' is the next free byte, which advances the count (log 3), and the refusal holds while BUSY too (log 9). -/
def Obligations.BufferReadPort : Prop :=
  ∀ (s : State) (sp : Space) (i : Nat) (rest : List HostAct), s.agenda = .bufRead sp i :: rest →
    let cap := match sp with | .win => 256 | .scan => s.maxWidth | .tile => 4 * s.maxWidth
    let live := match sp with | .win => s.inFilled.toNat | .scan => s.latchedW.toNat | .tile => 4 * s.latchedW.toNat
    let buf := match sp with | .win => s.win | .scan => s.scan | .tile => s.tile
    (cap ≤ i → step s = .refused (.noSuchByte sp i)) ∧
    (∀ b, i < cap → s.state ≠ .busy → i < live → buf.read i = some b →
      step s = .next { s with agenda := rest, bufData := b }) ∧
    (i < cap → (s.state = .busy ∨ live ≤ i ∨ buf.read i = none) →
      step s = .next { s with agenda := rest, bufData := Config.freeByte s.freeIndex, freeIndex := s.freeIndex + 1 })

/-- R64: no action of the host writes a buffer; only a step it leaves to the engine (and reset) changes one. -/
def Obligations.HostCannotWriteBuffers : Prop :=
  ∀ (s t : State) (a : HostAct) (rest : List HostAct), s.agenda = a :: rest → a ≠ .tick → a ≠ .wait → a ≠ .reset →
    step s = .next t → t.win = s.win ∧ t.scan = s.scan ∧ t.tile = s.tile

/-! ### The commands -/

/-- R181, R43: an ignored CTRL write sets the sticky flag and changes nothing else; no step sets the flag but an ignored write; reset
and an accepted START clear it, and no other step does. -/
def Obligations.IgnoredWriteSetsOnlyFlag : Prop :=
  (∀ (s : State) (v : Word) (rest : List HostAct), s.agenda = .write 0#4 v :: rest →
    (s.state = .busy ∨ (s.state = .error ∧ v ≠ 0#32 ∧ v ≠ 1#32)) →
    step s = .next { s with agenda := rest, cmdIgnored := true }) ∧
  (∀ s t : State, step s = .next t → s.cmdIgnored = false → t.cmdIgnored = true →
    ∃ v rest, s.agenda = .write 0#4 v :: rest ∧ (s.state = .busy ∨ (s.state = .error ∧ v ≠ 0#32 ∧ v ≠ 1#32))) ∧
  (∀ s t : State, step s = .next t → s.cmdIgnored = true → (∀ rest, s.agenda ≠ .reset :: rest) →
    (∀ rest, s.agenda = .write 0#4 1#32 :: rest → s.state = .busy) → t.cmdIgnored = true) ∧
  (∀ (s t : State) (rest : List HostAct), step s = .next t →
    (s.agenda = .reset :: rest ∨ (s.agenda = .write 0#4 1#32 :: rest ∧ s.state ≠ .busy)) → t.cmdIgnored = false)

/-- R187: a reserved command word raises ILLEGAL_COMMAND in IDLE and READY, at the stream offset, and nothing else changes; in BUSY and
ERROR it is ignored. -/
def Obligations.ReservedWordRaisesIllegalCommand : Prop :=
  ∀ (s : State) (v : Word) (rest : List HostAct), s.agenda = .write 0#4 v :: rest →
    (v.extractLsb' 4 28 ≠ 0#28 ∨ 5 ≤ (v.extractLsb' 0 4).toNat) →
    (s.state = .idle ∨ s.state = .ready → step s = .next { s with
      agenda := rest, state := .error, errCode := .illegalCommand, errOffset := s.inOffset
      curCmd := none, micro := .quiet }) ∧
    (s.state = .busy ∨ s.state = .error → step s = .next { s with agenda := rest, cmdIgnored := true })

/-- R188: PACK_ROW, DECODE_RUN and FILL_SCANLINE in IDLE raise SEQUENCE at the stream offset, which is 0 after reset, and nothing
else happens. -/
def Obligations.SequenceErrorInIdle : Prop :=
  State.reset.inOffset = 0#32 ∧ ∀ (s : State) (i : Instr), s.state = .idle → (i = .packRow ∨ i = .decodeRun ∨ i = .fillScanline) →
    exec i s = .next { s with
      state := .error, errCode := .sequence, errOffset := s.inOffset, curCmd := none, micro := .quiet }

/-- R182: NOP, the word 0, completes with no effect in IDLE, READY and ERROR; in BUSY the write is ignored. -/
def Obligations.NopHasNoEffect : Prop :=
  decodeCommand 0x00000000#32 = .ok .nop ∧ ∀ s : State, (s.state ≠ .busy → exec .nop s = .next s) ∧
    (s.state = .busy → exec .nop s = .next { s with cmdIgnored := true })

/-- R183: START with a legal width, in IDLE, READY or ERROR, and a prime that the environment answers with bytes: accepted, then some
micro-steps later READY, with every element as the rule gives it. The delivered bytes are the stream's next, at most 256, and
none only if there are none; `scan`, `tile` and the rest of `win` are not cleared. That the updates happen in the step of the CTRL
write, and the size of the micro-steps, are the model's choices (logs 17 and 4). -/
def Obligations.StartCompletes : Prop :=
  ∀ (s : State) (extra : Byte) (ds : List Draw),
    s.state ≠ .busy → s.reqPending = false → s.agenda = [] → s.nextDraw = some (.bytes extra, ds) →
    s.widthReg ≠ 0#32 → s.widthReg.toNat % 8 = 0 → s.widthReg.toNat ≤ s.maxWidth →
    let n := min (extra.toNat + 1) s.upcoming.length
    ∃ t k u, exec .start s = .next t ∧ t.state = .busy ∧ t.curCmd = some .start ∧ runSteps k t = .next u ∧
      (∀ i, i < n → u.win.read i = s.upcoming[i]?) ∧ (∀ i, n ≤ i → u.win.read i = s.win.read i) ∧
      u = { s with
        state := .ready, errCode := .none, errOffset := 0#32, cmdIgnored := false
        win := u.win, inFilled := BitVec.ofNat 9 n, inCursor := 0#9, eos := decide (n = 0)
        inOffset := 0#32, refillCount := 1#32, slCursor := s.widthReg
        runValue := 0#8, runLength := 0#6, latchedW := s.widthReg
        curCmd := none, micro := .quiet, stream := s.upcoming.drop n, draws := ds }

/-- R183, R203: START with an illegal width raises DIMENSION at offset 0 before any stream read; W holds the illegal width. That ERROR
stands in the CTRL write's own step, with no BUSY between, is the model's choice (log 17). -/
def Obligations.StartRejectsIllegalWidth : Prop :=
  ∀ s : State, s.state ≠ .busy →
    (s.widthReg = 0#32 ∨ s.widthReg.toNat % 8 ≠ 0 ∨ s.maxWidth < s.widthReg.toNat) →
    exec .start s = .next { s with
      state := .error, errCode := .dimension, errOffset := 0#32, cmdIgnored := false
      inFilled := 0#9, inCursor := 0#9, eos := false, inOffset := 0#32, refillCount := 0#32, slCursor := 0#32
      runValue := 0#8, runLength := 0#6, latchedW := s.widthReg, curCmd := none, micro := .quiet }

/-- R103, R204: a stream read answered with IOERR ends the command in STREAM_IO at the stream offset; the window and the flag
`eos` stay as they were before the read. That the failed read consumes no byte of the stream is the model's choice (log 20). -/
def Obligations.FailedReadRaisesStreamIo : Prop :=
  ∀ (s : State) (k : Resume) (ds : List Draw),
    s.state = .busy → s.micro = .refill k → s.reqPending = true → s.agenda = [] → s.nextDraw = some (.ioErr, ds) →
    step s = .next { s with
      state := .error, errCode := .streamIo, errOffset := s.inOffset, reqPending := false, draws := ds
      curCmd := none, micro := .quiet }

/-- R120, R122, R185: DECODE_RUN on a literal: accepted, and some micro-steps later READY with the run latched and one byte consumed;
nothing else changes. In the first clause the literal is not the window's last byte, and nothing of the window changes but its cursor;
in the second the bytes ahead come in whatever windows, the literal the window's last byte among them, and the environment answers the
read it may need. The number of micro-steps in the first clause rests on the model's size of a micro-step (log 4). -/
def Obligations.DecodeRunCompletesOnLiteral : Prop :=
  (∀ (s : State) (b : Byte), s.state = .ready → s.agenda = [] → s.win.read s.inCursor.toNat = some b → b.toNat < 0xC0 →
    s.inCursor ≠ s.inFilled → s.inCursor + 1#9 ≠ s.inFilled →
    ∃ t, exec .decodeRun s = .next t ∧ t = { s with state := .busy, curCmd := some .decodeRun, micro := .code } ∧
      runSteps 1 t = .next { s with
        inCursor := s.inCursor + 1#9, inOffset := s.inOffset + 1#32, runValue := b, runLength := 1#6
        curCmd := none, micro := .quiet }) ∧
  (∀ (s : State) (b : Byte), s.Inv → s.state = .ready → s.agenda = [] → s.byteAhead 0 = some b → b.toNat < 0xC0 → s.answers 1 →
    ∃ t n u, exec .decodeRun s = .next t ∧ runSteps n t = .next u ∧ (∀ i, u.byteAhead i = s.byteAhead (i + 1)) ∧
      u = { s with
        win := u.win, inFilled := u.inFilled, inCursor := u.inCursor, eos := u.eos
        inOffset := s.inOffset + 1#32, refillCount := u.refillCount, runValue := b, runLength := 1#6
        stream := u.stream, draws := u.draws })

/-- R121, R122, R185: DECODE_RUN on a run marker and its value byte: two bytes consumed, the run latched, its length the marker's low six
bits; nothing else changes. In the first clause both bytes are in the window and not its last; in the second the bytes ahead come in
whatever windows, the value byte the window's last, or alone in the next window, among them, and the environment answers the reads they
may need. The number of micro-steps in the first clause rests on the model's size of a micro-step (log 4). -/
def Obligations.DecodeRunCompletesOnRun : Prop :=
  (∀ (s : State) (b v : Byte), s.state = .ready → s.agenda = [] → s.win.read s.inCursor.toNat = some b → 0xC0 ≤ b.toNat →
    s.win.read (s.inCursor + 1#9).toNat = some v →
    s.inCursor ≠ s.inFilled → s.inCursor + 1#9 ≠ s.inFilled → s.inCursor + 2#9 ≠ s.inFilled →
    ∃ t, exec .decodeRun s = .next t ∧ t = { s with state := .busy, curCmd := some .decodeRun, micro := .code } ∧
      runSteps 2 t = .next { s with
        inCursor := s.inCursor + 2#9, inOffset := s.inOffset + 2#32
        runValue := v, runLength := BitVec.ofNat 6 (b.toNat - 0xC0), curCmd := none, micro := .quiet }) ∧
  (∀ (s : State) (b v : Byte), s.Inv → s.state = .ready → s.agenda = [] → s.byteAhead 0 = some b → 0xC0 ≤ b.toNat →
    s.byteAhead 1 = some v → s.answers 2 →
    ∃ t n u, exec .decodeRun s = .next t ∧ runSteps n t = .next u ∧ (∀ i, u.byteAhead i = s.byteAhead (i + 2)) ∧
      u = { s with
        win := u.win, inFilled := u.inFilled, inCursor := u.inCursor, eos := u.eos
        inOffset := s.inOffset + 2#32, refillCount := u.refillCount
        runValue := v, runLength := BitVec.ofNat 6 (b.toNat - 0xC0), stream := u.stream, draws := u.draws })

/-- R101, R201, R185: DECODE_RUN with no byte left raises TRUNCATED_STREAM at the stream offset; nothing else changes. That one
micro-step comes to it rests on the model's size of a micro-step (log 4, after R45 and D26). -/
def Obligations.DecodeRunOnExhaustedStream : Prop :=
  ∀ s : State, s.state = .ready → s.agenda = [] → s.inCursor = s.inFilled →
    ∃ t, exec .decodeRun s = .next t ∧ runSteps 1 t = .next { s with
      state := .error, errCode := .truncatedStream, errOffset := s.inOffset, curCmd := none, micro := .quiet }

/-! ### The stream codes -/

/-- R120: a LIT, of any tag, inside DECODE_RUN and not the window's last byte: the run (VALUE, 1) is latched, one byte consumed, the
command completes; nothing else changes. -/
def Obligations.LiteralLatchesRun : Prop :=
  ∀ (s : State) (v : Byte) (i : Instr), (i = .lit00 v ∨ i = .lit01 v ∨ i = .lit10 v) →
    s.curCmd = some .decodeRun → s.micro = .code → s.inCursor ≠ s.inFilled → s.inCursor + 1#9 ≠ s.inFilled →
    exec i s = .next { s with
      state := .ready, inCursor := s.inCursor + 1#9, inOffset := s.inOffset + 1#32
      runValue := v, runLength := 1#6, curCmd := none, micro := .quiet }

/-- R121, R122: a RUN inside DECODE_RUN, neither of its bytes the window's last: its marker is consumed, the length and the offset it
stood at kept for the value byte, and nothing else changes; then its value byte is, the run (VALUE, LEN) is latched and the command
completes, whatever window the marker stood in; nothing else changes. -/
def Obligations.RunLatchesRun : Prop :=
  ∀ (s : State) (len : BitVec 6) (v : Byte), s.inCursor ≠ s.inFilled → s.inCursor + 1#9 ≠ s.inFilled →
    (s.micro = .code → exec (.run len v) s = .next { s with
      inCursor := s.inCursor + 1#9, inOffset := s.inOffset + 1#32, micro := .value len s.inOffset }) ∧
    (∀ start, s.curCmd = some .decodeRun → s.micro = .value len start → exec (.run len v) s = .next { s with
      state := .ready, inCursor := s.inCursor + 1#9, inOffset := s.inOffset + 1#32
      runValue := v, runLength := len, curCmd := none, micro := .quiet })

/-- R140, R141: a LIT inside `refill_scanline()` never overruns: its run is latched and the writing of its one byte begins. -/
def Obligations.LiteralInScanline : Prop :=
  ∀ (s : State) (v : Byte) (i : Instr), (i = .lit00 v ∨ i = .lit01 v ∨ i = .lit10 v) →
    (s.curCmd = some .fillScanline ∨ s.curCmd = some .packRow) → s.micro = .code →
    s.slCursor.toNat < s.latchedW.toNat → s.inCursor ≠ s.inFilled → s.inCursor + 1#9 ≠ s.inFilled →
    exec i s = .next { s with
      inCursor := s.inCursor + 1#9, inOffset := s.inOffset + 1#32
      runValue := v, runLength := 1#6, runLeft := 1, micro := .writeRun }

/-- R140 to R142, R202: a RUN inside `refill_scanline()` whose marker, at the offset `start`, has been consumed, its value byte not the
window's last. If it would write past W, RUN_OVERRUN at the offset of its marker, with the run latched, the cursor where it was and no
byte written; a zero-length run writes nothing and leaves the cursor, and the loop goes on to the next run; any other run begins to be
written. -/
def Obligations.RunInScanline : Prop :=
  ∀ (s : State) (len : BitVec 6) (v : Byte) (start : Word),
    (s.curCmd = some .fillScanline ∨ s.curCmd = some .packRow) → s.micro = .value len start →
    s.slCursor.toNat < s.latchedW.toNat → s.inCursor ≠ s.inFilled → s.inCursor + 1#9 ≠ s.inFilled →
    (s.latchedW.toNat < s.slCursor.toNat + len.toNat → exec (.run len v) s = .next { s with
      state := .error, errCode := .runOverrun, errOffset := start
      inCursor := s.inCursor + 1#9, inOffset := s.inOffset + 1#32
      runValue := v, runLength := len, curCmd := none, micro := .quiet }) ∧
    (len = 0#6 → exec (.run len v) s = .next { s with
      inCursor := s.inCursor + 1#9, inOffset := s.inOffset + 1#32
      runValue := v, runLength := 0#6, runLeft := 0, micro := .code }) ∧
    (0 < len.toNat → s.slCursor.toNat + len.toNat ≤ s.latchedW.toNat → exec (.run len v) s = .next { s with
      inCursor := s.inCursor + 1#9, inOffset := s.inOffset + 1#32
      runValue := v, runLength := len, runLeft := len.toNat, micro := .writeRun })

/-- R102, R103, R107, R122: the last byte of a code, a literal or the value byte of a RUN whose marker has been consumed (from this window
or the one before), is the window's last byte, inside DECODE_RUN: exactly one read is issued, before the run is latched; when it is
answered the window holds the next bytes of the stream from index 0 on and the run is latched. The numbers of micro-steps rest on the
model's size of a micro-step, an answer's bytes in one (log 4). -/
def Obligations.EagerRefillAtWindowEnd : Prop :=
  ∀ (s : State) (b extra : Byte) (len : BitVec 6) (start : Word) (ds : List Draw),
    s.state = .busy → s.curCmd = some .decodeRun → s.reqPending = false → s.agenda = [] →
    s.win.read s.inCursor.toNat = some b →
    ((s.micro = .code ∧ b.toNat < 0xC0 ∧ len = 1#6 ∧ start = s.inOffset) ∨ s.micro = .value len start) →
    s.inCursor ≠ s.inFilled → s.inCursor + 1#9 = s.inFilled → s.nextDraw = some (.bytes extra, ds) →
    let n := min (extra.toNat + 1) s.upcoming.length
    runSteps 2 s = .next { s with
      inCursor := s.inFilled, inOffset := s.inOffset + 1#32, refillCount := s.refillCount + 1#32, reqPending := true
      micro := .refill (.latch b len start) } ∧
    ∃ u, runSteps 3 s = .next u ∧
      (∀ i, i < n → u.win.read i = s.upcoming[i]?) ∧ (∀ i, n ≤ i → u.win.read i = s.win.read i) ∧
      u = { s with
        state := .ready, win := u.win, inFilled := BitVec.ofNat 9 n, inCursor := 0#9, eos := s.eos || decide (n = 0)
        inOffset := s.inOffset + 1#32, refillCount := s.refillCount + 1#32
        runValue := b, runLength := len, curCmd := none, micro := .quiet, stream := s.upcoming.drop n, draws := ds }

/-- R121, R122: a marker is the window's last byte, inside DECODE_RUN, and the refill after it delivers its value byte: the value byte is
wanted from the new window. If more bytes came with it, the run is latched with two bytes consumed; if it came alone, one more read is
asked for, and the run is latched when it is answered. The numbers of micro-steps rest on the model's size of a micro-step, an answer's
bytes in one (log 4). -/
def Obligations.RunAcrossWindows : Prop :=
  ∀ (s : State) (b v extra : Byte) (st : List Byte) (ds : List Draw),
    s.state = .busy → s.curCmd = some .decodeRun → s.micro = .code → s.reqPending = false → s.agenda = [] →
    s.win.read s.inCursor.toNat = some b → 0xC0 ≤ b.toNat →
    s.inCursor ≠ s.inFilled → s.inCursor + 1#9 = s.inFilled →
    s.upcoming = v :: st → s.nextDraw = some (.bytes extra, ds) →
    let n := min (extra.toNat + 1) s.upcoming.length
    let len := BitVec.ofNat 6 (b.toNat - 0xC0)
    ∃ w, runSteps 3 s = .next w ∧ (∀ i, i < n → w.win.read i = s.upcoming[i]?) ∧
      (∀ i, n ≤ i → w.win.read i = s.win.read i) ∧
      w = { s with
        win := w.win, inFilled := BitVec.ofNat 9 n, inCursor := 0#9
        inOffset := s.inOffset + 1#32, refillCount := s.refillCount + 1#32
        micro := .value len s.inOffset, stream := s.upcoming.drop n, draws := ds } ∧
      (n ≠ 1 → runSteps 4 s = .next { w with
        state := .ready, inCursor := 1#9, inOffset := s.inOffset + 2#32
        runValue := v, runLength := len, curCmd := none, micro := .quiet }) ∧
      (n = 1 → runSteps 4 s = .next { w with
        inCursor := 1#9, inOffset := s.inOffset + 2#32, micro := .refill (.latch v len s.inOffset) } ∧
        ∀ (extra' : Byte) (ds' : List Draw), w.nextDraw = some (.bytes extra', ds') →
          ∃ u, runSteps 6 s = .next u ∧ u.state = .ready ∧ u.runValue = v ∧ u.runLength = len ∧ u.inCursor = 0#9 ∧
            u.inOffset = s.inOffset + 2#32 ∧ u.refillCount = s.refillCount + 2#32 ∧
            u.inFilled.toNat = min (extra'.toNat + 1) w.upcoming.length)

/-- R122, R204: a literal is consumed as the window's last byte and the refill inside its `advance()` fails: STREAM_IO at the
offset after it, `in_cursor = in_filled` left in place, and the Run register not written. The number of micro-steps rests on log 4, and
that the failed read consumes no byte of the stream on log 20, the model's choices. -/
def Obligations.FailedRefillLatchesNothing : Prop :=
  ∀ (s : State) (b : Byte) (ds : List Draw),
    s.state = .busy → s.micro = .code → s.reqPending = false → s.agenda = [] →
    s.win.read s.inCursor.toNat = some b → b.toNat < 0xC0 →
    s.inCursor ≠ s.inFilled → s.inCursor + 1#9 = s.inFilled → s.nextDraw = some (.ioErr, ds) →
    runSteps 3 s = .next { s with
      state := .error, errCode := .streamIo, errOffset := s.inOffset + 1#32
      inCursor := s.inFilled, inOffset := s.inOffset + 1#32, refillCount := s.refillCount + 1#32
      curCmd := none, micro := .quiet, draws := ds }

/-- R121, R201, R207: a marker is the last byte of the stream: TRUNCATED_STREAM at the offset after it, the marker consumed, and the
Run register not written, whatever length the marker has. The number of micro-steps rests on the model's size of one (log 4). -/
def Obligations.MissingValueByteTruncates : Prop :=
  ∀ (s : State) (b extra : Byte) (ds : List Draw),
    s.state = .busy → s.micro = .code → s.reqPending = false → s.agenda = [] →
    s.win.read s.inCursor.toNat = some b → 0xC0 ≤ b.toNat →
    s.inCursor ≠ s.inFilled → s.inCursor + 1#9 = s.inFilled → s.upcoming = [] → s.nextDraw = some (.bytes extra, ds) →
    runSteps 4 s = .next { s with
      state := .error, errCode := .truncatedStream, errOffset := s.inOffset + 1#32
      inFilled := 0#9, inCursor := 0#9, eos := true
      inOffset := s.inOffset + 1#32, refillCount := s.refillCount + 1#32
      curCmd := none, micro := .quiet, draws := ds }

/-! ### Scanlines and tiles -/

/-- R140: the bytes of a run are written at the cursor and on, and nowhere else; then the cursor is past the run, or back at 0 if the
scanline is full. That they are written one a micro-step, and the cursor moved in the last one's, rests on the model's size of a
micro-step (log 4, after R45 and D26). -/
def Obligations.RunBytesAreWritten : Prop :=
  ∀ s : State, s.state = .busy → (s.curCmd = some .fillScanline ∨ s.curCmd = some .packRow) →
    s.micro = .writeRun → s.agenda = [] → 0 < s.runLeft →
    s.runLeft = s.runLength.toNat → s.slCursor.toNat + s.runLength.toNat ≤ s.latchedW.toNat →
    ∃ t, runSteps s.runLength.toNat s = .next t ∧
      (∀ a, t.scan.read a =
        if s.slCursor.toNat ≤ a ∧ a < s.slCursor.toNat + s.runLength.toNat then some s.runValue else s.scan.read a) ∧
      t.slCursor.toNat =
        (if s.slCursor.toNat + s.runLength.toNat < s.latchedW.toNat then s.slCursor.toNat + s.runLength.toNat else 0) ∧
      t = { s with
        state := t.state, scan := t.scan, slCursor := t.slCursor, curCmd := t.curCmd, runLeft := 0, micro := t.micro }

/-- R143: the eight pixels from the cursor on are read and the cursor is moved by 8; nothing else changes. That it takes eight
micro-steps, the cursor moved in the eighth, rests on the model's size of a micro-step (log 4, after R45 and D26). -/
def Obligations.EightPixelsAreRead : Prop :=
  ∀ (s : State) (px : List Byte), s.state = .busy → s.micro = .pixels [] → s.agenda = [] →
    s.slCursor.toNat + 8 ≤ s.latchedW.toNat → px.length = 8 →
    (∀ b, b < 8 → s.scan.read (s.slCursor.toNat + b) = px[b]?) →
    runSteps 8 s = .next { s with slCursor := s.slCursor + 8#32, micro := .plane 0 px }

/-- R163: the four plane bytes of a tile's pixel row are written at `c*32 + r*4 + p`, and nowhere else. That it takes four micro-steps
rests on the model's size of a micro-step (log 4, after R45 and D26). -/
def Obligations.PlaneBytesAreWritten : Prop :=
  ∀ (s : State) (px : List Byte), s.state = .busy → s.micro = .plane 0 px → s.agenda = [] →
    s.col < s.latchedW.toNat / 8 → s.row < 8 →
    ∃ t, runSteps 4 s = .next t ∧
      (∀ p, p < 4 → t.tile.read (s.col * 32 + s.row * 4 + p) = some (planeByte px p)) ∧
      (∀ a, (∀ p, p < 4 → a ≠ s.col * 32 + s.row * 4 + p) → t.tile.read a = s.tile.read a) ∧
      t = { s with
        state := t.state, slCursor := t.slCursor, tile := t.tile, curCmd := t.curCmd, row := t.row, col := t.col
        micro := t.micro }

/-- R160: bit `7 - b` of the plane-`p` byte is bit `p` of pixel `b`; bits [7:4] of the pixels do not matter to any plane
byte. -/
def Obligations.PlaneByteBits : Prop :=
  ∀ (px : List Byte) (p : Nat), px.length = 8 → p < 4 →
    (∀ (b : Nat) (x : Byte), b < 8 → px[b]? = some x → (planeByte px p).getLsbD (7 - b) = x.getLsbD p) ∧
    (∀ py : List Byte, px.map (fun x => x &&& 0x0F#8) = py.map (fun x => x &&& 0x0F#8) → planeByte px p = planeByte py p)

/-- R163: the index `c*32 + r*4 + p` takes each value below 4W exactly once. -/
def Obligations.TileIndexCoversBufferOnce : Prop :=
  ∀ w : Nat, w % 8 = 0 →
    (∀ c r p, c < w / 8 → r < 8 → p < 4 → tileIndex c r p < 4 * w) ∧
    (∀ a, a < 4 * w → ∃ c r p, c < w / 8 ∧ r < 8 ∧ p < 4 ∧ tileIndex c r p = a) ∧
    (∀ c r p c' r' p', r < 8 → p < 4 → r' < 8 → p' < 4 → tileIndex c r p = tileIndex c' r' p' → c = c' ∧ r = r' ∧ p = p')

/-- R140 to R144, R186, R189, R201, R202: FILL_SCANLINE from READY, whatever the chunks the stream arrives in and whether it ends or not,
comes to what the bytes `l` ahead say: the scanline, READY and the cursor at 0; or RUN_OVERRUN at the offending code; or, if the stream
ends after them, TRUNCATED_STREAM at its end. `tile`, the widths, the sticky flag and the host's side do not change, nor does `scan`
from W on. -/
def Obligations.FillScanlineRefinesBytes : Prop :=
  ∀ (s : State) (l : List Byte), s.Inv → s.state = .ready → s.agenda = [] → s.supplies l → s.answers l.length →
    (assembleRow s.latchedW.toNat [] l = .truncated → s.endsAfter l) →
    ∃ t, exec .fillScanline s = .next t ∧ t.state = .busy ∧ t.curCmd = some .fillScanline ∧
      ∃ n u, runSteps n t = .next u ∧
        u = { s with
          state := u.state, errCode := u.errCode, errOffset := u.errOffset
          win := u.win, inFilled := u.inFilled, inCursor := u.inCursor, eos := u.eos
          inOffset := u.inOffset, refillCount := u.refillCount, scan := u.scan, slCursor := u.slCursor
          runValue := u.runValue, runLength := u.runLength, runLeft := u.runLeft
          curCmd := none, micro := .quiet, stream := u.stream, draws := u.draws } ∧
        (∀ x, s.latchedW.toNat ≤ x → u.scan.read x = s.scan.read x) ∧
        match assembleRow s.latchedW.toNat [] l with
        | .row px rest =>
          u.state = .ready ∧ u.errCode = .none ∧ u.errOffset = s.errOffset ∧ u.slCursor = 0#32 ∧
            (∀ x, x < s.latchedW.toNat → u.scan.read x = px[x]?) ∧
            (∀ i, u.byteAhead i = s.byteAhead (l.length - rest.length + i)) ∧
            u.inOffset = s.inOffset + BitVec.ofNat 32 (l.length - rest.length)
        | .truncated =>
          u.state = .error ∧ u.errCode = .truncatedStream ∧ u.errOffset = s.inOffset + BitVec.ofNat 32 l.length
        | .overrun rest =>
          u.state = .error ∧ u.errCode = .runOverrun ∧
            u.errOffset = s.inOffset + BitVec.ofNat 32 (l.length - rest.length)

/-- R163, R164, R184, R186, R189, R201, R202: PACK_ROW from READY, whatever the chunks the stream arrives in and whether it ends or not,
comes to what the bytes `l` ahead say: the tile row of eight scanlines, the first of them the one FILL_SCANLINE left if the cursor is 0, with bit `7 - b` of byte
`c*32 + r*4 + p` the bit `p` of pixel `8c + b` of scanline `r`, and READY with the cursor at W; or the error the bytes come to. -/
def Obligations.PackRowPacksTileRow : Prop :=
  ∀ (s : State) (l : List Byte), s.Inv → s.state = .ready → s.agenda = [] → s.supplies l → s.answers l.length →
    let carried := if s.slCursor = 0#32 then [s.scanline] else []
    (assembleRows s.latchedW.toNat (8 - carried.length) l = .truncated → s.endsAfter l) →
    ∃ t, exec .packRow s = .next t ∧ t.state = .busy ∧ t.curCmd = some .packRow ∧
      ∃ n u, runSteps n t = .next u ∧
        u = { s with
          state := u.state, errCode := u.errCode, errOffset := u.errOffset
          win := u.win, inFilled := u.inFilled, inCursor := u.inCursor, eos := u.eos
          inOffset := u.inOffset, refillCount := u.refillCount, scan := u.scan, slCursor := u.slCursor
          runValue := u.runValue, runLength := u.runLength, tile := u.tile, row := u.row, col := u.col, runLeft := u.runLeft
          curCmd := none, micro := .quiet, stream := u.stream, draws := u.draws } ∧
        (∀ a, 4 * s.latchedW.toNat ≤ a → u.tile.read a = s.tile.read a) ∧
        (∀ x, s.latchedW.toNat ≤ x → u.scan.read x = s.scan.read x) ∧
        match assembleRows s.latchedW.toNat (8 - carried.length) l with
        | .rows pxs rest =>
          u.state = .ready ∧ u.errCode = .none ∧ u.errOffset = s.errOffset ∧ u.slCursor = s.latchedW ∧
            (∀ i, u.byteAhead i = s.byteAhead (l.length - rest.length + i)) ∧
            u.inOffset = s.inOffset + BitVec.ofNat 32 (l.length - rest.length) ∧
            ∀ c r p b, c < s.latchedW.toNat / 8 → r < 8 → p < 4 → b < 8 →
              ∃ row x byte, (carried ++ pxs)[r]? = some row ∧ row[8 * c + b]? = some x ∧
                u.tile.read (c * 32 + r * 4 + p) = some byte ∧ byte.getLsbD (7 - b) = x.getLsbD p
        | .truncated =>
          u.state = .error ∧ u.errCode = .truncatedStream ∧ u.errOffset = s.inOffset + BitVec.ofNat 32 l.length
        | .overrun rest =>
          u.state = .error ∧ u.errCode = .runOverrun ∧
            u.errOffset = s.inOffset + BitVec.ofNat 32 (l.length - rest.length)

/-- R106: two blocks that have the same bytes ahead, at the same offset and width, in whatever chunks, come out of PACK_ROW with the
same tile row, the same position and the same bytes ahead, or with the same error at the same offset, if as many of those bytes as
decide it, `l`, need no read that fails or goes unanswered. -/
def Obligations.ChunkingIsUnobservable : Prop :=
  ∀ (s s' : State) (l : List Byte), s.Inv → s'.Inv → s.state = .ready → s'.state = .ready → s.agenda = [] → s'.agenda = [] →
    (∀ i, s.byteAhead i = s'.byteAhead i) → s.supplies l → s.answers l.length → s'.answers l.length →
    (assembleRows s.latchedW.toNat 8 l = .truncated → s.endsAfter l) →
    s.latchedW = s'.latchedW → s.inOffset = s'.inOffset → s.slCursor = s.latchedW → s'.slCursor = s'.latchedW →
    ∃ t t' n n' u u', exec .packRow s = .next t ∧ exec .packRow s' = .next t' ∧
      runSteps n t = .next u ∧ runSteps n' t' = .next u' ∧ u.state ≠ .busy ∧ u.state = u'.state ∧
      u.errCode = u'.errCode ∧
      (u.state = .ready → u.inOffset = u'.inOffset ∧ (∀ i, u.byteAhead i = u'.byteAhead i) ∧
        ∀ a, a < 4 * s.latchedW.toNat → u.tile.read a = u'.tile.read a) ∧
      (u.state = .error → u.errOffset = u'.errOffset)

/-- R142, R144, R189, `93_implementation_defined.md` N10: on a stream of zero-length runs without end FILL_SCANLINE never completes and
never fails, though every read is answered: it consumes run after run, stays BUSY however long, and writes nothing to `scan`. That such
a stream, and its answers, repeat themselves is the form the model gives the environment (log 6). -/
def Obligations.EndlessZeroRunsNeverComplete : Prop :=
  ∀ s : State, s.Inv → s.state = .ready → s.agenda = [] → (∀ i, s.byteAhead (2 * i) = some 0xC0#8) → (∀ n, s.answers n) →
    ∃ t, exec .fillScanline s = .next t ∧
      (∀ n, ∃ u, runSteps n t = .next u ∧ u.state = .busy ∧ u.curCmd = some .fillScanline ∧ u.slCursor = 0#32 ∧
        u.scan = s.scan) ∧
      (∀ k, ∃ n u, runSteps n t = .next u ∧ u.state = .busy ∧ u.inOffset = s.inOffset + BitVec.ofNat 32 (2 * k))

/-! ### Notation -/

/-- R90: the bytes of `REP v, n`, for every `v` and every `n` above 0, assemble to a scanline of `n` pixels of `v`, and the bytes
after them are left. -/
def Obligations.RepAssemblesToRepeatedValue : Prop :=
  ∀ (v : Byte) (n : Nat) (rest : List Byte), 0 < n →
    assembleRow n [] (assemble (asmRep v n) ++ rest) = .row (List.replicate n v) rest
end

