-- ==== Sys2Proof/Laws/Decode.lean ====
section
/-! SUPPORT. The small laws of the decoders and of the encoder (R80 to R86). -/

namespace Sys2Proof

/-- A byte is a run marker iff it is 0xC0 or above (R83). -/
theorem isMarker_iff (b : Byte) : isMarker b = true ↔ 0xC0 ≤ b.toNat := by
  revert b; unfold isMarker; decide

/-- A byte is a run marker iff its tag is 11 (R80). -/
theorem isMarker_iff_tag (b : Byte) : isMarker b = true ↔ tagOf b = 3#2 := by
  revert b; unfold isMarker tagOf; decide

@[simp] theorem isMarker_markerOf (len : BitVec 6) : isMarker (markerOf len) = true := by
  revert len; unfold isMarker markerOf; decide

@[simp] theorem markerLen_markerOf (len : BitVec 6) : markerLen (markerOf len) = len := by
  revert len; unfold markerLen markerOf; decide

theorem markerOf_markerLen (b : Byte) (h : isMarker b = true) : markerOf (markerLen b) = b := by
  revert b; unfold isMarker markerOf markerLen; decide

/-- LEN is what the marker exceeds 0xC0 by (R83). -/
theorem markerLen_toNat (b : Byte) (h : isMarker b = true) : (markerLen b).toNat = b.toNat - 0xC0 := by
  revert b; unfold isMarker markerLen; decide

/-- A byte that is no marker is the LIT of its tag, and that LIT has an encoding (R80, R83). -/
theorem literalOf_cases (b : Byte) (h : isMarker b = false) :
    (literalOf b = .lit00 b ∨ literalOf b = .lit01 b ∨ literalOf b = .lit10 b) ∧ (literalOf b).wellFormed = true := by
  have htag : tagOf b = 0#2 ∨ tagOf b = 1#2 ∨ tagOf b = 2#2 := by
    revert b; unfold isMarker tagOf; decide
  unfold literalOf
  rcases htag with ht | ht | ht <;> rw [ht] <;> simp [ht]

/-- A stream that begins with a byte below 0xC0 begins with its LIT. -/
theorem decodeStream_literal (b : Byte) (rest : List Byte) (h : isMarker b = false) :
    decodeStream (b :: rest) = .ok (literalOf b, rest) := by
  simp [decodeStream, h]

/-- A stream that begins with a marker and another byte begins with a RUN. -/
theorem decodeStream_marker (b v : Byte) (rest : List Byte) (h : isMarker b = true) :
    decodeStream (b :: v :: rest) = .ok (.run (markerLen b) v, rest) := by
  simp [decodeStream, h]

/-- A marker alone is no code yet. -/
theorem decodeStream_marker_alone (b : Byte) (h : isMarker b = true) : decodeStream [b] = .error .noValueByte := by
  simp [decodeStream, h]

end Sys2Proof
end

