-- ==== Sys2Proof/Laws/State.lean ====
section
/-! SUPPORT. One lemma per field per update: what each named update of the state leaves in each field. -/

namespace Sys2Proof.Machine

section gotoUpdate

@[simp] theorem goto_state (m : Micro) (s : State) : (goto m s).state = s.state := (rfl)
@[simp] theorem goto_errCode (m : Micro) (s : State) : (goto m s).errCode = s.errCode := (rfl)
@[simp] theorem goto_errOffset (m : Micro) (s : State) : (goto m s).errOffset = s.errOffset := (rfl)
@[simp] theorem goto_cmdIgnored (m : Micro) (s : State) : (goto m s).cmdIgnored = s.cmdIgnored := (rfl)
@[simp] theorem goto_win (m : Micro) (s : State) : (goto m s).win = s.win := (rfl)
@[simp] theorem goto_inFilled (m : Micro) (s : State) : (goto m s).inFilled = s.inFilled := (rfl)
@[simp] theorem goto_inCursor (m : Micro) (s : State) : (goto m s).inCursor = s.inCursor := (rfl)
@[simp] theorem goto_eos (m : Micro) (s : State) : (goto m s).eos = s.eos := (rfl)
@[simp] theorem goto_inOffset (m : Micro) (s : State) : (goto m s).inOffset = s.inOffset := (rfl)
@[simp] theorem goto_refillCount (m : Micro) (s : State) : (goto m s).refillCount = s.refillCount := (rfl)
@[simp] theorem goto_scan (m : Micro) (s : State) : (goto m s).scan = s.scan := (rfl)
@[simp] theorem goto_slCursor (m : Micro) (s : State) : (goto m s).slCursor = s.slCursor := (rfl)
@[simp] theorem goto_runValue (m : Micro) (s : State) : (goto m s).runValue = s.runValue := (rfl)
@[simp] theorem goto_runLength (m : Micro) (s : State) : (goto m s).runLength = s.runLength := (rfl)
@[simp] theorem goto_tile (m : Micro) (s : State) : (goto m s).tile = s.tile := (rfl)
@[simp] theorem goto_widthReg (m : Micro) (s : State) : (goto m s).widthReg = s.widthReg := (rfl)
@[simp] theorem goto_latchedW (m : Micro) (s : State) : (goto m s).latchedW = s.latchedW := (rfl)
@[simp] theorem goto_curCmd (m : Micro) (s : State) : (goto m s).curCmd = s.curCmd := (rfl)
@[simp] theorem goto_row (m : Micro) (s : State) : (goto m s).row = s.row := (rfl)
@[simp] theorem goto_col (m : Micro) (s : State) : (goto m s).col = s.col := (rfl)
@[simp] theorem goto_runLeft (m : Micro) (s : State) : (goto m s).runLeft = s.runLeft := (rfl)
@[simp] theorem goto_micro (m : Micro) (s : State) : (goto m s).micro = m := (rfl)
@[simp] theorem goto_reqPending (m : Micro) (s : State) : (goto m s).reqPending = s.reqPending := (rfl)
@[simp] theorem goto_maxWidth (m : Micro) (s : State) : (goto m s).maxWidth = s.maxWidth := (rfl)
@[simp] theorem goto_stream (m : Micro) (s : State) : (goto m s).stream = s.stream := (rfl)
@[simp] theorem goto_streamCycle (m : Micro) (s : State) : (goto m s).streamCycle = s.streamCycle := (rfl)
@[simp] theorem goto_draws (m : Micro) (s : State) : (goto m s).draws = s.draws := (rfl)
@[simp] theorem goto_drawCycle (m : Micro) (s : State) : (goto m s).drawCycle = s.drawCycle := (rfl)
@[simp] theorem goto_abandoned (m : Micro) (s : State) : (goto m s).abandoned = s.abandoned := (rfl)
@[simp] theorem goto_agenda (m : Micro) (s : State) : (goto m s).agenda = s.agenda := (rfl)
@[simp] theorem goto_readData (m : Micro) (s : State) : (goto m s).readData = s.readData := (rfl)
@[simp] theorem goto_bufData (m : Micro) (s : State) : (goto m s).bufData = s.bufData := (rfl)
@[simp] theorem goto_freeIndex (m : Micro) (s : State) : (goto m s).freeIndex = s.freeIndex := (rfl)
@[simp] theorem goto_width (m : Micro) (s : State) : (goto m s).width = s.width := (rfl)
@[simp] theorem goto_upcoming (m : Micro) (s : State) : (goto m s).upcoming = s.upcoming := (rfl)
@[simp] theorem goto_nextDraw (m : Micro) (s : State) : (goto m s).nextDraw = s.nextDraw := (rfl)

end gotoUpdate

section setScanCursorUpdate

@[simp] theorem setScanCursor_state (w : Word) (s : State) : (setScanCursor w s).state = s.state := (rfl)
@[simp] theorem setScanCursor_errCode (w : Word) (s : State) : (setScanCursor w s).errCode = s.errCode := (rfl)
@[simp] theorem setScanCursor_errOffset (w : Word) (s : State) : (setScanCursor w s).errOffset = s.errOffset := (rfl)
@[simp] theorem setScanCursor_cmdIgnored (w : Word) (s : State) : (setScanCursor w s).cmdIgnored = s.cmdIgnored := (rfl)
@[simp] theorem setScanCursor_win (w : Word) (s : State) : (setScanCursor w s).win = s.win := (rfl)
@[simp] theorem setScanCursor_inFilled (w : Word) (s : State) : (setScanCursor w s).inFilled = s.inFilled := (rfl)
@[simp] theorem setScanCursor_inCursor (w : Word) (s : State) : (setScanCursor w s).inCursor = s.inCursor := (rfl)
@[simp] theorem setScanCursor_eos (w : Word) (s : State) : (setScanCursor w s).eos = s.eos := (rfl)
@[simp] theorem setScanCursor_inOffset (w : Word) (s : State) : (setScanCursor w s).inOffset = s.inOffset := (rfl)
@[simp] theorem setScanCursor_refillCount (w : Word) (s : State) : (setScanCursor w s).refillCount = s.refillCount := (rfl)
@[simp] theorem setScanCursor_scan (w : Word) (s : State) : (setScanCursor w s).scan = s.scan := (rfl)
@[simp] theorem setScanCursor_slCursor (w : Word) (s : State) : (setScanCursor w s).slCursor = w := (rfl)
@[simp] theorem setScanCursor_runValue (w : Word) (s : State) : (setScanCursor w s).runValue = s.runValue := (rfl)
@[simp] theorem setScanCursor_runLength (w : Word) (s : State) : (setScanCursor w s).runLength = s.runLength := (rfl)
@[simp] theorem setScanCursor_tile (w : Word) (s : State) : (setScanCursor w s).tile = s.tile := (rfl)
@[simp] theorem setScanCursor_widthReg (w : Word) (s : State) : (setScanCursor w s).widthReg = s.widthReg := (rfl)
@[simp] theorem setScanCursor_latchedW (w : Word) (s : State) : (setScanCursor w s).latchedW = s.latchedW := (rfl)
@[simp] theorem setScanCursor_curCmd (w : Word) (s : State) : (setScanCursor w s).curCmd = s.curCmd := (rfl)
@[simp] theorem setScanCursor_row (w : Word) (s : State) : (setScanCursor w s).row = s.row := (rfl)
@[simp] theorem setScanCursor_col (w : Word) (s : State) : (setScanCursor w s).col = s.col := (rfl)
@[simp] theorem setScanCursor_runLeft (w : Word) (s : State) : (setScanCursor w s).runLeft = s.runLeft := (rfl)
@[simp] theorem setScanCursor_micro (w : Word) (s : State) : (setScanCursor w s).micro = s.micro := (rfl)
@[simp] theorem setScanCursor_reqPending (w : Word) (s : State) : (setScanCursor w s).reqPending = s.reqPending := (rfl)
@[simp] theorem setScanCursor_maxWidth (w : Word) (s : State) : (setScanCursor w s).maxWidth = s.maxWidth := (rfl)
@[simp] theorem setScanCursor_stream (w : Word) (s : State) : (setScanCursor w s).stream = s.stream := (rfl)
@[simp] theorem setScanCursor_streamCycle (w : Word) (s : State) : (setScanCursor w s).streamCycle = s.streamCycle := (rfl)
@[simp] theorem setScanCursor_draws (w : Word) (s : State) : (setScanCursor w s).draws = s.draws := (rfl)
@[simp] theorem setScanCursor_drawCycle (w : Word) (s : State) : (setScanCursor w s).drawCycle = s.drawCycle := (rfl)
@[simp] theorem setScanCursor_abandoned (w : Word) (s : State) : (setScanCursor w s).abandoned = s.abandoned := (rfl)
@[simp] theorem setScanCursor_agenda (w : Word) (s : State) : (setScanCursor w s).agenda = s.agenda := (rfl)
@[simp] theorem setScanCursor_readData (w : Word) (s : State) : (setScanCursor w s).readData = s.readData := (rfl)
@[simp] theorem setScanCursor_bufData (w : Word) (s : State) : (setScanCursor w s).bufData = s.bufData := (rfl)
@[simp] theorem setScanCursor_freeIndex (w : Word) (s : State) : (setScanCursor w s).freeIndex = s.freeIndex := (rfl)
@[simp] theorem setScanCursor_width (w : Word) (s : State) : (setScanCursor w s).width = s.width := (rfl)
@[simp] theorem setScanCursor_upcoming (w : Word) (s : State) : (setScanCursor w s).upcoming = s.upcoming := (rfl)
@[simp] theorem setScanCursor_nextDraw (w : Word) (s : State) : (setScanCursor w s).nextDraw = s.nextDraw := (rfl)

end setScanCursorUpdate

section setRunUpdate

@[simp] theorem setRun_state (v : Byte) (l : BitVec 6) (s : State) : (setRun v l s).state = s.state := (rfl)
@[simp] theorem setRun_errCode (v : Byte) (l : BitVec 6) (s : State) : (setRun v l s).errCode = s.errCode := (rfl)
@[simp] theorem setRun_errOffset (v : Byte) (l : BitVec 6) (s : State) : (setRun v l s).errOffset = s.errOffset := (rfl)
@[simp] theorem setRun_cmdIgnored (v : Byte) (l : BitVec 6) (s : State) : (setRun v l s).cmdIgnored = s.cmdIgnored := (rfl)
@[simp] theorem setRun_win (v : Byte) (l : BitVec 6) (s : State) : (setRun v l s).win = s.win := (rfl)
@[simp] theorem setRun_inFilled (v : Byte) (l : BitVec 6) (s : State) : (setRun v l s).inFilled = s.inFilled := (rfl)
@[simp] theorem setRun_inCursor (v : Byte) (l : BitVec 6) (s : State) : (setRun v l s).inCursor = s.inCursor := (rfl)
@[simp] theorem setRun_eos (v : Byte) (l : BitVec 6) (s : State) : (setRun v l s).eos = s.eos := (rfl)
@[simp] theorem setRun_inOffset (v : Byte) (l : BitVec 6) (s : State) : (setRun v l s).inOffset = s.inOffset := (rfl)
@[simp] theorem setRun_refillCount (v : Byte) (l : BitVec 6) (s : State) : (setRun v l s).refillCount = s.refillCount := (rfl)
@[simp] theorem setRun_scan (v : Byte) (l : BitVec 6) (s : State) : (setRun v l s).scan = s.scan := (rfl)
@[simp] theorem setRun_slCursor (v : Byte) (l : BitVec 6) (s : State) : (setRun v l s).slCursor = s.slCursor := (rfl)
@[simp] theorem setRun_runValue (v : Byte) (l : BitVec 6) (s : State) : (setRun v l s).runValue = v := (rfl)
@[simp] theorem setRun_runLength (v : Byte) (l : BitVec 6) (s : State) : (setRun v l s).runLength = l := (rfl)
@[simp] theorem setRun_tile (v : Byte) (l : BitVec 6) (s : State) : (setRun v l s).tile = s.tile := (rfl)
@[simp] theorem setRun_widthReg (v : Byte) (l : BitVec 6) (s : State) : (setRun v l s).widthReg = s.widthReg := (rfl)
@[simp] theorem setRun_latchedW (v : Byte) (l : BitVec 6) (s : State) : (setRun v l s).latchedW = s.latchedW := (rfl)
@[simp] theorem setRun_curCmd (v : Byte) (l : BitVec 6) (s : State) : (setRun v l s).curCmd = s.curCmd := (rfl)
@[simp] theorem setRun_row (v : Byte) (l : BitVec 6) (s : State) : (setRun v l s).row = s.row := (rfl)
@[simp] theorem setRun_col (v : Byte) (l : BitVec 6) (s : State) : (setRun v l s).col = s.col := (rfl)
@[simp] theorem setRun_runLeft (v : Byte) (l : BitVec 6) (s : State) : (setRun v l s).runLeft = s.runLeft := (rfl)
@[simp] theorem setRun_micro (v : Byte) (l : BitVec 6) (s : State) : (setRun v l s).micro = s.micro := (rfl)
@[simp] theorem setRun_reqPending (v : Byte) (l : BitVec 6) (s : State) : (setRun v l s).reqPending = s.reqPending := (rfl)
@[simp] theorem setRun_maxWidth (v : Byte) (l : BitVec 6) (s : State) : (setRun v l s).maxWidth = s.maxWidth := (rfl)
@[simp] theorem setRun_stream (v : Byte) (l : BitVec 6) (s : State) : (setRun v l s).stream = s.stream := (rfl)
@[simp] theorem setRun_streamCycle (v : Byte) (l : BitVec 6) (s : State) : (setRun v l s).streamCycle = s.streamCycle := (rfl)
@[simp] theorem setRun_draws (v : Byte) (l : BitVec 6) (s : State) : (setRun v l s).draws = s.draws := (rfl)
@[simp] theorem setRun_drawCycle (v : Byte) (l : BitVec 6) (s : State) : (setRun v l s).drawCycle = s.drawCycle := (rfl)
@[simp] theorem setRun_abandoned (v : Byte) (l : BitVec 6) (s : State) : (setRun v l s).abandoned = s.abandoned := (rfl)
@[simp] theorem setRun_agenda (v : Byte) (l : BitVec 6) (s : State) : (setRun v l s).agenda = s.agenda := (rfl)
@[simp] theorem setRun_readData (v : Byte) (l : BitVec 6) (s : State) : (setRun v l s).readData = s.readData := (rfl)
@[simp] theorem setRun_bufData (v : Byte) (l : BitVec 6) (s : State) : (setRun v l s).bufData = s.bufData := (rfl)
@[simp] theorem setRun_freeIndex (v : Byte) (l : BitVec 6) (s : State) : (setRun v l s).freeIndex = s.freeIndex := (rfl)
@[simp] theorem setRun_width (v : Byte) (l : BitVec 6) (s : State) : (setRun v l s).width = s.width := (rfl)
@[simp] theorem setRun_upcoming (v : Byte) (l : BitVec 6) (s : State) : (setRun v l s).upcoming = s.upcoming := (rfl)
@[simp] theorem setRun_nextDraw (v : Byte) (l : BitVec 6) (s : State) : (setRun v l s).nextDraw = s.nextDraw := (rfl)

end setRunUpdate

section setRunLeftUpdate

@[simp] theorem setRunLeft_state (n : Nat) (s : State) : (setRunLeft n s).state = s.state := (rfl)
@[simp] theorem setRunLeft_errCode (n : Nat) (s : State) : (setRunLeft n s).errCode = s.errCode := (rfl)
@[simp] theorem setRunLeft_errOffset (n : Nat) (s : State) : (setRunLeft n s).errOffset = s.errOffset := (rfl)
@[simp] theorem setRunLeft_cmdIgnored (n : Nat) (s : State) : (setRunLeft n s).cmdIgnored = s.cmdIgnored := (rfl)
@[simp] theorem setRunLeft_win (n : Nat) (s : State) : (setRunLeft n s).win = s.win := (rfl)
@[simp] theorem setRunLeft_inFilled (n : Nat) (s : State) : (setRunLeft n s).inFilled = s.inFilled := (rfl)
@[simp] theorem setRunLeft_inCursor (n : Nat) (s : State) : (setRunLeft n s).inCursor = s.inCursor := (rfl)
@[simp] theorem setRunLeft_eos (n : Nat) (s : State) : (setRunLeft n s).eos = s.eos := (rfl)
@[simp] theorem setRunLeft_inOffset (n : Nat) (s : State) : (setRunLeft n s).inOffset = s.inOffset := (rfl)
@[simp] theorem setRunLeft_refillCount (n : Nat) (s : State) : (setRunLeft n s).refillCount = s.refillCount := (rfl)
@[simp] theorem setRunLeft_scan (n : Nat) (s : State) : (setRunLeft n s).scan = s.scan := (rfl)
@[simp] theorem setRunLeft_slCursor (n : Nat) (s : State) : (setRunLeft n s).slCursor = s.slCursor := (rfl)
@[simp] theorem setRunLeft_runValue (n : Nat) (s : State) : (setRunLeft n s).runValue = s.runValue := (rfl)
@[simp] theorem setRunLeft_runLength (n : Nat) (s : State) : (setRunLeft n s).runLength = s.runLength := (rfl)
@[simp] theorem setRunLeft_tile (n : Nat) (s : State) : (setRunLeft n s).tile = s.tile := (rfl)
@[simp] theorem setRunLeft_widthReg (n : Nat) (s : State) : (setRunLeft n s).widthReg = s.widthReg := (rfl)
@[simp] theorem setRunLeft_latchedW (n : Nat) (s : State) : (setRunLeft n s).latchedW = s.latchedW := (rfl)
@[simp] theorem setRunLeft_curCmd (n : Nat) (s : State) : (setRunLeft n s).curCmd = s.curCmd := (rfl)
@[simp] theorem setRunLeft_row (n : Nat) (s : State) : (setRunLeft n s).row = s.row := (rfl)
@[simp] theorem setRunLeft_col (n : Nat) (s : State) : (setRunLeft n s).col = s.col := (rfl)
@[simp] theorem setRunLeft_runLeft (n : Nat) (s : State) : (setRunLeft n s).runLeft = n := (rfl)
@[simp] theorem setRunLeft_micro (n : Nat) (s : State) : (setRunLeft n s).micro = s.micro := (rfl)
@[simp] theorem setRunLeft_reqPending (n : Nat) (s : State) : (setRunLeft n s).reqPending = s.reqPending := (rfl)
@[simp] theorem setRunLeft_maxWidth (n : Nat) (s : State) : (setRunLeft n s).maxWidth = s.maxWidth := (rfl)
@[simp] theorem setRunLeft_stream (n : Nat) (s : State) : (setRunLeft n s).stream = s.stream := (rfl)
@[simp] theorem setRunLeft_streamCycle (n : Nat) (s : State) : (setRunLeft n s).streamCycle = s.streamCycle := (rfl)
@[simp] theorem setRunLeft_draws (n : Nat) (s : State) : (setRunLeft n s).draws = s.draws := (rfl)
@[simp] theorem setRunLeft_drawCycle (n : Nat) (s : State) : (setRunLeft n s).drawCycle = s.drawCycle := (rfl)
@[simp] theorem setRunLeft_abandoned (n : Nat) (s : State) : (setRunLeft n s).abandoned = s.abandoned := (rfl)
@[simp] theorem setRunLeft_agenda (n : Nat) (s : State) : (setRunLeft n s).agenda = s.agenda := (rfl)
@[simp] theorem setRunLeft_readData (n : Nat) (s : State) : (setRunLeft n s).readData = s.readData := (rfl)
@[simp] theorem setRunLeft_bufData (n : Nat) (s : State) : (setRunLeft n s).bufData = s.bufData := (rfl)
@[simp] theorem setRunLeft_freeIndex (n : Nat) (s : State) : (setRunLeft n s).freeIndex = s.freeIndex := (rfl)
@[simp] theorem setRunLeft_width (n : Nat) (s : State) : (setRunLeft n s).width = s.width := (rfl)
@[simp] theorem setRunLeft_upcoming (n : Nat) (s : State) : (setRunLeft n s).upcoming = s.upcoming := (rfl)
@[simp] theorem setRunLeft_nextDraw (n : Nat) (s : State) : (setRunLeft n s).nextDraw = s.nextDraw := (rfl)

end setRunLeftUpdate

section setTilePosUpdate

@[simp] theorem setTilePos_state (r c : Nat) (s : State) : (setTilePos r c s).state = s.state := (rfl)
@[simp] theorem setTilePos_errCode (r c : Nat) (s : State) : (setTilePos r c s).errCode = s.errCode := (rfl)
@[simp] theorem setTilePos_errOffset (r c : Nat) (s : State) : (setTilePos r c s).errOffset = s.errOffset := (rfl)
@[simp] theorem setTilePos_cmdIgnored (r c : Nat) (s : State) : (setTilePos r c s).cmdIgnored = s.cmdIgnored := (rfl)
@[simp] theorem setTilePos_win (r c : Nat) (s : State) : (setTilePos r c s).win = s.win := (rfl)
@[simp] theorem setTilePos_inFilled (r c : Nat) (s : State) : (setTilePos r c s).inFilled = s.inFilled := (rfl)
@[simp] theorem setTilePos_inCursor (r c : Nat) (s : State) : (setTilePos r c s).inCursor = s.inCursor := (rfl)
@[simp] theorem setTilePos_eos (r c : Nat) (s : State) : (setTilePos r c s).eos = s.eos := (rfl)
@[simp] theorem setTilePos_inOffset (r c : Nat) (s : State) : (setTilePos r c s).inOffset = s.inOffset := (rfl)
@[simp] theorem setTilePos_refillCount (r c : Nat) (s : State) : (setTilePos r c s).refillCount = s.refillCount := (rfl)
@[simp] theorem setTilePos_scan (r c : Nat) (s : State) : (setTilePos r c s).scan = s.scan := (rfl)
@[simp] theorem setTilePos_slCursor (r c : Nat) (s : State) : (setTilePos r c s).slCursor = s.slCursor := (rfl)
@[simp] theorem setTilePos_runValue (r c : Nat) (s : State) : (setTilePos r c s).runValue = s.runValue := (rfl)
@[simp] theorem setTilePos_runLength (r c : Nat) (s : State) : (setTilePos r c s).runLength = s.runLength := (rfl)
@[simp] theorem setTilePos_tile (r c : Nat) (s : State) : (setTilePos r c s).tile = s.tile := (rfl)
@[simp] theorem setTilePos_widthReg (r c : Nat) (s : State) : (setTilePos r c s).widthReg = s.widthReg := (rfl)
@[simp] theorem setTilePos_latchedW (r c : Nat) (s : State) : (setTilePos r c s).latchedW = s.latchedW := (rfl)
@[simp] theorem setTilePos_curCmd (r c : Nat) (s : State) : (setTilePos r c s).curCmd = s.curCmd := (rfl)
@[simp] theorem setTilePos_row (r c : Nat) (s : State) : (setTilePos r c s).row = r := (rfl)
@[simp] theorem setTilePos_col (r c : Nat) (s : State) : (setTilePos r c s).col = c := (rfl)
@[simp] theorem setTilePos_runLeft (r c : Nat) (s : State) : (setTilePos r c s).runLeft = s.runLeft := (rfl)
@[simp] theorem setTilePos_micro (r c : Nat) (s : State) : (setTilePos r c s).micro = s.micro := (rfl)
@[simp] theorem setTilePos_reqPending (r c : Nat) (s : State) : (setTilePos r c s).reqPending = s.reqPending := (rfl)
@[simp] theorem setTilePos_maxWidth (r c : Nat) (s : State) : (setTilePos r c s).maxWidth = s.maxWidth := (rfl)
@[simp] theorem setTilePos_stream (r c : Nat) (s : State) : (setTilePos r c s).stream = s.stream := (rfl)
@[simp] theorem setTilePos_streamCycle (r c : Nat) (s : State) : (setTilePos r c s).streamCycle = s.streamCycle := (rfl)
@[simp] theorem setTilePos_draws (r c : Nat) (s : State) : (setTilePos r c s).draws = s.draws := (rfl)
@[simp] theorem setTilePos_drawCycle (r c : Nat) (s : State) : (setTilePos r c s).drawCycle = s.drawCycle := (rfl)
@[simp] theorem setTilePos_abandoned (r c : Nat) (s : State) : (setTilePos r c s).abandoned = s.abandoned := (rfl)
@[simp] theorem setTilePos_agenda (r c : Nat) (s : State) : (setTilePos r c s).agenda = s.agenda := (rfl)
@[simp] theorem setTilePos_readData (r c : Nat) (s : State) : (setTilePos r c s).readData = s.readData := (rfl)
@[simp] theorem setTilePos_bufData (r c : Nat) (s : State) : (setTilePos r c s).bufData = s.bufData := (rfl)
@[simp] theorem setTilePos_freeIndex (r c : Nat) (s : State) : (setTilePos r c s).freeIndex = s.freeIndex := (rfl)
@[simp] theorem setTilePos_width (r c : Nat) (s : State) : (setTilePos r c s).width = s.width := (rfl)
@[simp] theorem setTilePos_upcoming (r c : Nat) (s : State) : (setTilePos r c s).upcoming = s.upcoming := (rfl)
@[simp] theorem setTilePos_nextDraw (r c : Nat) (s : State) : (setTilePos r c s).nextDraw = s.nextDraw := (rfl)

end setTilePosUpdate

section storeScanUpdate

@[simp] theorem storeScan_state (i : Nat) (b : Byte) (s : State) : (storeScan i b s).state = s.state := (rfl)
@[simp] theorem storeScan_errCode (i : Nat) (b : Byte) (s : State) : (storeScan i b s).errCode = s.errCode := (rfl)
@[simp] theorem storeScan_errOffset (i : Nat) (b : Byte) (s : State) : (storeScan i b s).errOffset = s.errOffset := (rfl)
@[simp] theorem storeScan_cmdIgnored (i : Nat) (b : Byte) (s : State) : (storeScan i b s).cmdIgnored = s.cmdIgnored := (rfl)
@[simp] theorem storeScan_win (i : Nat) (b : Byte) (s : State) : (storeScan i b s).win = s.win := (rfl)
@[simp] theorem storeScan_inFilled (i : Nat) (b : Byte) (s : State) : (storeScan i b s).inFilled = s.inFilled := (rfl)
@[simp] theorem storeScan_inCursor (i : Nat) (b : Byte) (s : State) : (storeScan i b s).inCursor = s.inCursor := (rfl)
@[simp] theorem storeScan_eos (i : Nat) (b : Byte) (s : State) : (storeScan i b s).eos = s.eos := (rfl)
@[simp] theorem storeScan_inOffset (i : Nat) (b : Byte) (s : State) : (storeScan i b s).inOffset = s.inOffset := (rfl)
@[simp] theorem storeScan_refillCount (i : Nat) (b : Byte) (s : State) : (storeScan i b s).refillCount = s.refillCount := (rfl)
@[simp] theorem storeScan_scan (i : Nat) (b : Byte) (s : State) : (storeScan i b s).scan = s.scan.write i b := (rfl)
@[simp] theorem storeScan_slCursor (i : Nat) (b : Byte) (s : State) : (storeScan i b s).slCursor = s.slCursor := (rfl)
@[simp] theorem storeScan_runValue (i : Nat) (b : Byte) (s : State) : (storeScan i b s).runValue = s.runValue := (rfl)
@[simp] theorem storeScan_runLength (i : Nat) (b : Byte) (s : State) : (storeScan i b s).runLength = s.runLength := (rfl)
@[simp] theorem storeScan_tile (i : Nat) (b : Byte) (s : State) : (storeScan i b s).tile = s.tile := (rfl)
@[simp] theorem storeScan_widthReg (i : Nat) (b : Byte) (s : State) : (storeScan i b s).widthReg = s.widthReg := (rfl)
@[simp] theorem storeScan_latchedW (i : Nat) (b : Byte) (s : State) : (storeScan i b s).latchedW = s.latchedW := (rfl)
@[simp] theorem storeScan_curCmd (i : Nat) (b : Byte) (s : State) : (storeScan i b s).curCmd = s.curCmd := (rfl)
@[simp] theorem storeScan_row (i : Nat) (b : Byte) (s : State) : (storeScan i b s).row = s.row := (rfl)
@[simp] theorem storeScan_col (i : Nat) (b : Byte) (s : State) : (storeScan i b s).col = s.col := (rfl)
@[simp] theorem storeScan_runLeft (i : Nat) (b : Byte) (s : State) : (storeScan i b s).runLeft = s.runLeft := (rfl)
@[simp] theorem storeScan_micro (i : Nat) (b : Byte) (s : State) : (storeScan i b s).micro = s.micro := (rfl)
@[simp] theorem storeScan_reqPending (i : Nat) (b : Byte) (s : State) : (storeScan i b s).reqPending = s.reqPending := (rfl)
@[simp] theorem storeScan_maxWidth (i : Nat) (b : Byte) (s : State) : (storeScan i b s).maxWidth = s.maxWidth := (rfl)
@[simp] theorem storeScan_stream (i : Nat) (b : Byte) (s : State) : (storeScan i b s).stream = s.stream := (rfl)
@[simp] theorem storeScan_streamCycle (i : Nat) (b : Byte) (s : State) : (storeScan i b s).streamCycle = s.streamCycle := (rfl)
@[simp] theorem storeScan_draws (i : Nat) (b : Byte) (s : State) : (storeScan i b s).draws = s.draws := (rfl)
@[simp] theorem storeScan_drawCycle (i : Nat) (b : Byte) (s : State) : (storeScan i b s).drawCycle = s.drawCycle := (rfl)
@[simp] theorem storeScan_abandoned (i : Nat) (b : Byte) (s : State) : (storeScan i b s).abandoned = s.abandoned := (rfl)
@[simp] theorem storeScan_agenda (i : Nat) (b : Byte) (s : State) : (storeScan i b s).agenda = s.agenda := (rfl)
@[simp] theorem storeScan_readData (i : Nat) (b : Byte) (s : State) : (storeScan i b s).readData = s.readData := (rfl)
@[simp] theorem storeScan_bufData (i : Nat) (b : Byte) (s : State) : (storeScan i b s).bufData = s.bufData := (rfl)
@[simp] theorem storeScan_freeIndex (i : Nat) (b : Byte) (s : State) : (storeScan i b s).freeIndex = s.freeIndex := (rfl)
@[simp] theorem storeScan_width (i : Nat) (b : Byte) (s : State) : (storeScan i b s).width = s.width := (rfl)
@[simp] theorem storeScan_upcoming (i : Nat) (b : Byte) (s : State) : (storeScan i b s).upcoming = s.upcoming := (rfl)
@[simp] theorem storeScan_nextDraw (i : Nat) (b : Byte) (s : State) : (storeScan i b s).nextDraw = s.nextDraw := (rfl)

end storeScanUpdate

section storeTileUpdate

@[simp] theorem storeTile_state (i : Nat) (b : Byte) (s : State) : (storeTile i b s).state = s.state := (rfl)
@[simp] theorem storeTile_errCode (i : Nat) (b : Byte) (s : State) : (storeTile i b s).errCode = s.errCode := (rfl)
@[simp] theorem storeTile_errOffset (i : Nat) (b : Byte) (s : State) : (storeTile i b s).errOffset = s.errOffset := (rfl)
@[simp] theorem storeTile_cmdIgnored (i : Nat) (b : Byte) (s : State) : (storeTile i b s).cmdIgnored = s.cmdIgnored := (rfl)
@[simp] theorem storeTile_win (i : Nat) (b : Byte) (s : State) : (storeTile i b s).win = s.win := (rfl)
@[simp] theorem storeTile_inFilled (i : Nat) (b : Byte) (s : State) : (storeTile i b s).inFilled = s.inFilled := (rfl)
@[simp] theorem storeTile_inCursor (i : Nat) (b : Byte) (s : State) : (storeTile i b s).inCursor = s.inCursor := (rfl)
@[simp] theorem storeTile_eos (i : Nat) (b : Byte) (s : State) : (storeTile i b s).eos = s.eos := (rfl)
@[simp] theorem storeTile_inOffset (i : Nat) (b : Byte) (s : State) : (storeTile i b s).inOffset = s.inOffset := (rfl)
@[simp] theorem storeTile_refillCount (i : Nat) (b : Byte) (s : State) : (storeTile i b s).refillCount = s.refillCount := (rfl)
@[simp] theorem storeTile_scan (i : Nat) (b : Byte) (s : State) : (storeTile i b s).scan = s.scan := (rfl)
@[simp] theorem storeTile_slCursor (i : Nat) (b : Byte) (s : State) : (storeTile i b s).slCursor = s.slCursor := (rfl)
@[simp] theorem storeTile_runValue (i : Nat) (b : Byte) (s : State) : (storeTile i b s).runValue = s.runValue := (rfl)
@[simp] theorem storeTile_runLength (i : Nat) (b : Byte) (s : State) : (storeTile i b s).runLength = s.runLength := (rfl)
@[simp] theorem storeTile_tile (i : Nat) (b : Byte) (s : State) : (storeTile i b s).tile = s.tile.write i b := (rfl)
@[simp] theorem storeTile_widthReg (i : Nat) (b : Byte) (s : State) : (storeTile i b s).widthReg = s.widthReg := (rfl)
@[simp] theorem storeTile_latchedW (i : Nat) (b : Byte) (s : State) : (storeTile i b s).latchedW = s.latchedW := (rfl)
@[simp] theorem storeTile_curCmd (i : Nat) (b : Byte) (s : State) : (storeTile i b s).curCmd = s.curCmd := (rfl)
@[simp] theorem storeTile_row (i : Nat) (b : Byte) (s : State) : (storeTile i b s).row = s.row := (rfl)
@[simp] theorem storeTile_col (i : Nat) (b : Byte) (s : State) : (storeTile i b s).col = s.col := (rfl)
@[simp] theorem storeTile_runLeft (i : Nat) (b : Byte) (s : State) : (storeTile i b s).runLeft = s.runLeft := (rfl)
@[simp] theorem storeTile_micro (i : Nat) (b : Byte) (s : State) : (storeTile i b s).micro = s.micro := (rfl)
@[simp] theorem storeTile_reqPending (i : Nat) (b : Byte) (s : State) : (storeTile i b s).reqPending = s.reqPending := (rfl)
@[simp] theorem storeTile_maxWidth (i : Nat) (b : Byte) (s : State) : (storeTile i b s).maxWidth = s.maxWidth := (rfl)
@[simp] theorem storeTile_stream (i : Nat) (b : Byte) (s : State) : (storeTile i b s).stream = s.stream := (rfl)
@[simp] theorem storeTile_streamCycle (i : Nat) (b : Byte) (s : State) : (storeTile i b s).streamCycle = s.streamCycle := (rfl)
@[simp] theorem storeTile_draws (i : Nat) (b : Byte) (s : State) : (storeTile i b s).draws = s.draws := (rfl)
@[simp] theorem storeTile_drawCycle (i : Nat) (b : Byte) (s : State) : (storeTile i b s).drawCycle = s.drawCycle := (rfl)
@[simp] theorem storeTile_abandoned (i : Nat) (b : Byte) (s : State) : (storeTile i b s).abandoned = s.abandoned := (rfl)
@[simp] theorem storeTile_agenda (i : Nat) (b : Byte) (s : State) : (storeTile i b s).agenda = s.agenda := (rfl)
@[simp] theorem storeTile_readData (i : Nat) (b : Byte) (s : State) : (storeTile i b s).readData = s.readData := (rfl)
@[simp] theorem storeTile_bufData (i : Nat) (b : Byte) (s : State) : (storeTile i b s).bufData = s.bufData := (rfl)
@[simp] theorem storeTile_freeIndex (i : Nat) (b : Byte) (s : State) : (storeTile i b s).freeIndex = s.freeIndex := (rfl)
@[simp] theorem storeTile_width (i : Nat) (b : Byte) (s : State) : (storeTile i b s).width = s.width := (rfl)
@[simp] theorem storeTile_upcoming (i : Nat) (b : Byte) (s : State) : (storeTile i b s).upcoming = s.upcoming := (rfl)
@[simp] theorem storeTile_nextDraw (i : Nat) (b : Byte) (s : State) : (storeTile i b s).nextDraw = s.nextDraw := (rfl)

end storeTileUpdate

section setWidthRegUpdate

@[simp] theorem setWidthReg_state (v : Word) (s : State) : (setWidthReg v s).state = s.state := (rfl)
@[simp] theorem setWidthReg_errCode (v : Word) (s : State) : (setWidthReg v s).errCode = s.errCode := (rfl)
@[simp] theorem setWidthReg_errOffset (v : Word) (s : State) : (setWidthReg v s).errOffset = s.errOffset := (rfl)
@[simp] theorem setWidthReg_cmdIgnored (v : Word) (s : State) : (setWidthReg v s).cmdIgnored = s.cmdIgnored := (rfl)
@[simp] theorem setWidthReg_win (v : Word) (s : State) : (setWidthReg v s).win = s.win := (rfl)
@[simp] theorem setWidthReg_inFilled (v : Word) (s : State) : (setWidthReg v s).inFilled = s.inFilled := (rfl)
@[simp] theorem setWidthReg_inCursor (v : Word) (s : State) : (setWidthReg v s).inCursor = s.inCursor := (rfl)
@[simp] theorem setWidthReg_eos (v : Word) (s : State) : (setWidthReg v s).eos = s.eos := (rfl)
@[simp] theorem setWidthReg_inOffset (v : Word) (s : State) : (setWidthReg v s).inOffset = s.inOffset := (rfl)
@[simp] theorem setWidthReg_refillCount (v : Word) (s : State) : (setWidthReg v s).refillCount = s.refillCount := (rfl)
@[simp] theorem setWidthReg_scan (v : Word) (s : State) : (setWidthReg v s).scan = s.scan := (rfl)
@[simp] theorem setWidthReg_slCursor (v : Word) (s : State) : (setWidthReg v s).slCursor = s.slCursor := (rfl)
@[simp] theorem setWidthReg_runValue (v : Word) (s : State) : (setWidthReg v s).runValue = s.runValue := (rfl)
@[simp] theorem setWidthReg_runLength (v : Word) (s : State) : (setWidthReg v s).runLength = s.runLength := (rfl)
@[simp] theorem setWidthReg_tile (v : Word) (s : State) : (setWidthReg v s).tile = s.tile := (rfl)
@[simp] theorem setWidthReg_widthReg (v : Word) (s : State) : (setWidthReg v s).widthReg = v := (rfl)
@[simp] theorem setWidthReg_latchedW (v : Word) (s : State) : (setWidthReg v s).latchedW = s.latchedW := (rfl)
@[simp] theorem setWidthReg_curCmd (v : Word) (s : State) : (setWidthReg v s).curCmd = s.curCmd := (rfl)
@[simp] theorem setWidthReg_row (v : Word) (s : State) : (setWidthReg v s).row = s.row := (rfl)
@[simp] theorem setWidthReg_col (v : Word) (s : State) : (setWidthReg v s).col = s.col := (rfl)
@[simp] theorem setWidthReg_runLeft (v : Word) (s : State) : (setWidthReg v s).runLeft = s.runLeft := (rfl)
@[simp] theorem setWidthReg_micro (v : Word) (s : State) : (setWidthReg v s).micro = s.micro := (rfl)
@[simp] theorem setWidthReg_reqPending (v : Word) (s : State) : (setWidthReg v s).reqPending = s.reqPending := (rfl)
@[simp] theorem setWidthReg_maxWidth (v : Word) (s : State) : (setWidthReg v s).maxWidth = s.maxWidth := (rfl)
@[simp] theorem setWidthReg_stream (v : Word) (s : State) : (setWidthReg v s).stream = s.stream := (rfl)
@[simp] theorem setWidthReg_streamCycle (v : Word) (s : State) : (setWidthReg v s).streamCycle = s.streamCycle := (rfl)
@[simp] theorem setWidthReg_draws (v : Word) (s : State) : (setWidthReg v s).draws = s.draws := (rfl)
@[simp] theorem setWidthReg_drawCycle (v : Word) (s : State) : (setWidthReg v s).drawCycle = s.drawCycle := (rfl)
@[simp] theorem setWidthReg_abandoned (v : Word) (s : State) : (setWidthReg v s).abandoned = s.abandoned := (rfl)
@[simp] theorem setWidthReg_agenda (v : Word) (s : State) : (setWidthReg v s).agenda = s.agenda := (rfl)
@[simp] theorem setWidthReg_readData (v : Word) (s : State) : (setWidthReg v s).readData = s.readData := (rfl)
@[simp] theorem setWidthReg_bufData (v : Word) (s : State) : (setWidthReg v s).bufData = s.bufData := (rfl)
@[simp] theorem setWidthReg_freeIndex (v : Word) (s : State) : (setWidthReg v s).freeIndex = s.freeIndex := (rfl)
@[simp] theorem setWidthReg_width (v : Word) (s : State) : (setWidthReg v s).width = s.width := (rfl)
@[simp] theorem setWidthReg_upcoming (v : Word) (s : State) : (setWidthReg v s).upcoming = s.upcoming := (rfl)
@[simp] theorem setWidthReg_nextDraw (v : Word) (s : State) : (setWidthReg v s).nextDraw = s.nextDraw := (rfl)

end setWidthRegUpdate

section setDrawsUpdate

@[simp] theorem setDraws_state (ds : List Draw) (s : State) : (setDraws ds s).state = s.state := (rfl)
@[simp] theorem setDraws_errCode (ds : List Draw) (s : State) : (setDraws ds s).errCode = s.errCode := (rfl)
@[simp] theorem setDraws_errOffset (ds : List Draw) (s : State) : (setDraws ds s).errOffset = s.errOffset := (rfl)
@[simp] theorem setDraws_cmdIgnored (ds : List Draw) (s : State) : (setDraws ds s).cmdIgnored = s.cmdIgnored := (rfl)
@[simp] theorem setDraws_win (ds : List Draw) (s : State) : (setDraws ds s).win = s.win := (rfl)
@[simp] theorem setDraws_inFilled (ds : List Draw) (s : State) : (setDraws ds s).inFilled = s.inFilled := (rfl)
@[simp] theorem setDraws_inCursor (ds : List Draw) (s : State) : (setDraws ds s).inCursor = s.inCursor := (rfl)
@[simp] theorem setDraws_eos (ds : List Draw) (s : State) : (setDraws ds s).eos = s.eos := (rfl)
@[simp] theorem setDraws_inOffset (ds : List Draw) (s : State) : (setDraws ds s).inOffset = s.inOffset := (rfl)
@[simp] theorem setDraws_refillCount (ds : List Draw) (s : State) : (setDraws ds s).refillCount = s.refillCount := (rfl)
@[simp] theorem setDraws_scan (ds : List Draw) (s : State) : (setDraws ds s).scan = s.scan := (rfl)
@[simp] theorem setDraws_slCursor (ds : List Draw) (s : State) : (setDraws ds s).slCursor = s.slCursor := (rfl)
@[simp] theorem setDraws_runValue (ds : List Draw) (s : State) : (setDraws ds s).runValue = s.runValue := (rfl)
@[simp] theorem setDraws_runLength (ds : List Draw) (s : State) : (setDraws ds s).runLength = s.runLength := (rfl)
@[simp] theorem setDraws_tile (ds : List Draw) (s : State) : (setDraws ds s).tile = s.tile := (rfl)
@[simp] theorem setDraws_widthReg (ds : List Draw) (s : State) : (setDraws ds s).widthReg = s.widthReg := (rfl)
@[simp] theorem setDraws_latchedW (ds : List Draw) (s : State) : (setDraws ds s).latchedW = s.latchedW := (rfl)
@[simp] theorem setDraws_curCmd (ds : List Draw) (s : State) : (setDraws ds s).curCmd = s.curCmd := (rfl)
@[simp] theorem setDraws_row (ds : List Draw) (s : State) : (setDraws ds s).row = s.row := (rfl)
@[simp] theorem setDraws_col (ds : List Draw) (s : State) : (setDraws ds s).col = s.col := (rfl)
@[simp] theorem setDraws_runLeft (ds : List Draw) (s : State) : (setDraws ds s).runLeft = s.runLeft := (rfl)
@[simp] theorem setDraws_micro (ds : List Draw) (s : State) : (setDraws ds s).micro = s.micro := (rfl)
@[simp] theorem setDraws_reqPending (ds : List Draw) (s : State) : (setDraws ds s).reqPending = s.reqPending := (rfl)
@[simp] theorem setDraws_maxWidth (ds : List Draw) (s : State) : (setDraws ds s).maxWidth = s.maxWidth := (rfl)
@[simp] theorem setDraws_stream (ds : List Draw) (s : State) : (setDraws ds s).stream = s.stream := (rfl)
@[simp] theorem setDraws_streamCycle (ds : List Draw) (s : State) : (setDraws ds s).streamCycle = s.streamCycle := (rfl)
@[simp] theorem setDraws_draws (ds : List Draw) (s : State) : (setDraws ds s).draws = ds := (rfl)
@[simp] theorem setDraws_drawCycle (ds : List Draw) (s : State) : (setDraws ds s).drawCycle = s.drawCycle := (rfl)
@[simp] theorem setDraws_abandoned (ds : List Draw) (s : State) : (setDraws ds s).abandoned = s.abandoned := (rfl)
@[simp] theorem setDraws_agenda (ds : List Draw) (s : State) : (setDraws ds s).agenda = s.agenda := (rfl)
@[simp] theorem setDraws_readData (ds : List Draw) (s : State) : (setDraws ds s).readData = s.readData := (rfl)
@[simp] theorem setDraws_bufData (ds : List Draw) (s : State) : (setDraws ds s).bufData = s.bufData := (rfl)
@[simp] theorem setDraws_freeIndex (ds : List Draw) (s : State) : (setDraws ds s).freeIndex = s.freeIndex := (rfl)
@[simp] theorem setDraws_width (ds : List Draw) (s : State) : (setDraws ds s).width = s.width := (rfl)
@[simp] theorem setDraws_upcoming (ds : List Draw) (s : State) : (setDraws ds s).upcoming = s.upcoming := (rfl)

end setDrawsUpdate

section setAgendaUpdate

@[simp] theorem setAgenda_state (acts : List HostAct) (s : State) : (setAgenda acts s).state = s.state := (rfl)
@[simp] theorem setAgenda_errCode (acts : List HostAct) (s : State) : (setAgenda acts s).errCode = s.errCode := (rfl)
@[simp] theorem setAgenda_errOffset (acts : List HostAct) (s : State) : (setAgenda acts s).errOffset = s.errOffset := (rfl)
@[simp] theorem setAgenda_cmdIgnored (acts : List HostAct) (s : State) : (setAgenda acts s).cmdIgnored = s.cmdIgnored := (rfl)
@[simp] theorem setAgenda_win (acts : List HostAct) (s : State) : (setAgenda acts s).win = s.win := (rfl)
@[simp] theorem setAgenda_inFilled (acts : List HostAct) (s : State) : (setAgenda acts s).inFilled = s.inFilled := (rfl)
@[simp] theorem setAgenda_inCursor (acts : List HostAct) (s : State) : (setAgenda acts s).inCursor = s.inCursor := (rfl)
@[simp] theorem setAgenda_eos (acts : List HostAct) (s : State) : (setAgenda acts s).eos = s.eos := (rfl)
@[simp] theorem setAgenda_inOffset (acts : List HostAct) (s : State) : (setAgenda acts s).inOffset = s.inOffset := (rfl)
@[simp] theorem setAgenda_refillCount (acts : List HostAct) (s : State) : (setAgenda acts s).refillCount = s.refillCount := (rfl)
@[simp] theorem setAgenda_scan (acts : List HostAct) (s : State) : (setAgenda acts s).scan = s.scan := (rfl)
@[simp] theorem setAgenda_slCursor (acts : List HostAct) (s : State) : (setAgenda acts s).slCursor = s.slCursor := (rfl)
@[simp] theorem setAgenda_runValue (acts : List HostAct) (s : State) : (setAgenda acts s).runValue = s.runValue := (rfl)
@[simp] theorem setAgenda_runLength (acts : List HostAct) (s : State) : (setAgenda acts s).runLength = s.runLength := (rfl)
@[simp] theorem setAgenda_tile (acts : List HostAct) (s : State) : (setAgenda acts s).tile = s.tile := (rfl)
@[simp] theorem setAgenda_widthReg (acts : List HostAct) (s : State) : (setAgenda acts s).widthReg = s.widthReg := (rfl)
@[simp] theorem setAgenda_latchedW (acts : List HostAct) (s : State) : (setAgenda acts s).latchedW = s.latchedW := (rfl)
@[simp] theorem setAgenda_curCmd (acts : List HostAct) (s : State) : (setAgenda acts s).curCmd = s.curCmd := (rfl)
@[simp] theorem setAgenda_row (acts : List HostAct) (s : State) : (setAgenda acts s).row = s.row := (rfl)
@[simp] theorem setAgenda_col (acts : List HostAct) (s : State) : (setAgenda acts s).col = s.col := (rfl)
@[simp] theorem setAgenda_runLeft (acts : List HostAct) (s : State) : (setAgenda acts s).runLeft = s.runLeft := (rfl)
@[simp] theorem setAgenda_micro (acts : List HostAct) (s : State) : (setAgenda acts s).micro = s.micro := (rfl)
@[simp] theorem setAgenda_reqPending (acts : List HostAct) (s : State) : (setAgenda acts s).reqPending = s.reqPending := (rfl)
@[simp] theorem setAgenda_maxWidth (acts : List HostAct) (s : State) : (setAgenda acts s).maxWidth = s.maxWidth := (rfl)
@[simp] theorem setAgenda_stream (acts : List HostAct) (s : State) : (setAgenda acts s).stream = s.stream := (rfl)
@[simp] theorem setAgenda_streamCycle (acts : List HostAct) (s : State) : (setAgenda acts s).streamCycle = s.streamCycle := (rfl)
@[simp] theorem setAgenda_draws (acts : List HostAct) (s : State) : (setAgenda acts s).draws = s.draws := (rfl)
@[simp] theorem setAgenda_drawCycle (acts : List HostAct) (s : State) : (setAgenda acts s).drawCycle = s.drawCycle := (rfl)
@[simp] theorem setAgenda_abandoned (acts : List HostAct) (s : State) : (setAgenda acts s).abandoned = s.abandoned := (rfl)
@[simp] theorem setAgenda_agenda (acts : List HostAct) (s : State) : (setAgenda acts s).agenda = acts := (rfl)
@[simp] theorem setAgenda_readData (acts : List HostAct) (s : State) : (setAgenda acts s).readData = s.readData := (rfl)
@[simp] theorem setAgenda_bufData (acts : List HostAct) (s : State) : (setAgenda acts s).bufData = s.bufData := (rfl)
@[simp] theorem setAgenda_freeIndex (acts : List HostAct) (s : State) : (setAgenda acts s).freeIndex = s.freeIndex := (rfl)
@[simp] theorem setAgenda_width (acts : List HostAct) (s : State) : (setAgenda acts s).width = s.width := (rfl)
@[simp] theorem setAgenda_upcoming (acts : List HostAct) (s : State) : (setAgenda acts s).upcoming = s.upcoming := (rfl)
@[simp] theorem setAgenda_nextDraw (acts : List HostAct) (s : State) : (setAgenda acts s).nextDraw = s.nextDraw := (rfl)

end setAgendaUpdate

section clearConversionUpdate

@[simp] theorem clearConversion_state (s : State) : (clearConversion s).state = s.state := (rfl)
@[simp] theorem clearConversion_errCode (s : State) : (clearConversion s).errCode = .none := (rfl)
@[simp] theorem clearConversion_errOffset (s : State) : (clearConversion s).errOffset = 0 := (rfl)
@[simp] theorem clearConversion_cmdIgnored (s : State) : (clearConversion s).cmdIgnored = false := (rfl)
@[simp] theorem clearConversion_win (s : State) : (clearConversion s).win = s.win := (rfl)
@[simp] theorem clearConversion_inFilled (s : State) : (clearConversion s).inFilled = 0 := (rfl)
@[simp] theorem clearConversion_inCursor (s : State) : (clearConversion s).inCursor = 0 := (rfl)
@[simp] theorem clearConversion_eos (s : State) : (clearConversion s).eos = false := (rfl)
@[simp] theorem clearConversion_inOffset (s : State) : (clearConversion s).inOffset = 0 := (rfl)
@[simp] theorem clearConversion_refillCount (s : State) : (clearConversion s).refillCount = 0 := (rfl)
@[simp] theorem clearConversion_scan (s : State) : (clearConversion s).scan = s.scan := (rfl)
@[simp] theorem clearConversion_slCursor (s : State) : (clearConversion s).slCursor = 0 := (rfl)
@[simp] theorem clearConversion_runValue (s : State) : (clearConversion s).runValue = 0 := (rfl)
@[simp] theorem clearConversion_runLength (s : State) : (clearConversion s).runLength = 0 := (rfl)
@[simp] theorem clearConversion_tile (s : State) : (clearConversion s).tile = s.tile := (rfl)
@[simp] theorem clearConversion_widthReg (s : State) : (clearConversion s).widthReg = s.widthReg := (rfl)
@[simp] theorem clearConversion_latchedW (s : State) : (clearConversion s).latchedW = s.widthReg := (rfl)
@[simp] theorem clearConversion_curCmd (s : State) : (clearConversion s).curCmd = s.curCmd := (rfl)
@[simp] theorem clearConversion_row (s : State) : (clearConversion s).row = s.row := (rfl)
@[simp] theorem clearConversion_col (s : State) : (clearConversion s).col = s.col := (rfl)
@[simp] theorem clearConversion_runLeft (s : State) : (clearConversion s).runLeft = s.runLeft := (rfl)
@[simp] theorem clearConversion_micro (s : State) : (clearConversion s).micro = s.micro := (rfl)
@[simp] theorem clearConversion_reqPending (s : State) : (clearConversion s).reqPending = s.reqPending := (rfl)
@[simp] theorem clearConversion_maxWidth (s : State) : (clearConversion s).maxWidth = s.maxWidth := (rfl)
@[simp] theorem clearConversion_stream (s : State) : (clearConversion s).stream = s.stream := (rfl)
@[simp] theorem clearConversion_streamCycle (s : State) : (clearConversion s).streamCycle = s.streamCycle := (rfl)
@[simp] theorem clearConversion_draws (s : State) : (clearConversion s).draws = s.draws := (rfl)
@[simp] theorem clearConversion_drawCycle (s : State) : (clearConversion s).drawCycle = s.drawCycle := (rfl)
@[simp] theorem clearConversion_abandoned (s : State) : (clearConversion s).abandoned = s.abandoned := (rfl)
@[simp] theorem clearConversion_agenda (s : State) : (clearConversion s).agenda = s.agenda := (rfl)
@[simp] theorem clearConversion_readData (s : State) : (clearConversion s).readData = s.readData := (rfl)
@[simp] theorem clearConversion_bufData (s : State) : (clearConversion s).bufData = s.bufData := (rfl)
@[simp] theorem clearConversion_freeIndex (s : State) : (clearConversion s).freeIndex = s.freeIndex := (rfl)
@[simp] theorem clearConversion_width (s : State) : (clearConversion s).width = s.widthReg.toNat := (rfl)
@[simp] theorem clearConversion_upcoming (s : State) : (clearConversion s).upcoming = s.upcoming := (rfl)
@[simp] theorem clearConversion_nextDraw (s : State) : (clearConversion s).nextDraw = s.nextDraw := (rfl)

end clearConversionUpdate

section gotWordUpdate

@[simp] theorem gotWord_state (v : Word) (s : State) : (gotWord v s).state = s.state := (rfl)
@[simp] theorem gotWord_errCode (v : Word) (s : State) : (gotWord v s).errCode = s.errCode := (rfl)
@[simp] theorem gotWord_errOffset (v : Word) (s : State) : (gotWord v s).errOffset = s.errOffset := (rfl)
@[simp] theorem gotWord_cmdIgnored (v : Word) (s : State) : (gotWord v s).cmdIgnored = s.cmdIgnored := (rfl)
@[simp] theorem gotWord_win (v : Word) (s : State) : (gotWord v s).win = s.win := (rfl)
@[simp] theorem gotWord_inFilled (v : Word) (s : State) : (gotWord v s).inFilled = s.inFilled := (rfl)
@[simp] theorem gotWord_inCursor (v : Word) (s : State) : (gotWord v s).inCursor = s.inCursor := (rfl)
@[simp] theorem gotWord_eos (v : Word) (s : State) : (gotWord v s).eos = s.eos := (rfl)
@[simp] theorem gotWord_inOffset (v : Word) (s : State) : (gotWord v s).inOffset = s.inOffset := (rfl)
@[simp] theorem gotWord_refillCount (v : Word) (s : State) : (gotWord v s).refillCount = s.refillCount := (rfl)
@[simp] theorem gotWord_scan (v : Word) (s : State) : (gotWord v s).scan = s.scan := (rfl)
@[simp] theorem gotWord_slCursor (v : Word) (s : State) : (gotWord v s).slCursor = s.slCursor := (rfl)
@[simp] theorem gotWord_runValue (v : Word) (s : State) : (gotWord v s).runValue = s.runValue := (rfl)
@[simp] theorem gotWord_runLength (v : Word) (s : State) : (gotWord v s).runLength = s.runLength := (rfl)
@[simp] theorem gotWord_tile (v : Word) (s : State) : (gotWord v s).tile = s.tile := (rfl)
@[simp] theorem gotWord_widthReg (v : Word) (s : State) : (gotWord v s).widthReg = s.widthReg := (rfl)
@[simp] theorem gotWord_latchedW (v : Word) (s : State) : (gotWord v s).latchedW = s.latchedW := (rfl)
@[simp] theorem gotWord_curCmd (v : Word) (s : State) : (gotWord v s).curCmd = s.curCmd := (rfl)
@[simp] theorem gotWord_row (v : Word) (s : State) : (gotWord v s).row = s.row := (rfl)
@[simp] theorem gotWord_col (v : Word) (s : State) : (gotWord v s).col = s.col := (rfl)
@[simp] theorem gotWord_runLeft (v : Word) (s : State) : (gotWord v s).runLeft = s.runLeft := (rfl)
@[simp] theorem gotWord_micro (v : Word) (s : State) : (gotWord v s).micro = s.micro := (rfl)
@[simp] theorem gotWord_reqPending (v : Word) (s : State) : (gotWord v s).reqPending = s.reqPending := (rfl)
@[simp] theorem gotWord_maxWidth (v : Word) (s : State) : (gotWord v s).maxWidth = s.maxWidth := (rfl)
@[simp] theorem gotWord_stream (v : Word) (s : State) : (gotWord v s).stream = s.stream := (rfl)
@[simp] theorem gotWord_streamCycle (v : Word) (s : State) : (gotWord v s).streamCycle = s.streamCycle := (rfl)
@[simp] theorem gotWord_draws (v : Word) (s : State) : (gotWord v s).draws = s.draws := (rfl)
@[simp] theorem gotWord_drawCycle (v : Word) (s : State) : (gotWord v s).drawCycle = s.drawCycle := (rfl)
@[simp] theorem gotWord_abandoned (v : Word) (s : State) : (gotWord v s).abandoned = s.abandoned := (rfl)
@[simp] theorem gotWord_agenda (v : Word) (s : State) : (gotWord v s).agenda = s.agenda := (rfl)
@[simp] theorem gotWord_readData (v : Word) (s : State) : (gotWord v s).readData = v := (rfl)
@[simp] theorem gotWord_bufData (v : Word) (s : State) : (gotWord v s).bufData = s.bufData := (rfl)
@[simp] theorem gotWord_freeIndex (v : Word) (s : State) : (gotWord v s).freeIndex = s.freeIndex := (rfl)
@[simp] theorem gotWord_width (v : Word) (s : State) : (gotWord v s).width = s.width := (rfl)
@[simp] theorem gotWord_upcoming (v : Word) (s : State) : (gotWord v s).upcoming = s.upcoming := (rfl)
@[simp] theorem gotWord_nextDraw (v : Word) (s : State) : (gotWord v s).nextDraw = s.nextDraw := (rfl)

end gotWordUpdate

section drawWordUpdate

@[simp] theorem drawWord_state (s : State) : (drawWord s).state = s.state := (rfl)
@[simp] theorem drawWord_errCode (s : State) : (drawWord s).errCode = s.errCode := (rfl)
@[simp] theorem drawWord_errOffset (s : State) : (drawWord s).errOffset = s.errOffset := (rfl)
@[simp] theorem drawWord_cmdIgnored (s : State) : (drawWord s).cmdIgnored = s.cmdIgnored := (rfl)
@[simp] theorem drawWord_win (s : State) : (drawWord s).win = s.win := (rfl)
@[simp] theorem drawWord_inFilled (s : State) : (drawWord s).inFilled = s.inFilled := (rfl)
@[simp] theorem drawWord_inCursor (s : State) : (drawWord s).inCursor = s.inCursor := (rfl)
@[simp] theorem drawWord_eos (s : State) : (drawWord s).eos = s.eos := (rfl)
@[simp] theorem drawWord_inOffset (s : State) : (drawWord s).inOffset = s.inOffset := (rfl)
@[simp] theorem drawWord_refillCount (s : State) : (drawWord s).refillCount = s.refillCount := (rfl)
@[simp] theorem drawWord_scan (s : State) : (drawWord s).scan = s.scan := (rfl)
@[simp] theorem drawWord_slCursor (s : State) : (drawWord s).slCursor = s.slCursor := (rfl)
@[simp] theorem drawWord_runValue (s : State) : (drawWord s).runValue = s.runValue := (rfl)
@[simp] theorem drawWord_runLength (s : State) : (drawWord s).runLength = s.runLength := (rfl)
@[simp] theorem drawWord_tile (s : State) : (drawWord s).tile = s.tile := (rfl)
@[simp] theorem drawWord_widthReg (s : State) : (drawWord s).widthReg = s.widthReg := (rfl)
@[simp] theorem drawWord_latchedW (s : State) : (drawWord s).latchedW = s.latchedW := (rfl)
@[simp] theorem drawWord_curCmd (s : State) : (drawWord s).curCmd = s.curCmd := (rfl)
@[simp] theorem drawWord_row (s : State) : (drawWord s).row = s.row := (rfl)
@[simp] theorem drawWord_col (s : State) : (drawWord s).col = s.col := (rfl)
@[simp] theorem drawWord_runLeft (s : State) : (drawWord s).runLeft = s.runLeft := (rfl)
@[simp] theorem drawWord_micro (s : State) : (drawWord s).micro = s.micro := (rfl)
@[simp] theorem drawWord_reqPending (s : State) : (drawWord s).reqPending = s.reqPending := (rfl)
@[simp] theorem drawWord_maxWidth (s : State) : (drawWord s).maxWidth = s.maxWidth := (rfl)
@[simp] theorem drawWord_stream (s : State) : (drawWord s).stream = s.stream := (rfl)
@[simp] theorem drawWord_streamCycle (s : State) : (drawWord s).streamCycle = s.streamCycle := (rfl)
@[simp] theorem drawWord_draws (s : State) : (drawWord s).draws = s.draws := (rfl)
@[simp] theorem drawWord_drawCycle (s : State) : (drawWord s).drawCycle = s.drawCycle := (rfl)
@[simp] theorem drawWord_abandoned (s : State) : (drawWord s).abandoned = s.abandoned := (rfl)
@[simp] theorem drawWord_agenda (s : State) : (drawWord s).agenda = s.agenda := (rfl)
@[simp] theorem drawWord_readData (s : State) : (drawWord s).readData = Config.freeWord s.freeIndex := (rfl)
@[simp] theorem drawWord_bufData (s : State) : (drawWord s).bufData = s.bufData := (rfl)
@[simp] theorem drawWord_freeIndex (s : State) : (drawWord s).freeIndex = s.freeIndex + 1 := (rfl)
@[simp] theorem drawWord_width (s : State) : (drawWord s).width = s.width := (rfl)
@[simp] theorem drawWord_upcoming (s : State) : (drawWord s).upcoming = s.upcoming := (rfl)
@[simp] theorem drawWord_nextDraw (s : State) : (drawWord s).nextDraw = s.nextDraw := (rfl)

end drawWordUpdate

section gotByteUpdate

@[simp] theorem gotByte_state (b : Byte) (s : State) : (gotByte b s).state = s.state := (rfl)
@[simp] theorem gotByte_errCode (b : Byte) (s : State) : (gotByte b s).errCode = s.errCode := (rfl)
@[simp] theorem gotByte_errOffset (b : Byte) (s : State) : (gotByte b s).errOffset = s.errOffset := (rfl)
@[simp] theorem gotByte_cmdIgnored (b : Byte) (s : State) : (gotByte b s).cmdIgnored = s.cmdIgnored := (rfl)
@[simp] theorem gotByte_win (b : Byte) (s : State) : (gotByte b s).win = s.win := (rfl)
@[simp] theorem gotByte_inFilled (b : Byte) (s : State) : (gotByte b s).inFilled = s.inFilled := (rfl)
@[simp] theorem gotByte_inCursor (b : Byte) (s : State) : (gotByte b s).inCursor = s.inCursor := (rfl)
@[simp] theorem gotByte_eos (b : Byte) (s : State) : (gotByte b s).eos = s.eos := (rfl)
@[simp] theorem gotByte_inOffset (b : Byte) (s : State) : (gotByte b s).inOffset = s.inOffset := (rfl)
@[simp] theorem gotByte_refillCount (b : Byte) (s : State) : (gotByte b s).refillCount = s.refillCount := (rfl)
@[simp] theorem gotByte_scan (b : Byte) (s : State) : (gotByte b s).scan = s.scan := (rfl)
@[simp] theorem gotByte_slCursor (b : Byte) (s : State) : (gotByte b s).slCursor = s.slCursor := (rfl)
@[simp] theorem gotByte_runValue (b : Byte) (s : State) : (gotByte b s).runValue = s.runValue := (rfl)
@[simp] theorem gotByte_runLength (b : Byte) (s : State) : (gotByte b s).runLength = s.runLength := (rfl)
@[simp] theorem gotByte_tile (b : Byte) (s : State) : (gotByte b s).tile = s.tile := (rfl)
@[simp] theorem gotByte_widthReg (b : Byte) (s : State) : (gotByte b s).widthReg = s.widthReg := (rfl)
@[simp] theorem gotByte_latchedW (b : Byte) (s : State) : (gotByte b s).latchedW = s.latchedW := (rfl)
@[simp] theorem gotByte_curCmd (b : Byte) (s : State) : (gotByte b s).curCmd = s.curCmd := (rfl)
@[simp] theorem gotByte_row (b : Byte) (s : State) : (gotByte b s).row = s.row := (rfl)
@[simp] theorem gotByte_col (b : Byte) (s : State) : (gotByte b s).col = s.col := (rfl)
@[simp] theorem gotByte_runLeft (b : Byte) (s : State) : (gotByte b s).runLeft = s.runLeft := (rfl)
@[simp] theorem gotByte_micro (b : Byte) (s : State) : (gotByte b s).micro = s.micro := (rfl)
@[simp] theorem gotByte_reqPending (b : Byte) (s : State) : (gotByte b s).reqPending = s.reqPending := (rfl)
@[simp] theorem gotByte_maxWidth (b : Byte) (s : State) : (gotByte b s).maxWidth = s.maxWidth := (rfl)
@[simp] theorem gotByte_stream (b : Byte) (s : State) : (gotByte b s).stream = s.stream := (rfl)
@[simp] theorem gotByte_streamCycle (b : Byte) (s : State) : (gotByte b s).streamCycle = s.streamCycle := (rfl)
@[simp] theorem gotByte_draws (b : Byte) (s : State) : (gotByte b s).draws = s.draws := (rfl)
@[simp] theorem gotByte_drawCycle (b : Byte) (s : State) : (gotByte b s).drawCycle = s.drawCycle := (rfl)
@[simp] theorem gotByte_abandoned (b : Byte) (s : State) : (gotByte b s).abandoned = s.abandoned := (rfl)
@[simp] theorem gotByte_agenda (b : Byte) (s : State) : (gotByte b s).agenda = s.agenda := (rfl)
@[simp] theorem gotByte_readData (b : Byte) (s : State) : (gotByte b s).readData = s.readData := (rfl)
@[simp] theorem gotByte_bufData (b : Byte) (s : State) : (gotByte b s).bufData = b := (rfl)
@[simp] theorem gotByte_freeIndex (b : Byte) (s : State) : (gotByte b s).freeIndex = s.freeIndex := (rfl)
@[simp] theorem gotByte_width (b : Byte) (s : State) : (gotByte b s).width = s.width := (rfl)
@[simp] theorem gotByte_upcoming (b : Byte) (s : State) : (gotByte b s).upcoming = s.upcoming := (rfl)
@[simp] theorem gotByte_nextDraw (b : Byte) (s : State) : (gotByte b s).nextDraw = s.nextDraw := (rfl)

end gotByteUpdate

section drawByteUpdate

@[simp] theorem drawByte_state (s : State) : (drawByte s).state = s.state := (rfl)
@[simp] theorem drawByte_errCode (s : State) : (drawByte s).errCode = s.errCode := (rfl)
@[simp] theorem drawByte_errOffset (s : State) : (drawByte s).errOffset = s.errOffset := (rfl)
@[simp] theorem drawByte_cmdIgnored (s : State) : (drawByte s).cmdIgnored = s.cmdIgnored := (rfl)
@[simp] theorem drawByte_win (s : State) : (drawByte s).win = s.win := (rfl)
@[simp] theorem drawByte_inFilled (s : State) : (drawByte s).inFilled = s.inFilled := (rfl)
@[simp] theorem drawByte_inCursor (s : State) : (drawByte s).inCursor = s.inCursor := (rfl)
@[simp] theorem drawByte_eos (s : State) : (drawByte s).eos = s.eos := (rfl)
@[simp] theorem drawByte_inOffset (s : State) : (drawByte s).inOffset = s.inOffset := (rfl)
@[simp] theorem drawByte_refillCount (s : State) : (drawByte s).refillCount = s.refillCount := (rfl)
@[simp] theorem drawByte_scan (s : State) : (drawByte s).scan = s.scan := (rfl)
@[simp] theorem drawByte_slCursor (s : State) : (drawByte s).slCursor = s.slCursor := (rfl)
@[simp] theorem drawByte_runValue (s : State) : (drawByte s).runValue = s.runValue := (rfl)
@[simp] theorem drawByte_runLength (s : State) : (drawByte s).runLength = s.runLength := (rfl)
@[simp] theorem drawByte_tile (s : State) : (drawByte s).tile = s.tile := (rfl)
@[simp] theorem drawByte_widthReg (s : State) : (drawByte s).widthReg = s.widthReg := (rfl)
@[simp] theorem drawByte_latchedW (s : State) : (drawByte s).latchedW = s.latchedW := (rfl)
@[simp] theorem drawByte_curCmd (s : State) : (drawByte s).curCmd = s.curCmd := (rfl)
@[simp] theorem drawByte_row (s : State) : (drawByte s).row = s.row := (rfl)
@[simp] theorem drawByte_col (s : State) : (drawByte s).col = s.col := (rfl)
@[simp] theorem drawByte_runLeft (s : State) : (drawByte s).runLeft = s.runLeft := (rfl)
@[simp] theorem drawByte_micro (s : State) : (drawByte s).micro = s.micro := (rfl)
@[simp] theorem drawByte_reqPending (s : State) : (drawByte s).reqPending = s.reqPending := (rfl)
@[simp] theorem drawByte_maxWidth (s : State) : (drawByte s).maxWidth = s.maxWidth := (rfl)
@[simp] theorem drawByte_stream (s : State) : (drawByte s).stream = s.stream := (rfl)
@[simp] theorem drawByte_streamCycle (s : State) : (drawByte s).streamCycle = s.streamCycle := (rfl)
@[simp] theorem drawByte_draws (s : State) : (drawByte s).draws = s.draws := (rfl)
@[simp] theorem drawByte_drawCycle (s : State) : (drawByte s).drawCycle = s.drawCycle := (rfl)
@[simp] theorem drawByte_abandoned (s : State) : (drawByte s).abandoned = s.abandoned := (rfl)
@[simp] theorem drawByte_agenda (s : State) : (drawByte s).agenda = s.agenda := (rfl)
@[simp] theorem drawByte_readData (s : State) : (drawByte s).readData = s.readData := (rfl)
@[simp] theorem drawByte_bufData (s : State) : (drawByte s).bufData = Config.freeByte s.freeIndex := (rfl)
@[simp] theorem drawByte_freeIndex (s : State) : (drawByte s).freeIndex = s.freeIndex + 1 := (rfl)
@[simp] theorem drawByte_width (s : State) : (drawByte s).width = s.width := (rfl)
@[simp] theorem drawByte_upcoming (s : State) : (drawByte s).upcoming = s.upcoming := (rfl)
@[simp] theorem drawByte_nextDraw (s : State) : (drawByte s).nextDraw = s.nextDraw := (rfl)

end drawByteUpdate

section raiseUpdate

@[simp] theorem raise_state (e : ErrCode) (off : Word) (s : State) : (raise e off s).state = .error := (rfl)
@[simp] theorem raise_errCode (e : ErrCode) (off : Word) (s : State) : (raise e off s).errCode = e := (rfl)
@[simp] theorem raise_errOffset (e : ErrCode) (off : Word) (s : State) : (raise e off s).errOffset = off := (rfl)
@[simp] theorem raise_cmdIgnored (e : ErrCode) (off : Word) (s : State) : (raise e off s).cmdIgnored = s.cmdIgnored := (rfl)
@[simp] theorem raise_win (e : ErrCode) (off : Word) (s : State) : (raise e off s).win = s.win := (rfl)
@[simp] theorem raise_inFilled (e : ErrCode) (off : Word) (s : State) : (raise e off s).inFilled = s.inFilled := (rfl)
@[simp] theorem raise_inCursor (e : ErrCode) (off : Word) (s : State) : (raise e off s).inCursor = s.inCursor := (rfl)
@[simp] theorem raise_eos (e : ErrCode) (off : Word) (s : State) : (raise e off s).eos = s.eos := (rfl)
@[simp] theorem raise_inOffset (e : ErrCode) (off : Word) (s : State) : (raise e off s).inOffset = s.inOffset := (rfl)
@[simp] theorem raise_refillCount (e : ErrCode) (off : Word) (s : State) : (raise e off s).refillCount = s.refillCount := (rfl)
@[simp] theorem raise_scan (e : ErrCode) (off : Word) (s : State) : (raise e off s).scan = s.scan := (rfl)
@[simp] theorem raise_slCursor (e : ErrCode) (off : Word) (s : State) : (raise e off s).slCursor = s.slCursor := (rfl)
@[simp] theorem raise_runValue (e : ErrCode) (off : Word) (s : State) : (raise e off s).runValue = s.runValue := (rfl)
@[simp] theorem raise_runLength (e : ErrCode) (off : Word) (s : State) : (raise e off s).runLength = s.runLength := (rfl)
@[simp] theorem raise_tile (e : ErrCode) (off : Word) (s : State) : (raise e off s).tile = s.tile := (rfl)
@[simp] theorem raise_widthReg (e : ErrCode) (off : Word) (s : State) : (raise e off s).widthReg = s.widthReg := (rfl)
@[simp] theorem raise_latchedW (e : ErrCode) (off : Word) (s : State) : (raise e off s).latchedW = s.latchedW := (rfl)
@[simp] theorem raise_curCmd (e : ErrCode) (off : Word) (s : State) : (raise e off s).curCmd = none := (rfl)
@[simp] theorem raise_row (e : ErrCode) (off : Word) (s : State) : (raise e off s).row = s.row := (rfl)
@[simp] theorem raise_col (e : ErrCode) (off : Word) (s : State) : (raise e off s).col = s.col := (rfl)
@[simp] theorem raise_runLeft (e : ErrCode) (off : Word) (s : State) : (raise e off s).runLeft = s.runLeft := (rfl)
@[simp] theorem raise_micro (e : ErrCode) (off : Word) (s : State) : (raise e off s).micro = .quiet := (rfl)
@[simp] theorem raise_reqPending (e : ErrCode) (off : Word) (s : State) : (raise e off s).reqPending = s.reqPending := (rfl)
@[simp] theorem raise_maxWidth (e : ErrCode) (off : Word) (s : State) : (raise e off s).maxWidth = s.maxWidth := (rfl)
@[simp] theorem raise_stream (e : ErrCode) (off : Word) (s : State) : (raise e off s).stream = s.stream := (rfl)
@[simp] theorem raise_streamCycle (e : ErrCode) (off : Word) (s : State) : (raise e off s).streamCycle = s.streamCycle := (rfl)
@[simp] theorem raise_draws (e : ErrCode) (off : Word) (s : State) : (raise e off s).draws = s.draws := (rfl)
@[simp] theorem raise_drawCycle (e : ErrCode) (off : Word) (s : State) : (raise e off s).drawCycle = s.drawCycle := (rfl)
@[simp] theorem raise_abandoned (e : ErrCode) (off : Word) (s : State) : (raise e off s).abandoned = s.abandoned := (rfl)
@[simp] theorem raise_agenda (e : ErrCode) (off : Word) (s : State) : (raise e off s).agenda = s.agenda := (rfl)
@[simp] theorem raise_readData (e : ErrCode) (off : Word) (s : State) : (raise e off s).readData = s.readData := (rfl)
@[simp] theorem raise_bufData (e : ErrCode) (off : Word) (s : State) : (raise e off s).bufData = s.bufData := (rfl)
@[simp] theorem raise_freeIndex (e : ErrCode) (off : Word) (s : State) : (raise e off s).freeIndex = s.freeIndex := (rfl)
@[simp] theorem raise_width (e : ErrCode) (off : Word) (s : State) : (raise e off s).width = s.width := (rfl)
@[simp] theorem raise_upcoming (e : ErrCode) (off : Word) (s : State) : (raise e off s).upcoming = s.upcoming := (rfl)
@[simp] theorem raise_nextDraw (e : ErrCode) (off : Word) (s : State) : (raise e off s).nextDraw = s.nextDraw := (rfl)

end raiseUpdate

section completeUpdate

@[simp] theorem complete_state (s : State) : (complete s).state = .ready := (rfl)
@[simp] theorem complete_errCode (s : State) : (complete s).errCode = s.errCode := (rfl)
@[simp] theorem complete_errOffset (s : State) : (complete s).errOffset = s.errOffset := (rfl)
@[simp] theorem complete_cmdIgnored (s : State) : (complete s).cmdIgnored = s.cmdIgnored := (rfl)
@[simp] theorem complete_win (s : State) : (complete s).win = s.win := (rfl)
@[simp] theorem complete_inFilled (s : State) : (complete s).inFilled = s.inFilled := (rfl)
@[simp] theorem complete_inCursor (s : State) : (complete s).inCursor = s.inCursor := (rfl)
@[simp] theorem complete_eos (s : State) : (complete s).eos = s.eos := (rfl)
@[simp] theorem complete_inOffset (s : State) : (complete s).inOffset = s.inOffset := (rfl)
@[simp] theorem complete_refillCount (s : State) : (complete s).refillCount = s.refillCount := (rfl)
@[simp] theorem complete_scan (s : State) : (complete s).scan = s.scan := (rfl)
@[simp] theorem complete_slCursor (s : State) : (complete s).slCursor = s.slCursor := (rfl)
@[simp] theorem complete_runValue (s : State) : (complete s).runValue = s.runValue := (rfl)
@[simp] theorem complete_runLength (s : State) : (complete s).runLength = s.runLength := (rfl)
@[simp] theorem complete_tile (s : State) : (complete s).tile = s.tile := (rfl)
@[simp] theorem complete_widthReg (s : State) : (complete s).widthReg = s.widthReg := (rfl)
@[simp] theorem complete_latchedW (s : State) : (complete s).latchedW = s.latchedW := (rfl)
@[simp] theorem complete_curCmd (s : State) : (complete s).curCmd = none := (rfl)
@[simp] theorem complete_row (s : State) : (complete s).row = s.row := (rfl)
@[simp] theorem complete_col (s : State) : (complete s).col = s.col := (rfl)
@[simp] theorem complete_runLeft (s : State) : (complete s).runLeft = s.runLeft := (rfl)
@[simp] theorem complete_micro (s : State) : (complete s).micro = .quiet := (rfl)
@[simp] theorem complete_reqPending (s : State) : (complete s).reqPending = s.reqPending := (rfl)
@[simp] theorem complete_maxWidth (s : State) : (complete s).maxWidth = s.maxWidth := (rfl)
@[simp] theorem complete_stream (s : State) : (complete s).stream = s.stream := (rfl)
@[simp] theorem complete_streamCycle (s : State) : (complete s).streamCycle = s.streamCycle := (rfl)
@[simp] theorem complete_draws (s : State) : (complete s).draws = s.draws := (rfl)
@[simp] theorem complete_drawCycle (s : State) : (complete s).drawCycle = s.drawCycle := (rfl)
@[simp] theorem complete_abandoned (s : State) : (complete s).abandoned = s.abandoned := (rfl)
@[simp] theorem complete_agenda (s : State) : (complete s).agenda = s.agenda := (rfl)
@[simp] theorem complete_readData (s : State) : (complete s).readData = s.readData := (rfl)
@[simp] theorem complete_bufData (s : State) : (complete s).bufData = s.bufData := (rfl)
@[simp] theorem complete_freeIndex (s : State) : (complete s).freeIndex = s.freeIndex := (rfl)
@[simp] theorem complete_width (s : State) : (complete s).width = s.width := (rfl)
@[simp] theorem complete_upcoming (s : State) : (complete s).upcoming = s.upcoming := (rfl)
@[simp] theorem complete_nextDraw (s : State) : (complete s).nextDraw = s.nextDraw := (rfl)

end completeUpdate

section acceptUpdate

@[simp] theorem accept_state (c : Command) (s : State) : (accept c s).state = .busy := (rfl)
@[simp] theorem accept_errCode (c : Command) (s : State) : (accept c s).errCode = s.errCode := (rfl)
@[simp] theorem accept_errOffset (c : Command) (s : State) : (accept c s).errOffset = s.errOffset := (rfl)
@[simp] theorem accept_cmdIgnored (c : Command) (s : State) : (accept c s).cmdIgnored = s.cmdIgnored := (rfl)
@[simp] theorem accept_win (c : Command) (s : State) : (accept c s).win = s.win := (rfl)
@[simp] theorem accept_inFilled (c : Command) (s : State) : (accept c s).inFilled = s.inFilled := (rfl)
@[simp] theorem accept_inCursor (c : Command) (s : State) : (accept c s).inCursor = s.inCursor := (rfl)
@[simp] theorem accept_eos (c : Command) (s : State) : (accept c s).eos = s.eos := (rfl)
@[simp] theorem accept_inOffset (c : Command) (s : State) : (accept c s).inOffset = s.inOffset := (rfl)
@[simp] theorem accept_refillCount (c : Command) (s : State) : (accept c s).refillCount = s.refillCount := (rfl)
@[simp] theorem accept_scan (c : Command) (s : State) : (accept c s).scan = s.scan := (rfl)
@[simp] theorem accept_slCursor (c : Command) (s : State) : (accept c s).slCursor = s.slCursor := (rfl)
@[simp] theorem accept_runValue (c : Command) (s : State) : (accept c s).runValue = s.runValue := (rfl)
@[simp] theorem accept_runLength (c : Command) (s : State) : (accept c s).runLength = s.runLength := (rfl)
@[simp] theorem accept_tile (c : Command) (s : State) : (accept c s).tile = s.tile := (rfl)
@[simp] theorem accept_widthReg (c : Command) (s : State) : (accept c s).widthReg = s.widthReg := (rfl)
@[simp] theorem accept_latchedW (c : Command) (s : State) : (accept c s).latchedW = s.latchedW := (rfl)
@[simp] theorem accept_curCmd (c : Command) (s : State) : (accept c s).curCmd = some c := (rfl)
@[simp] theorem accept_row (c : Command) (s : State) : (accept c s).row = s.row := (rfl)
@[simp] theorem accept_col (c : Command) (s : State) : (accept c s).col = s.col := (rfl)
@[simp] theorem accept_runLeft (c : Command) (s : State) : (accept c s).runLeft = s.runLeft := (rfl)
@[simp] theorem accept_micro (c : Command) (s : State) : (accept c s).micro = s.micro := (rfl)
@[simp] theorem accept_reqPending (c : Command) (s : State) : (accept c s).reqPending = s.reqPending := (rfl)
@[simp] theorem accept_maxWidth (c : Command) (s : State) : (accept c s).maxWidth = s.maxWidth := (rfl)
@[simp] theorem accept_stream (c : Command) (s : State) : (accept c s).stream = s.stream := (rfl)
@[simp] theorem accept_streamCycle (c : Command) (s : State) : (accept c s).streamCycle = s.streamCycle := (rfl)
@[simp] theorem accept_draws (c : Command) (s : State) : (accept c s).draws = s.draws := (rfl)
@[simp] theorem accept_drawCycle (c : Command) (s : State) : (accept c s).drawCycle = s.drawCycle := (rfl)
@[simp] theorem accept_abandoned (c : Command) (s : State) : (accept c s).abandoned = s.abandoned := (rfl)
@[simp] theorem accept_agenda (c : Command) (s : State) : (accept c s).agenda = s.agenda := (rfl)
@[simp] theorem accept_readData (c : Command) (s : State) : (accept c s).readData = s.readData := (rfl)
@[simp] theorem accept_bufData (c : Command) (s : State) : (accept c s).bufData = s.bufData := (rfl)
@[simp] theorem accept_freeIndex (c : Command) (s : State) : (accept c s).freeIndex = s.freeIndex := (rfl)
@[simp] theorem accept_width (c : Command) (s : State) : (accept c s).width = s.width := (rfl)
@[simp] theorem accept_upcoming (c : Command) (s : State) : (accept c s).upcoming = s.upcoming := (rfl)
@[simp] theorem accept_nextDraw (c : Command) (s : State) : (accept c s).nextDraw = s.nextDraw := (rfl)

end acceptUpdate

section ignoreWriteUpdate

@[simp] theorem ignoreWrite_state (s : State) : (ignoreWrite s).state = s.state := (rfl)
@[simp] theorem ignoreWrite_errCode (s : State) : (ignoreWrite s).errCode = s.errCode := (rfl)
@[simp] theorem ignoreWrite_errOffset (s : State) : (ignoreWrite s).errOffset = s.errOffset := (rfl)
@[simp] theorem ignoreWrite_cmdIgnored (s : State) : (ignoreWrite s).cmdIgnored = true := (rfl)
@[simp] theorem ignoreWrite_win (s : State) : (ignoreWrite s).win = s.win := (rfl)
@[simp] theorem ignoreWrite_inFilled (s : State) : (ignoreWrite s).inFilled = s.inFilled := (rfl)
@[simp] theorem ignoreWrite_inCursor (s : State) : (ignoreWrite s).inCursor = s.inCursor := (rfl)
@[simp] theorem ignoreWrite_eos (s : State) : (ignoreWrite s).eos = s.eos := (rfl)
@[simp] theorem ignoreWrite_inOffset (s : State) : (ignoreWrite s).inOffset = s.inOffset := (rfl)
@[simp] theorem ignoreWrite_refillCount (s : State) : (ignoreWrite s).refillCount = s.refillCount := (rfl)
@[simp] theorem ignoreWrite_scan (s : State) : (ignoreWrite s).scan = s.scan := (rfl)
@[simp] theorem ignoreWrite_slCursor (s : State) : (ignoreWrite s).slCursor = s.slCursor := (rfl)
@[simp] theorem ignoreWrite_runValue (s : State) : (ignoreWrite s).runValue = s.runValue := (rfl)
@[simp] theorem ignoreWrite_runLength (s : State) : (ignoreWrite s).runLength = s.runLength := (rfl)
@[simp] theorem ignoreWrite_tile (s : State) : (ignoreWrite s).tile = s.tile := (rfl)
@[simp] theorem ignoreWrite_widthReg (s : State) : (ignoreWrite s).widthReg = s.widthReg := (rfl)
@[simp] theorem ignoreWrite_latchedW (s : State) : (ignoreWrite s).latchedW = s.latchedW := (rfl)
@[simp] theorem ignoreWrite_curCmd (s : State) : (ignoreWrite s).curCmd = s.curCmd := (rfl)
@[simp] theorem ignoreWrite_row (s : State) : (ignoreWrite s).row = s.row := (rfl)
@[simp] theorem ignoreWrite_col (s : State) : (ignoreWrite s).col = s.col := (rfl)
@[simp] theorem ignoreWrite_runLeft (s : State) : (ignoreWrite s).runLeft = s.runLeft := (rfl)
@[simp] theorem ignoreWrite_micro (s : State) : (ignoreWrite s).micro = s.micro := (rfl)
@[simp] theorem ignoreWrite_reqPending (s : State) : (ignoreWrite s).reqPending = s.reqPending := (rfl)
@[simp] theorem ignoreWrite_maxWidth (s : State) : (ignoreWrite s).maxWidth = s.maxWidth := (rfl)
@[simp] theorem ignoreWrite_stream (s : State) : (ignoreWrite s).stream = s.stream := (rfl)
@[simp] theorem ignoreWrite_streamCycle (s : State) : (ignoreWrite s).streamCycle = s.streamCycle := (rfl)
@[simp] theorem ignoreWrite_draws (s : State) : (ignoreWrite s).draws = s.draws := (rfl)
@[simp] theorem ignoreWrite_drawCycle (s : State) : (ignoreWrite s).drawCycle = s.drawCycle := (rfl)
@[simp] theorem ignoreWrite_abandoned (s : State) : (ignoreWrite s).abandoned = s.abandoned := (rfl)
@[simp] theorem ignoreWrite_agenda (s : State) : (ignoreWrite s).agenda = s.agenda := (rfl)
@[simp] theorem ignoreWrite_readData (s : State) : (ignoreWrite s).readData = s.readData := (rfl)
@[simp] theorem ignoreWrite_bufData (s : State) : (ignoreWrite s).bufData = s.bufData := (rfl)
@[simp] theorem ignoreWrite_freeIndex (s : State) : (ignoreWrite s).freeIndex = s.freeIndex := (rfl)
@[simp] theorem ignoreWrite_width (s : State) : (ignoreWrite s).width = s.width := (rfl)
@[simp] theorem ignoreWrite_upcoming (s : State) : (ignoreWrite s).upcoming = s.upcoming := (rfl)
@[simp] theorem ignoreWrite_nextDraw (s : State) : (ignoreWrite s).nextDraw = s.nextDraw := (rfl)

end ignoreWriteUpdate

section consumeUpdate

@[simp] theorem consume_state (s : State) : (consume s).state = s.state := (rfl)
@[simp] theorem consume_errCode (s : State) : (consume s).errCode = s.errCode := (rfl)
@[simp] theorem consume_errOffset (s : State) : (consume s).errOffset = s.errOffset := (rfl)
@[simp] theorem consume_cmdIgnored (s : State) : (consume s).cmdIgnored = s.cmdIgnored := (rfl)
@[simp] theorem consume_win (s : State) : (consume s).win = s.win := (rfl)
@[simp] theorem consume_inFilled (s : State) : (consume s).inFilled = s.inFilled := (rfl)
@[simp] theorem consume_inCursor (s : State) : (consume s).inCursor = s.inCursor + 1 := (rfl)
@[simp] theorem consume_eos (s : State) : (consume s).eos = s.eos := (rfl)
@[simp] theorem consume_inOffset (s : State) : (consume s).inOffset = s.inOffset + 1 := (rfl)
@[simp] theorem consume_refillCount (s : State) : (consume s).refillCount = s.refillCount := (rfl)
@[simp] theorem consume_scan (s : State) : (consume s).scan = s.scan := (rfl)
@[simp] theorem consume_slCursor (s : State) : (consume s).slCursor = s.slCursor := (rfl)
@[simp] theorem consume_runValue (s : State) : (consume s).runValue = s.runValue := (rfl)
@[simp] theorem consume_runLength (s : State) : (consume s).runLength = s.runLength := (rfl)
@[simp] theorem consume_tile (s : State) : (consume s).tile = s.tile := (rfl)
@[simp] theorem consume_widthReg (s : State) : (consume s).widthReg = s.widthReg := (rfl)
@[simp] theorem consume_latchedW (s : State) : (consume s).latchedW = s.latchedW := (rfl)
@[simp] theorem consume_curCmd (s : State) : (consume s).curCmd = s.curCmd := (rfl)
@[simp] theorem consume_row (s : State) : (consume s).row = s.row := (rfl)
@[simp] theorem consume_col (s : State) : (consume s).col = s.col := (rfl)
@[simp] theorem consume_runLeft (s : State) : (consume s).runLeft = s.runLeft := (rfl)
@[simp] theorem consume_micro (s : State) : (consume s).micro = s.micro := (rfl)
@[simp] theorem consume_reqPending (s : State) : (consume s).reqPending = s.reqPending := (rfl)
@[simp] theorem consume_maxWidth (s : State) : (consume s).maxWidth = s.maxWidth := (rfl)
@[simp] theorem consume_stream (s : State) : (consume s).stream = s.stream := (rfl)
@[simp] theorem consume_streamCycle (s : State) : (consume s).streamCycle = s.streamCycle := (rfl)
@[simp] theorem consume_draws (s : State) : (consume s).draws = s.draws := (rfl)
@[simp] theorem consume_drawCycle (s : State) : (consume s).drawCycle = s.drawCycle := (rfl)
@[simp] theorem consume_abandoned (s : State) : (consume s).abandoned = s.abandoned := (rfl)
@[simp] theorem consume_agenda (s : State) : (consume s).agenda = s.agenda := (rfl)
@[simp] theorem consume_readData (s : State) : (consume s).readData = s.readData := (rfl)
@[simp] theorem consume_bufData (s : State) : (consume s).bufData = s.bufData := (rfl)
@[simp] theorem consume_freeIndex (s : State) : (consume s).freeIndex = s.freeIndex := (rfl)
@[simp] theorem consume_width (s : State) : (consume s).width = s.width := (rfl)
@[simp] theorem consume_upcoming (s : State) : (consume s).upcoming = s.upcoming := (rfl)
@[simp] theorem consume_nextDraw (s : State) : (consume s).nextDraw = s.nextDraw := (rfl)

end consumeUpdate

section issueReadUpdate

@[simp] theorem issueRead_state (s : State) : (issueRead s).state = s.state := (rfl)
@[simp] theorem issueRead_errCode (s : State) : (issueRead s).errCode = s.errCode := (rfl)
@[simp] theorem issueRead_errOffset (s : State) : (issueRead s).errOffset = s.errOffset := (rfl)
@[simp] theorem issueRead_cmdIgnored (s : State) : (issueRead s).cmdIgnored = s.cmdIgnored := (rfl)
@[simp] theorem issueRead_win (s : State) : (issueRead s).win = s.win := (rfl)
@[simp] theorem issueRead_inFilled (s : State) : (issueRead s).inFilled = s.inFilled := (rfl)
@[simp] theorem issueRead_inCursor (s : State) : (issueRead s).inCursor = s.inCursor := (rfl)
@[simp] theorem issueRead_eos (s : State) : (issueRead s).eos = s.eos := (rfl)
@[simp] theorem issueRead_inOffset (s : State) : (issueRead s).inOffset = s.inOffset := (rfl)
@[simp] theorem issueRead_refillCount (s : State) : (issueRead s).refillCount = s.refillCount + 1 := (rfl)
@[simp] theorem issueRead_scan (s : State) : (issueRead s).scan = s.scan := (rfl)
@[simp] theorem issueRead_slCursor (s : State) : (issueRead s).slCursor = s.slCursor := (rfl)
@[simp] theorem issueRead_runValue (s : State) : (issueRead s).runValue = s.runValue := (rfl)
@[simp] theorem issueRead_runLength (s : State) : (issueRead s).runLength = s.runLength := (rfl)
@[simp] theorem issueRead_tile (s : State) : (issueRead s).tile = s.tile := (rfl)
@[simp] theorem issueRead_widthReg (s : State) : (issueRead s).widthReg = s.widthReg := (rfl)
@[simp] theorem issueRead_latchedW (s : State) : (issueRead s).latchedW = s.latchedW := (rfl)
@[simp] theorem issueRead_curCmd (s : State) : (issueRead s).curCmd = s.curCmd := (rfl)
@[simp] theorem issueRead_row (s : State) : (issueRead s).row = s.row := (rfl)
@[simp] theorem issueRead_col (s : State) : (issueRead s).col = s.col := (rfl)
@[simp] theorem issueRead_runLeft (s : State) : (issueRead s).runLeft = s.runLeft := (rfl)
@[simp] theorem issueRead_micro (s : State) : (issueRead s).micro = s.micro := (rfl)
@[simp] theorem issueRead_reqPending (s : State) : (issueRead s).reqPending = true := (rfl)
@[simp] theorem issueRead_maxWidth (s : State) : (issueRead s).maxWidth = s.maxWidth := (rfl)
@[simp] theorem issueRead_stream (s : State) : (issueRead s).stream = s.stream := (rfl)
@[simp] theorem issueRead_streamCycle (s : State) : (issueRead s).streamCycle = s.streamCycle := (rfl)
@[simp] theorem issueRead_draws (s : State) : (issueRead s).draws = s.draws := (rfl)
@[simp] theorem issueRead_drawCycle (s : State) : (issueRead s).drawCycle = s.drawCycle := (rfl)
@[simp] theorem issueRead_abandoned (s : State) : (issueRead s).abandoned = s.abandoned := (rfl)
@[simp] theorem issueRead_agenda (s : State) : (issueRead s).agenda = s.agenda := (rfl)
@[simp] theorem issueRead_readData (s : State) : (issueRead s).readData = s.readData := (rfl)
@[simp] theorem issueRead_bufData (s : State) : (issueRead s).bufData = s.bufData := (rfl)
@[simp] theorem issueRead_freeIndex (s : State) : (issueRead s).freeIndex = s.freeIndex := (rfl)
@[simp] theorem issueRead_width (s : State) : (issueRead s).width = s.width := (rfl)
@[simp] theorem issueRead_upcoming (s : State) : (issueRead s).upcoming = s.upcoming := (rfl)
@[simp] theorem issueRead_nextDraw (s : State) : (issueRead s).nextDraw = s.nextDraw := (rfl)

end issueReadUpdate

section takeBytesUpdate

@[simp] theorem takeBytes_state (x : Byte) (s : State) : (takeBytes x s).state = s.state := (rfl)
@[simp] theorem takeBytes_errCode (x : Byte) (s : State) : (takeBytes x s).errCode = s.errCode := (rfl)
@[simp] theorem takeBytes_errOffset (x : Byte) (s : State) : (takeBytes x s).errOffset = s.errOffset := (rfl)
@[simp] theorem takeBytes_cmdIgnored (x : Byte) (s : State) : (takeBytes x s).cmdIgnored = s.cmdIgnored := (rfl)
@[simp] theorem takeBytes_win (x : Byte) (s : State) : (takeBytes x s).win = s.win.writeAll 0 (s.upcoming.take (delivered x s.upcoming)) := (rfl)
@[simp] theorem takeBytes_inFilled (x : Byte) (s : State) : (takeBytes x s).inFilled = BitVec.ofNat 9 (delivered x s.upcoming) := (rfl)
@[simp] theorem takeBytes_inCursor (x : Byte) (s : State) : (takeBytes x s).inCursor = 0 := (rfl)
@[simp] theorem takeBytes_eos (x : Byte) (s : State) : (takeBytes x s).eos = (s.eos || delivered x s.upcoming == 0) := (rfl)
@[simp] theorem takeBytes_inOffset (x : Byte) (s : State) : (takeBytes x s).inOffset = s.inOffset := (rfl)
@[simp] theorem takeBytes_refillCount (x : Byte) (s : State) : (takeBytes x s).refillCount = s.refillCount := (rfl)
@[simp] theorem takeBytes_scan (x : Byte) (s : State) : (takeBytes x s).scan = s.scan := (rfl)
@[simp] theorem takeBytes_slCursor (x : Byte) (s : State) : (takeBytes x s).slCursor = s.slCursor := (rfl)
@[simp] theorem takeBytes_runValue (x : Byte) (s : State) : (takeBytes x s).runValue = s.runValue := (rfl)
@[simp] theorem takeBytes_runLength (x : Byte) (s : State) : (takeBytes x s).runLength = s.runLength := (rfl)
@[simp] theorem takeBytes_tile (x : Byte) (s : State) : (takeBytes x s).tile = s.tile := (rfl)
@[simp] theorem takeBytes_widthReg (x : Byte) (s : State) : (takeBytes x s).widthReg = s.widthReg := (rfl)
@[simp] theorem takeBytes_latchedW (x : Byte) (s : State) : (takeBytes x s).latchedW = s.latchedW := (rfl)
@[simp] theorem takeBytes_curCmd (x : Byte) (s : State) : (takeBytes x s).curCmd = s.curCmd := (rfl)
@[simp] theorem takeBytes_row (x : Byte) (s : State) : (takeBytes x s).row = s.row := (rfl)
@[simp] theorem takeBytes_col (x : Byte) (s : State) : (takeBytes x s).col = s.col := (rfl)
@[simp] theorem takeBytes_runLeft (x : Byte) (s : State) : (takeBytes x s).runLeft = s.runLeft := (rfl)
@[simp] theorem takeBytes_micro (x : Byte) (s : State) : (takeBytes x s).micro = s.micro := (rfl)
@[simp] theorem takeBytes_reqPending (x : Byte) (s : State) : (takeBytes x s).reqPending = false := (rfl)
@[simp] theorem takeBytes_maxWidth (x : Byte) (s : State) : (takeBytes x s).maxWidth = s.maxWidth := (rfl)
@[simp] theorem takeBytes_stream (x : Byte) (s : State) : (takeBytes x s).stream = s.upcoming.drop (delivered x s.upcoming) := (rfl)
@[simp] theorem takeBytes_streamCycle (x : Byte) (s : State) : (takeBytes x s).streamCycle = s.streamCycle := (rfl)
@[simp] theorem takeBytes_draws (x : Byte) (s : State) : (takeBytes x s).draws = s.draws := (rfl)
@[simp] theorem takeBytes_drawCycle (x : Byte) (s : State) : (takeBytes x s).drawCycle = s.drawCycle := (rfl)
@[simp] theorem takeBytes_abandoned (x : Byte) (s : State) : (takeBytes x s).abandoned = s.abandoned := (rfl)
@[simp] theorem takeBytes_agenda (x : Byte) (s : State) : (takeBytes x s).agenda = s.agenda := (rfl)
@[simp] theorem takeBytes_readData (x : Byte) (s : State) : (takeBytes x s).readData = s.readData := (rfl)
@[simp] theorem takeBytes_bufData (x : Byte) (s : State) : (takeBytes x s).bufData = s.bufData := (rfl)
@[simp] theorem takeBytes_freeIndex (x : Byte) (s : State) : (takeBytes x s).freeIndex = s.freeIndex := (rfl)
@[simp] theorem takeBytes_width (x : Byte) (s : State) : (takeBytes x s).width = s.width := (rfl)
@[simp] theorem takeBytes_nextDraw (x : Byte) (s : State) : (takeBytes x s).nextDraw = s.nextDraw := (rfl)

end takeBytesUpdate

section readFailedUpdate

@[simp] theorem readFailed_state (s : State) : (readFailed s).state = .error := (rfl)
@[simp] theorem readFailed_errCode (s : State) : (readFailed s).errCode = .streamIo := (rfl)
@[simp] theorem readFailed_errOffset (s : State) : (readFailed s).errOffset = s.inOffset := (rfl)
@[simp] theorem readFailed_cmdIgnored (s : State) : (readFailed s).cmdIgnored = s.cmdIgnored := (rfl)
@[simp] theorem readFailed_win (s : State) : (readFailed s).win = s.win := (rfl)
@[simp] theorem readFailed_inFilled (s : State) : (readFailed s).inFilled = s.inFilled := (rfl)
@[simp] theorem readFailed_inCursor (s : State) : (readFailed s).inCursor = s.inCursor := (rfl)
@[simp] theorem readFailed_eos (s : State) : (readFailed s).eos = s.eos := (rfl)
@[simp] theorem readFailed_inOffset (s : State) : (readFailed s).inOffset = s.inOffset := (rfl)
@[simp] theorem readFailed_refillCount (s : State) : (readFailed s).refillCount = s.refillCount := (rfl)
@[simp] theorem readFailed_scan (s : State) : (readFailed s).scan = s.scan := (rfl)
@[simp] theorem readFailed_slCursor (s : State) : (readFailed s).slCursor = s.slCursor := (rfl)
@[simp] theorem readFailed_runValue (s : State) : (readFailed s).runValue = s.runValue := (rfl)
@[simp] theorem readFailed_runLength (s : State) : (readFailed s).runLength = s.runLength := (rfl)
@[simp] theorem readFailed_tile (s : State) : (readFailed s).tile = s.tile := (rfl)
@[simp] theorem readFailed_widthReg (s : State) : (readFailed s).widthReg = s.widthReg := (rfl)
@[simp] theorem readFailed_latchedW (s : State) : (readFailed s).latchedW = s.latchedW := (rfl)
@[simp] theorem readFailed_curCmd (s : State) : (readFailed s).curCmd = none := (rfl)
@[simp] theorem readFailed_row (s : State) : (readFailed s).row = s.row := (rfl)
@[simp] theorem readFailed_col (s : State) : (readFailed s).col = s.col := (rfl)
@[simp] theorem readFailed_runLeft (s : State) : (readFailed s).runLeft = s.runLeft := (rfl)
@[simp] theorem readFailed_micro (s : State) : (readFailed s).micro = .quiet := (rfl)
@[simp] theorem readFailed_reqPending (s : State) : (readFailed s).reqPending = false := (rfl)
@[simp] theorem readFailed_maxWidth (s : State) : (readFailed s).maxWidth = s.maxWidth := (rfl)
@[simp] theorem readFailed_stream (s : State) : (readFailed s).stream = s.stream := (rfl)
@[simp] theorem readFailed_streamCycle (s : State) : (readFailed s).streamCycle = s.streamCycle := (rfl)
@[simp] theorem readFailed_draws (s : State) : (readFailed s).draws = s.draws := (rfl)
@[simp] theorem readFailed_drawCycle (s : State) : (readFailed s).drawCycle = s.drawCycle := (rfl)
@[simp] theorem readFailed_abandoned (s : State) : (readFailed s).abandoned = s.abandoned := (rfl)
@[simp] theorem readFailed_agenda (s : State) : (readFailed s).agenda = s.agenda := (rfl)
@[simp] theorem readFailed_readData (s : State) : (readFailed s).readData = s.readData := (rfl)
@[simp] theorem readFailed_bufData (s : State) : (readFailed s).bufData = s.bufData := (rfl)
@[simp] theorem readFailed_freeIndex (s : State) : (readFailed s).freeIndex = s.freeIndex := (rfl)
@[simp] theorem readFailed_width (s : State) : (readFailed s).width = s.width := (rfl)
@[simp] theorem readFailed_upcoming (s : State) : (readFailed s).upcoming = s.upcoming := (rfl)
@[simp] theorem readFailed_nextDraw (s : State) : (readFailed s).nextDraw = s.nextDraw := (rfl)

end readFailedUpdate

section bindStreamUpdate

@[simp] theorem bindStream_state (bs cs : List Byte) (s : State) : (bindStream bs cs s).state = s.state := (rfl)
@[simp] theorem bindStream_errCode (bs cs : List Byte) (s : State) : (bindStream bs cs s).errCode = s.errCode := (rfl)
@[simp] theorem bindStream_errOffset (bs cs : List Byte) (s : State) : (bindStream bs cs s).errOffset = s.errOffset := (rfl)
@[simp] theorem bindStream_cmdIgnored (bs cs : List Byte) (s : State) : (bindStream bs cs s).cmdIgnored = s.cmdIgnored := (rfl)
@[simp] theorem bindStream_win (bs cs : List Byte) (s : State) : (bindStream bs cs s).win = s.win := (rfl)
@[simp] theorem bindStream_inFilled (bs cs : List Byte) (s : State) : (bindStream bs cs s).inFilled = s.inFilled := (rfl)
@[simp] theorem bindStream_inCursor (bs cs : List Byte) (s : State) : (bindStream bs cs s).inCursor = s.inCursor := (rfl)
@[simp] theorem bindStream_eos (bs cs : List Byte) (s : State) : (bindStream bs cs s).eos = s.eos := (rfl)
@[simp] theorem bindStream_inOffset (bs cs : List Byte) (s : State) : (bindStream bs cs s).inOffset = s.inOffset := (rfl)
@[simp] theorem bindStream_refillCount (bs cs : List Byte) (s : State) : (bindStream bs cs s).refillCount = s.refillCount := (rfl)
@[simp] theorem bindStream_scan (bs cs : List Byte) (s : State) : (bindStream bs cs s).scan = s.scan := (rfl)
@[simp] theorem bindStream_slCursor (bs cs : List Byte) (s : State) : (bindStream bs cs s).slCursor = s.slCursor := (rfl)
@[simp] theorem bindStream_runValue (bs cs : List Byte) (s : State) : (bindStream bs cs s).runValue = s.runValue := (rfl)
@[simp] theorem bindStream_runLength (bs cs : List Byte) (s : State) : (bindStream bs cs s).runLength = s.runLength := (rfl)
@[simp] theorem bindStream_tile (bs cs : List Byte) (s : State) : (bindStream bs cs s).tile = s.tile := (rfl)
@[simp] theorem bindStream_widthReg (bs cs : List Byte) (s : State) : (bindStream bs cs s).widthReg = s.widthReg := (rfl)
@[simp] theorem bindStream_latchedW (bs cs : List Byte) (s : State) : (bindStream bs cs s).latchedW = s.latchedW := (rfl)
@[simp] theorem bindStream_curCmd (bs cs : List Byte) (s : State) : (bindStream bs cs s).curCmd = s.curCmd := (rfl)
@[simp] theorem bindStream_row (bs cs : List Byte) (s : State) : (bindStream bs cs s).row = s.row := (rfl)
@[simp] theorem bindStream_col (bs cs : List Byte) (s : State) : (bindStream bs cs s).col = s.col := (rfl)
@[simp] theorem bindStream_runLeft (bs cs : List Byte) (s : State) : (bindStream bs cs s).runLeft = s.runLeft := (rfl)
@[simp] theorem bindStream_micro (bs cs : List Byte) (s : State) : (bindStream bs cs s).micro = s.micro := (rfl)
@[simp] theorem bindStream_reqPending (bs cs : List Byte) (s : State) : (bindStream bs cs s).reqPending = s.reqPending := (rfl)
@[simp] theorem bindStream_maxWidth (bs cs : List Byte) (s : State) : (bindStream bs cs s).maxWidth = s.maxWidth := (rfl)
@[simp] theorem bindStream_stream (bs cs : List Byte) (s : State) : (bindStream bs cs s).stream = bs := (rfl)
@[simp] theorem bindStream_streamCycle (bs cs : List Byte) (s : State) : (bindStream bs cs s).streamCycle = cs := (rfl)
@[simp] theorem bindStream_draws (bs cs : List Byte) (s : State) : (bindStream bs cs s).draws = s.draws := (rfl)
@[simp] theorem bindStream_drawCycle (bs cs : List Byte) (s : State) : (bindStream bs cs s).drawCycle = s.drawCycle := (rfl)
@[simp] theorem bindStream_abandoned (bs cs : List Byte) (s : State) : (bindStream bs cs s).abandoned = 0 := (rfl)
@[simp] theorem bindStream_agenda (bs cs : List Byte) (s : State) : (bindStream bs cs s).agenda = s.agenda := (rfl)
@[simp] theorem bindStream_readData (bs cs : List Byte) (s : State) : (bindStream bs cs s).readData = s.readData := (rfl)
@[simp] theorem bindStream_bufData (bs cs : List Byte) (s : State) : (bindStream bs cs s).bufData = s.bufData := (rfl)
@[simp] theorem bindStream_freeIndex (bs cs : List Byte) (s : State) : (bindStream bs cs s).freeIndex = s.freeIndex := (rfl)
@[simp] theorem bindStream_width (bs cs : List Byte) (s : State) : (bindStream bs cs s).width = s.width := (rfl)
@[simp] theorem bindStream_nextDraw (bs cs : List Byte) (s : State) : (bindStream bs cs s).nextDraw = s.nextDraw := (rfl)

end bindStreamUpdate

section resetPinUpdate

@[simp] theorem resetPin_state (s : State) : (resetPin s).state = State.reset.state := (rfl)
@[simp] theorem resetPin_errCode (s : State) : (resetPin s).errCode = State.reset.errCode := (rfl)
@[simp] theorem resetPin_errOffset (s : State) : (resetPin s).errOffset = State.reset.errOffset := (rfl)
@[simp] theorem resetPin_cmdIgnored (s : State) : (resetPin s).cmdIgnored = State.reset.cmdIgnored := (rfl)
@[simp] theorem resetPin_win (s : State) : (resetPin s).win = State.reset.win := (rfl)
@[simp] theorem resetPin_inFilled (s : State) : (resetPin s).inFilled = State.reset.inFilled := (rfl)
@[simp] theorem resetPin_inCursor (s : State) : (resetPin s).inCursor = State.reset.inCursor := (rfl)
@[simp] theorem resetPin_eos (s : State) : (resetPin s).eos = State.reset.eos := (rfl)
@[simp] theorem resetPin_inOffset (s : State) : (resetPin s).inOffset = State.reset.inOffset := (rfl)
@[simp] theorem resetPin_refillCount (s : State) : (resetPin s).refillCount = State.reset.refillCount := (rfl)
@[simp] theorem resetPin_scan (s : State) : (resetPin s).scan = State.reset.scan := (rfl)
@[simp] theorem resetPin_slCursor (s : State) : (resetPin s).slCursor = State.reset.slCursor := (rfl)
@[simp] theorem resetPin_runValue (s : State) : (resetPin s).runValue = State.reset.runValue := (rfl)
@[simp] theorem resetPin_runLength (s : State) : (resetPin s).runLength = State.reset.runLength := (rfl)
@[simp] theorem resetPin_tile (s : State) : (resetPin s).tile = State.reset.tile := (rfl)
@[simp] theorem resetPin_widthReg (s : State) : (resetPin s).widthReg = State.reset.widthReg := (rfl)
@[simp] theorem resetPin_latchedW (s : State) : (resetPin s).latchedW = State.reset.latchedW := (rfl)
@[simp] theorem resetPin_curCmd (s : State) : (resetPin s).curCmd = State.reset.curCmd := (rfl)
@[simp] theorem resetPin_row (s : State) : (resetPin s).row = State.reset.row := (rfl)
@[simp] theorem resetPin_col (s : State) : (resetPin s).col = State.reset.col := (rfl)
@[simp] theorem resetPin_runLeft (s : State) : (resetPin s).runLeft = State.reset.runLeft := (rfl)
@[simp] theorem resetPin_micro (s : State) : (resetPin s).micro = State.reset.micro := (rfl)
@[simp] theorem resetPin_reqPending (s : State) : (resetPin s).reqPending = State.reset.reqPending := (rfl)
@[simp] theorem resetPin_maxWidth (s : State) : (resetPin s).maxWidth = s.maxWidth := (rfl)
@[simp] theorem resetPin_stream (s : State) : (resetPin s).stream = s.stream := (rfl)
@[simp] theorem resetPin_streamCycle (s : State) : (resetPin s).streamCycle = s.streamCycle := (rfl)
@[simp] theorem resetPin_draws (s : State) : (resetPin s).draws = s.draws := (rfl)
@[simp] theorem resetPin_drawCycle (s : State) : (resetPin s).drawCycle = s.drawCycle := (rfl)
@[simp] theorem resetPin_abandoned (s : State) : (resetPin s).abandoned = if s.reqPending then s.abandoned + 1 else s.abandoned := (rfl)
@[simp] theorem resetPin_agenda (s : State) : (resetPin s).agenda = s.agenda := (rfl)
@[simp] theorem resetPin_readData (s : State) : (resetPin s).readData = s.readData := (rfl)
@[simp] theorem resetPin_bufData (s : State) : (resetPin s).bufData = s.bufData := (rfl)
@[simp] theorem resetPin_freeIndex (s : State) : (resetPin s).freeIndex = s.freeIndex := (rfl)
@[simp] theorem resetPin_upcoming (s : State) : (resetPin s).upcoming = s.upcoming := (rfl)
@[simp] theorem resetPin_nextDraw (s : State) : (resetPin s).nextDraw = s.nextDraw := (rfl)

end resetPinUpdate

end Sys2Proof.Machine
end

