-- ==== Sys2Proof/Laws/Ops.lean ====
section
/-! SUPPORT. One lemma per shared operation of the engine and of the host's side, saying once everything it can do. -/

namespace Sys2Proof.Machine

/-! ### Conditions -/

theorem windowEmpty_iff (s : State) : windowEmpty s = true ↔ s.inCursor = s.inFilled := by simp [windowEmpty]

theorem scanConsumed_iff (s : State) : scanConsumed s = true ↔ s.slCursor = s.latchedW := by simp [scanConsumed]

theorem overruns_iff (s : State) (len : BitVec 6) :
    overruns s len = true ↔ s.width < s.slCursor.toNat + lenOf len := by simp [overruns]

/-- A legal width (R39), as three facts on numbers. -/
theorem legalWidth_iff (m : Nat) (w : Word) :
    legalWidth m w = true ↔ 0 < w.toNat ∧ w.toNat % 8 = 0 ∧ w.toNat ≤ m := by
  simp only [legalWidth, Bool.and_eq_true, bne_iff_ne, ne_eq, beq_iff_eq, decide_eq_true_eq]
  omega

/-! ### The byte source -/

/-- `advance()` after its byte (R102): the refill if the window is emptied, else what follows. -/
theorem afterConsume_cases (k : Resume) (go : State → State) (s : State) :
    (s.inCursor = s.inFilled ∧ afterConsume k go s = goto (.refill k) s) ∨
      (s.inCursor ≠ s.inFilled ∧ afterConsume k go s = go s) := by
  unfold afterConsume
  split
  · next h => exact .inl ⟨(windowEmpty_iff s).1 h, rfl⟩
  · next h => exact .inr ⟨fun he => h ((windowEmpty_iff s).2 he), rfl⟩

/-- How many bytes an answered read delivers (R104). -/
theorem delivered_bounds (extra : Byte) (bytes : List Byte) :
    delivered extra bytes ≤ bytes.length ∧ delivered extra bytes ≤ Config.winCap ∧
      (delivered extra bytes = 0 ↔ bytes = []) := by
  have := extra.isLt
  unfold delivered
  refine ⟨by omega, by simp only [Config.winCap]; omega, ?_⟩
  rw [← List.length_eq_zero_iff]
  omega

/-- The bytes to come are those not yet delivered, with whole rounds of the cycle after them. -/
theorem upcoming_eq (s : State) : ∃ n, s.upcoming = s.stream ++ (List.replicate n s.streamCycle).flatten := by
  unfold State.upcoming unroll
  split
  · exact ⟨0, by simp⟩
  · exact ⟨_, rfl⟩

/-- A stream without a cycle has no more to come than it has not delivered. -/
theorem upcoming_of_noCycle (s : State) (h : s.streamCycle = []) : s.upcoming = s.stream := by
  simp [State.upcoming, unroll, h]

/-- Nothing is to come exactly at the end of a stream that ends. -/
theorem upcoming_eq_nil (s : State) : s.upcoming = [] ↔ s.stream = [] ∧ s.streamCycle = [] := by
  constructor
  · intro h
    obtain ⟨n, hn⟩ := upcoming_eq s
    have hs : s.stream = [] := (List.append_eq_nil_iff.1 (hn.symm.trans h)).1
    refine ⟨hs, ?_⟩
    unfold State.upcoming unroll at h
    rw [hs] at h
    cases hc : s.streamCycle with
    | nil => rfl
    | cons b bs => rw [hc, show Config.winCap = 255 + 1 from rfl, List.replicate_succ] at h; cases h
  · rintro ⟨hs, hc⟩
    rw [upcoming_of_noCycle s hc, hs]

/-- The next draw is the head of the draws, or of their cycle if none is left. -/
theorem nextDraw_cases (s : State) :
    (s.draws = [] ∧ s.drawCycle = [] ∧ s.nextDraw = none) ∨
      (∃ d rest, s.draws = d :: rest ∧ s.nextDraw = some (d, rest)) ∨
      ∃ d rest, s.draws = [] ∧ s.drawCycle = d :: rest ∧ s.nextDraw = some (d, rest) := by
  unfold State.nextDraw
  cases hd : s.draws with
  | cons d rest => exact .inr (.inl ⟨d, rest, rfl, rfl⟩)
  | nil =>
    cases hc : s.drawCycle with
    | nil => exact .inl ⟨rfl, rfl, rfl⟩
    | cons d rest => exact .inr (.inr ⟨d, rest, rfl, rfl, rfl⟩)

/-- The outstanding read goes unanswered, fails, or delivers its bytes (R103, R104, R252). -/
theorem answerRead_cases (k : Resume) (s : State) :
    (s.nextDraw = none ∧ answerRead k s = s) ∨
      (∃ rest, s.nextDraw = some (.ioErr, rest) ∧ answerRead k s = readFailed (setDraws rest s)) ∨
      ∃ extra rest, s.nextDraw = some (.bytes extra, rest) ∧
        answerRead k s = resume k (takeBytes extra (setDraws rest s)) := by
  unfold answerRead
  split
  · next h => exact .inl ⟨h, rfl⟩
  · next rest h => exact .inr (.inl ⟨rest, h, rfl⟩)
  · next extra rest h => exact .inr (.inr ⟨extra, rest, h, rfl⟩)

/-! ### Stream codes -/

/-- The run is latched, and the caller of `next_run()` goes on (R122, R140, R185). -/
theorem latchRun_cases (value : Byte) (len : BitVec 6) (start : Word) (s : State) :
    (s.curCmd = some .decodeRun ∧ latchRun value len start s = complete (setRun value len s)) ∨
      ((s.curCmd = some .packRow ∨ s.curCmd = some .fillScanline) ∧
        latchRun value len start s = assembleRun start (setRun value len s)) ∨
      ((s.curCmd = some .start ∨ s.curCmd = none) ∧ latchRun value len start s = goto .quiet (setRun value len s)) := by
  unfold latchRun
  cases s.curCmd with
  | none => exact .inr (.inr ⟨.inr rfl, rfl⟩)
  | some c =>
    cases c with
    | start => exact .inr (.inr ⟨.inl rfl, rfl⟩)
    | packRow => exact .inr (.inl ⟨.inl rfl, rfl⟩)
    | decodeRun => exact .inl ⟨rfl, rfl⟩
    | fillScanline => exact .inr (.inl ⟨.inr rfl, rfl⟩)

/-- The last byte of a code: TRUNCATED_STREAM without one, else it is consumed and the run latched, after the refill if the
window is emptied (R101, R102, R122). -/
theorem takeValue_cases (value : Byte) (len : BitVec 6) (start : Word) (s : State) :
    (s.inCursor = s.inFilled ∧ takeValue value len start s = truncated s) ∨
      (s.inCursor ≠ s.inFilled ∧ s.inCursor + 1 = s.inFilled ∧
        takeValue value len start s = goto (.refill (.latch value len start)) (consume s)) ∨
      (s.inCursor ≠ s.inFilled ∧ s.inCursor + 1 ≠ s.inFilled ∧
        takeValue value len start s = latchRun value len start (consume s)) := by
  unfold takeValue
  split
  · next h => exact .inl ⟨(windowEmpty_iff s).1 h, rfl⟩
  · next h =>
    have hne : s.inCursor ≠ s.inFilled := fun he => h ((windowEmpty_iff s).2 he)
    rcases afterConsume_cases (.latch value len start) (latchRun value len start) (consume s) with ⟨h1, h2⟩ | ⟨h1, h2⟩
    · exact .inr (.inl ⟨hne, h1, h2⟩)
    · exact .inr (.inr ⟨hne, h1, h2⟩)

/-- A marker alone: TRUNCATED_STREAM without one, else it is consumed, and the value byte is wanted next (R121, R122). -/
theorem takeMarker_cases (len : BitVec 6) (s : State) :
    (s.inCursor = s.inFilled ∧ takeMarker len s = truncated s) ∨
      (s.inCursor ≠ s.inFilled ∧ s.inCursor + 1 = s.inFilled ∧
        takeMarker len s = goto (.refill (.value len s.inOffset)) (consume s)) ∨
      (s.inCursor ≠ s.inFilled ∧ s.inCursor + 1 ≠ s.inFilled ∧
        takeMarker len s = goto (.value len s.inOffset) (consume s)) := by
  unfold takeMarker
  split
  · next h => exact .inl ⟨(windowEmpty_iff s).1 h, rfl⟩
  · next h =>
    have hne : s.inCursor ≠ s.inFilled := fun he => h ((windowEmpty_iff s).2 he)
    rcases afterConsume_cases (.value len s.inOffset) (goto (.value len s.inOffset)) (consume s) with ⟨h1, h2⟩ | ⟨h1, h2⟩
    · exact .inr (.inl ⟨hne, h1, h2⟩)
    · exact .inr (.inr ⟨hne, h1, h2⟩)

/-- A RUN, by what of it is already consumed: its value byte is taken, or its marker (R121, R122). -/
theorem runCode_cases (len : BitVec 6) (value : Byte) (s : State) :
    (∃ l start, s.micro = .value l start ∧ runCode len value s = takeValue value len start s) ∨
      ((∀ l start, s.micro ≠ .value l start) ∧ runCode len value s = takeMarker len s) := by
  unfold runCode
  split
  · next l start hm => exact .inl ⟨l, start, hm, rfl⟩
  · next hm => exact .inr ⟨fun l start h => hm l start h, rfl⟩

/-! ### Scanlines and tiles -/

/-- The loop test of `refill_scanline()` (R140). -/
theorem scanLoop_cases (s : State) :
    (s.slCursor.toNat < s.width ∧ scanLoop s = goto .code s) ∨
      (s.width ≤ s.slCursor.toNat ∧ scanLoop s = scanlineDone (setScanCursor 0 s)) := by
  unfold scanLoop
  split
  · next h => exact .inl ⟨h, rfl⟩
  · next h => exact .inr ⟨by omega, rfl⟩

/-- A run to be written: it overruns, it is empty, or its writing begins (R140 to R142). -/
theorem assembleRun_cases (start : Word) (s : State) :
    (s.width < s.slCursor.toNat + lenOf s.runLength ∧ assembleRun start s = raise .runOverrun start s) ∨
      (s.slCursor.toNat + lenOf s.runLength ≤ s.width ∧ lenOf s.runLength = 0 ∧
        assembleRun start s = runWritten (setRunLeft 0 s)) ∨
      (s.slCursor.toNat + lenOf s.runLength ≤ s.width ∧ 0 < lenOf s.runLength ∧
        assembleRun start s = goto .writeRun (setRunLeft (lenOf s.runLength) s)) := by
  unfold assembleRun
  split
  · next h => exact .inl ⟨(overruns_iff s s.runLength).1 h, rfl⟩
  · next h =>
    have hle : s.slCursor.toNat + lenOf s.runLength ≤ s.width := by
      have := mt (overruns_iff s s.runLength).2 h
      omega
    split
    · next h0 => exact .inr (.inl ⟨hle, h0, rfl⟩)
    · next h0 => exact .inr (.inr ⟨hle, by omega, rfl⟩)

/-- One byte of a run is written inside the scanline (R61, R140). -/
theorem writeRunByte_next {s t : State} (h : writeRunByte s = .next t) :
    runIndex s < s.width ∧
      ((s.runLeft ≤ 1 ∧ t = runWritten (setRunLeft (s.runLeft - 1) (storeScan (runIndex s) s.runValue s))) ∨
        (1 < s.runLeft ∧ t = setRunLeft (s.runLeft - 1) (storeScan (runIndex s) s.runValue s))) := by
  unfold writeRunByte at h
  by_cases hi : runIndex s < s.width
  · simp only [if_pos hi] at h
    by_cases h1 : s.runLeft ≤ 1
    · rw [if_pos h1] at h
      exact ⟨hi, .inl ⟨h1, (Host.Outcome.next.inj h).symm⟩⟩
    · rw [if_neg h1] at h
      exact ⟨hi, .inr ⟨by omega, (Host.Outcome.next.inj h).symm⟩⟩
  · simp only [if_neg hi] at h
    cases h

/-- Entry of `next_8_pixels()` (R143). -/
theorem nextPixels_cases (s : State) :
    (s.slCursor = s.latchedW ∧ nextPixels s = refillScanline s) ∨
      (s.slCursor ≠ s.latchedW ∧ nextPixels s = goto (.pixels []) s) := by
  unfold nextPixels
  split
  · next h => exact .inl ⟨(scanConsumed_iff s).1 h, rfl⟩
  · next h => exact .inr ⟨fun he => h ((scanConsumed_iff s).2 he), rfl⟩

/-- One pixel is read inside the scanline, from a byte that was written (R61, R143). -/
theorem readPixel_next {px : List Byte} {s t : State} (h : readPixel px s = .next t) :
    s.slCursor.toNat + px.length < s.width ∧
      ∃ b, s.scan.read (s.slCursor.toNat + px.length) = some b ∧
        ((px.length = 7 ∧ t = goto (.plane 0 (px ++ [b])) (setScanCursor (s.slCursor + 8) s)) ∨
          (px.length ≠ 7 ∧ t = goto (.pixels (px ++ [b])) s)) := by
  unfold readPixel at h
  by_cases hi : s.slCursor.toNat + px.length < s.width
  · simp only [if_pos hi] at h
    cases hb : s.scan.read (s.slCursor.toNat + px.length) with
    | none => simp only [hb] at h; cases h
    | some b =>
      simp only [hb] at h
      refine ⟨hi, b, rfl, ?_⟩
      by_cases h7 : px.length = 7
      · rw [if_pos h7] at h; exact .inl ⟨h7, (Host.Outcome.next.inj h).symm⟩
      · rw [if_neg h7] at h; exact .inr ⟨h7, (Host.Outcome.next.inj h).symm⟩
  · simp only [if_neg hi] at h
    cases h

/-- The column is packed: the next column, the next row, or the end of the tile row (R163). -/
theorem nextColumn_cases (s : State) :
    (s.col + 1 < s.width / 8 ∧ nextColumn s = nextPixels (setTilePos s.row (s.col + 1) s)) ∨
      (s.width / 8 ≤ s.col + 1 ∧ s.row + 1 < 8 ∧ nextColumn s = nextPixels (setTilePos (s.row + 1) 0 s)) ∨
      (s.width / 8 ≤ s.col + 1 ∧ 8 ≤ s.row + 1 ∧ nextColumn s = complete s) := by
  unfold nextColumn
  split
  · next h => exact .inl ⟨h, rfl⟩
  · next h =>
    have hc : s.width / 8 ≤ s.col + 1 := Nat.le_of_not_lt h
    split
    · next h1 => exact .inr (.inl ⟨hc, h1, rfl⟩)
    · next h1 => exact .inr (.inr ⟨hc, Nat.le_of_not_lt h1, rfl⟩)

/-- One plane byte is written inside the tile buffer (R61, R163). -/
theorem writePlane_next {p : Nat} {px : List Byte} {s t : State} (h : writePlane p px s = .next t) :
    tileIndex s.col s.row p < 4 * s.width ∧
      ((p + 1 < 4 ∧ t = goto (.plane (p + 1) px) (storeTile (tileIndex s.col s.row p) (planeByte px p) s)) ∨
        (4 ≤ p + 1 ∧ t = nextColumn (storeTile (tileIndex s.col s.row p) (planeByte px p) s))) := by
  unfold writePlane at h
  by_cases hi : tileIndex s.col s.row p < 4 * s.width
  · simp only [if_pos hi] at h
    by_cases hp : p + 1 < Config.planes
    · rw [if_pos hp] at h; exact ⟨hi, .inl ⟨hp, (Host.Outcome.next.inj h).symm⟩⟩
    · rw [if_neg hp] at h; exact ⟨hi, .inr ⟨Nat.le_of_not_lt hp, (Host.Outcome.next.inj h).symm⟩⟩
  · simp only [if_neg hi] at h
    cases h

/-! ### Commands -/

/-- Dispatch by engine state (R190). -/
theorem whenReady_cases (run : State → State) (s : State) :
    (s.state = .ready ∧ whenReady run s = run s) ∨
      (s.state = .idle ∧ whenReady run s = raise .sequence s.inOffset s) ∨
      ((s.state = .busy ∨ s.state = .error) ∧ whenReady run s = ignoreWrite s) := by
  unfold whenReady
  cases s.state with
  | ready => exact .inl ⟨rfl, rfl⟩
  | idle => exact .inr (.inl ⟨rfl, rfl⟩)
  | busy => exact .inr (.inr ⟨.inl rfl, rfl⟩)
  | error => exact .inr (.inr ⟨.inr rfl, rfl⟩)

/-- A reserved command word (R187). -/
theorem reservedCommand_cases (s : State) :
    ((s.state = .idle ∨ s.state = .ready) ∧ reservedCommand s = raise .illegalCommand s.inOffset s) ∨
      ((s.state = .busy ∨ s.state = .error) ∧ reservedCommand s = ignoreWrite s) := by
  unfold reservedCommand
  cases s.state with
  | idle => exact .inl ⟨.inl rfl, rfl⟩
  | ready => exact .inl ⟨.inr rfl, rfl⟩
  | busy => exact .inr ⟨.inl rfl, rfl⟩
  | error => exact .inr ⟨.inr rfl, rfl⟩

/-- START, by the width it latches (R183). -/
theorem startBody_cases (s : State) :
    (legalWidth s.maxWidth s.widthReg = true ∧
        startBody s = goto (.refill .primed) (setScanCursor s.widthReg (clearConversion (accept .start s)))) ∨
      (legalWidth s.maxWidth s.widthReg = false ∧
        startBody s = raise .dimension 0 (clearConversion (accept .start s))) := by
  cases h : legalWidth s.maxWidth s.widthReg with
  | true => exact .inl ⟨rfl, if_pos h⟩
  | false => exact .inr ⟨rfl, if_neg (by rw [Bool.not_eq_true]; exact h)⟩

/-! ### The host's side -/

/-- A register read (R52, R53). -/
theorem readRegister_cases (r : BitVec 4) (s : State) :
    (s.state = .busy ∧ r ≠ 1#4 ∧ r ≠ 2#4 ∧ readRegister r s = drawWord s) ∨
      ((s.state ≠ .busy ∨ r = 1#4 ∨ r = 2#4) ∧ readRegister r s = gotWord (registerValue r s) s) := by
  unfold readRegister exactWhileBusy
  by_cases hb : s.state = .busy
  · by_cases h1 : r = 1#4
    · exact .inr ⟨.inr (.inl h1), if_neg (by simp [h1])⟩
    · by_cases h2 : r = 2#4
      · exact .inr ⟨.inr (.inr h2), if_neg (by simp [h2])⟩
      · exact .inl ⟨hb, h1, h2, if_pos ⟨hb, by simp [h1, h2]⟩⟩
  · exact .inr ⟨.inl hb, if_neg (fun h => hb h.1)⟩

/-- A buffer read (R63). -/
theorem readBuffer_cases (sp : Space) (i : Nat) (s : State) :
    (s.capacity sp ≤ i ∧ readBuffer sp i s = .refused (.noSuchByte sp i)) ∨
      (i < s.capacity sp ∧
        ((∃ b, s.state ≠ .busy ∧ i < s.liveLen sp ∧ (s.buffer sp).read i = some b ∧
            readBuffer sp i s = .next (gotByte b s)) ∨
          ((s.state = .busy ∨ s.liveLen sp ≤ i ∨ (s.buffer sp).read i = none) ∧
            readBuffer sp i s = .next (drawByte s)))) := by
  unfold readBuffer
  split
  · next h => exact .inl ⟨h, rfl⟩
  · next h =>
    refine .inr ⟨by omega, ?_⟩
    split
    · next hl =>
      cases hb : (s.buffer sp).read i with
      | some b => exact .inl ⟨b, hl.1, hl.2, rfl, rfl⟩
      | none => exact .inr ⟨.inr (.inr rfl), rfl⟩
    · next hl =>
      refine .inr ⟨?_, rfl⟩
      by_cases hb : s.state = .busy
      · exact .inl hb
      · exact .inr (.inl (Nat.le_of_not_lt fun hi => hl ⟨hb, hi⟩))

/-- A late answer changes only the stream and the count of abandoned reads (R241, log 7). -/
theorem takeLateAnswer_cases (d : Draw) (s : State) :
    (s.abandoned = 0 ∧ takeLateAnswer d s = s) ∨
      (0 < s.abandoned ∧ ∃ n gone rest, s.stream ++ (List.replicate n s.streamCycle).flatten = gone ++ rest ∧
        takeLateAnswer d s = { s with abandoned := s.abandoned - 1, stream := rest }) := by
  unfold takeLateAnswer
  split
  · next h => exact .inl ⟨h, rfl⟩
  · next h =>
    refine .inr ⟨by omega, ?_⟩
    cases d with
    | bytes extra =>
      obtain ⟨n, hn⟩ := upcoming_eq s
      exact ⟨n, s.upcoming.take (delivered extra s.upcoming), s.upcoming.drop (delivered extra s.upcoming),
        by rw [List.take_append_drop, hn], rfl⟩
    | ioErr => exact ⟨0, [], s.stream, by simp, rfl⟩

/-- A register write (R46, R52). -/
theorem writeRegister_cases (r : BitVec 4) (v : Word) (s : State) :
    (r = 0#4 ∧ writeRegister r v s = writeCtrl v s) ∨ (r = 2#4 ∧ writeRegister r v s = .next (setWidthReg v s)) ∨
      (r ≠ 0#4 ∧ r ≠ 2#4 ∧ writeRegister r v s = .next s) := by
  unfold writeRegister
  split
  · next h => exact .inl ⟨h, rfl⟩
  · next h =>
    split
    · next h2 => exact .inr (.inl ⟨h2, rfl⟩)
    · next h2 => exact .inr (.inr ⟨h, h2, rfl⟩)

/-! ### The step -/

/-- The engine moves only while BUSY (R210, R219). -/
theorem engineTick_cases (s : State) :
    (s.state = .busy ∧ engineTick s = microStep s) ∨ (s.state ≠ .busy ∧ engineTick s = .next s) := by
  unfold engineTick
  cases s.state with
  | busy => exact .inl ⟨rfl, rfl⟩
  | idle => exact .inr ⟨(fun h => by cases h), rfl⟩
  | ready => exact .inr ⟨(fun h => by cases h), rfl⟩
  | error => exact .inr ⟨(fun h => by cases h), rfl⟩

/-- A step is the engine's, or it performs the head of the agenda. -/
theorem step_cases (s : State) :
    ((s.agenda = [] ∨ ∃ rest, s.agenda = .wait :: rest ∧ s.state = .busy) ∧ step s = engineTick s) ∨
      ∃ a rest, s.agenda = a :: rest ∧ ¬(a = .wait ∧ s.state = .busy) ∧ step s = perform a (setAgenda rest s) := by
  unfold step hostStep
  split
  · next h => exact .inl ⟨.inl h, rfl⟩
  · next a rest h =>
    split
    · next hw =>
      obtain ⟨rfl, hb⟩ := hw
      exact .inl ⟨.inr ⟨rest, h, hb⟩, rfl⟩
    · next hw => exact .inr ⟨a, rest, h, hw, rfl⟩

end Sys2Proof.Machine
end

