-- ==== Sys2Proof/Laws/Pending.lean ====
section
/-! SUPPORT. The laws of the bytes the engine can still get (`State.byteAhead`): what consuming a byte and taking an answered read do
to them; and of the answers the environment still gives (`State.drawAhead`). They are what chunking independence (R106) rests on. -/

namespace Sys2Proof.Machine

/-! ### The window -/

/-- The window cursor and offset move by one byte (R102), with no wrap while a byte is left. -/
theorem consume_inCursor_toNat (s : State) (h : s.inCursor.toNat < s.inFilled.toNat) :
    (consume s).inCursor.toNat = s.inCursor.toNat + 1 := by
  have := s.inFilled.isLt
  rw [consume_inCursor, BitVec.toNat_add]
  simp
  omega

/-- The byte at the cursor is the first of what the window still holds; the rest is what it holds after the byte. -/
theorem windowRest_consume (s : State) (b : Byte) (h : s.inCursor.toNat < s.inFilled.toNat)
    (hb : s.win.read s.inCursor.toNat = some b) : s.windowRest = b :: (consume s).windowRest := by
  unfold State.windowRest
  rw [consume_inCursor_toNat s h, consume_inFilled, consume_win]
  rw [show s.inFilled.toNat - s.inCursor.toNat = (s.inFilled.toNat - (s.inCursor.toNat + 1)) + 1 by omega,
    List.range'_succ, List.filterMap_cons, hb]

/-- The first `n` entries of a list, read one by one. -/
theorem filterMap_getElem (l : List Byte) : (List.range l.length).filterMap (fun i => l[i]?) = l := by
  induction l using List.reverseRecOn with
  | nil => rfl
  | append_singleton l a ih =>
    rw [List.length_append, List.length_singleton, List.range_succ, List.filterMap_append]
    congr 1
    · rw [List.filterMap_congr (g := fun i => l[i]?)]
      · exact ih
      · intro i hi
        simp at hi
        simp [List.getElem?_append_left hi]
    · simp

/-- After an answered read the window holds what was delivered (R103). -/
theorem windowRest_takeBytes (extra : Byte) (s : State) :
    (takeBytes extra s).windowRest = s.upcoming.take (delivered extra s.upcoming) := by
  obtain ⟨hl, hc, _⟩ := delivered_bounds extra s.upcoming
  simp only [Config.winCap] at hc
  have hn : (BitVec.ofNat 9 (delivered extra s.upcoming)).toNat = delivered extra s.upcoming := by simp; omega
  have hlen : (s.upcoming.take (delivered extra s.upcoming)).length = delivered extra s.upcoming := by simp; omega
  unfold State.windowRest
  simp only [takeBytes_inCursor, takeBytes_inFilled, takeBytes_win, hn]
  generalize s.upcoming.take (delivered extra s.upcoming) = l at hlen
  rw [← hlen, show ((0 : BitVec 9)).toNat = 0 from rfl, Nat.sub_zero, ← List.range_eq_range']
  rw [List.filterMap_congr (g := fun i => l[i]?)]
  · exact filterMap_getElem l
  · intro i hi
    simp at hi
    rw [Memory.read_writeAll, if_pos (by omega), Nat.sub_zero]

/-! ### The pending bytes -/

/-- A consumed byte is the first of the pending bytes. -/
theorem pendingTo_consume (n : Nat) (s : State) (b : Byte) (h : s.inCursor.toNat < s.inFilled.toNat)
    (hb : s.win.read s.inCursor.toNat = some b) : s.pendingTo n = b :: (consume s).pendingTo n := by
  unfold State.pendingTo
  rw [windowRest_consume s b h hb]
  rfl

/-- An emptied window leaves the undelivered stream, if it has not ended. -/
theorem pendingTo_emptied (n : Nat) (s : State) (h : s.inCursor = s.inFilled) :
    s.pendingTo n = if s.eos then [] else s.stream ++ (List.replicate n s.streamCycle).flatten := by
  unfold State.pendingTo State.windowRest
  rw [h]
  simp

/-- An answered read gives and takes no byte: what was undelivered is now pending (R103, R104). -/
theorem pendingTo_takeBytes (n : Nat) (extra : Byte) (s : State) (h : s.eos = false) :
    (takeBytes extra s).pendingTo n = s.upcoming ++ (List.replicate n s.streamCycle).flatten := by
  obtain ⟨_, _, h0⟩ := delivered_bounds extra s.upcoming
  unfold State.pendingTo
  rw [windowRest_takeBytes]
  by_cases hs : s.upcoming = []
  · simp [hs, ((upcoming_eq_nil s).1 hs).2]
  · have hne : delivered extra s.upcoming ≠ 0 := fun he => hs (h0.1 he)
    simp only [takeBytes_eos, h, Bool.false_or, beq_iff_eq, hne, if_false, takeBytes_stream, takeBytes_streamCycle]
    rw [← List.append_assoc, List.take_append_drop]

/-- Further rounds of the cycle come after the pending bytes. -/
theorem pendingTo_add (n m : Nat) (s : State) : ∃ more, s.pendingTo (n + m) = s.pendingTo n ++ more ∧ (s.streamCycle = [] → more = []) := by
  unfold State.pendingTo
  split
  · exact ⟨[], by simp, fun _ => rfl⟩
  · refine ⟨(List.replicate m s.streamCycle).flatten, ?_, fun h => by simp [h]⟩
    rw [← List.replicate_append_replicate, List.flatten_append, List.append_assoc, List.append_assoc]

/-- Without a cycle, or with as many rounds as there are places, the rounds do not matter to the byte at a place. -/
theorem pendingTo_getElem (n i : Nat) (s : State) (h : i < n) : (s.pendingTo n)[i]? = s.byteAhead i := by
  unfold State.byteAhead
  obtain ⟨more, hm, hc⟩ := pendingTo_add (i + 1) (n - (i + 1)) s
  rw [show i + 1 + (n - (i + 1)) = n by omega] at hm
  rw [hm]
  by_cases hl : i < (s.pendingTo (i + 1)).length
  · rw [List.getElem?_append_left hl]
  · have hnil : more = [] := by
      by_cases he : s.eos = true
      · have h0 : s.pendingTo n = s.pendingTo (i + 1) := by simp [State.pendingTo, he]
        rw [h0] at hm
        exact List.append_right_eq_self.1 hm.symm
      · refine hc (List.eq_nil_of_length_eq_zero ?_)
        have : (i + 1) * s.streamCycle.length ≤ i := by
          have h1 : (s.pendingTo (i + 1)).length ≤ i := Nat.le_of_not_lt hl
          simp only [State.pendingTo, he, if_false, List.length_append, List.length_flatten, List.map_replicate,
            List.sum_replicate, smul_eq_mul, Bool.false_eq_true] at h1
          omega
        by_contra hne
        have := Nat.le_mul_of_pos_right (i + 1) (Nat.pos_of_ne_zero hne)
        omega
    rw [hnil, List.append_nil]

/-- A consumed byte is the first of the bytes ahead; the others move up by one place (R106). -/
theorem byteAhead_consume (s : State) (b : Byte) (h : s.inCursor.toNat < s.inFilled.toNat)
    (hb : s.win.read s.inCursor.toNat = some b) :
    s.byteAhead 0 = some b ∧ ∀ i, s.byteAhead (i + 1) = (consume s).byteAhead i := by
  constructor
  · unfold State.byteAhead
    rw [pendingTo_consume _ s b h hb]
    rfl
  · intro i
    rw [← pendingTo_getElem (i + 2) (i + 1) s (by omega), ← pendingTo_getElem (i + 2) i (consume s) (by omega),
      pendingTo_consume _ s b h hb]
    rfl

/-- With the window emptied at the end of the stream no byte is ahead. -/
theorem byteAhead_ended (s : State) (h : s.inCursor = s.inFilled) (he : s.eos = true) (i : Nat) : s.byteAhead i = none := by
  unfold State.byteAhead
  rw [pendingTo_emptied _ s h, he]
  rfl

/-- An answered read moves no byte ahead (R103, R106). -/
theorem byteAhead_takeBytes (extra : Byte) (s : State) (h : s.inCursor = s.inFilled) (he : s.eos = false) (i : Nat) :
    (takeBytes extra s).byteAhead i = s.byteAhead i := by
  obtain ⟨k, hk⟩ := upcoming_eq s
  rw [← pendingTo_getElem (i + 1) i _ (by omega), ← pendingTo_getElem (k + (i + 1)) i s (by omega),
    pendingTo_takeBytes _ _ _ he, pendingTo_emptied _ s h, he, if_neg Bool.false_ne_true, hk,
    ← List.replicate_append_replicate (n := k), List.flatten_append, List.append_assoc]

/-! ### The answers to come -/

/-- The next draw is the first of the draws ahead, and the others move up by one place. -/
theorem drawAhead_cases (s : State) :
    (s.nextDraw = none ∧ ∀ i, s.drawAhead i = none) ∨
      ∃ d rest, s.nextDraw = some (d, rest) ∧ s.drawAhead 0 = some d ∧
        ∀ i, (setDraws rest s).drawAhead i = s.drawAhead (i + 1) := by
  unfold State.drawAhead
  rcases nextDraw_cases s with ⟨hd, hc, hn⟩ | ⟨d, rest, hd, hn⟩ | ⟨d, rest, hd, hc, hn⟩
  · exact .inl ⟨hn, fun i => by simp [hd, hc]⟩
  · refine .inr ⟨d, rest, hn, by simp [hd], fun i => ?_⟩
    simp only [setDraws_draws, setDraws_drawCycle, hd, List.cons_append, List.getElem?_cons_succ]
    by_cases hi : i < (rest ++ (List.replicate (i + 1) s.drawCycle).flatten).length
    · rw [List.replicate_succ' (n := i + 1), List.flatten_append, ← List.append_assoc, List.getElem?_append_left hi]
    · have hnil : s.drawCycle = [] := by
        refine List.eq_nil_of_length_eq_zero ?_
        by_contra hne
        have := Nat.le_mul_of_pos_right (i + 1) (Nat.pos_of_ne_zero hne)
        simp at hi
        omega
      simp [hnil]
  · exact .inr ⟨d, rest, hn, by simp [hd, hc], fun i => by simp [hd, hc, List.replicate_succ]⟩

/-- If the next `n + 1` reads are answered with bytes, so are the next one and the `n` after it. -/
theorem answers_succ (s : State) (n : Nat) (h : s.answers (n + 1)) :
    ∃ extra rest, s.nextDraw = some (.bytes extra, rest) ∧ (setDraws rest s).answers n := by
  have h0 := h 0 (by omega)
  rcases drawAhead_cases s with ⟨_, hnone⟩ | ⟨d, rest, hn, hd, hr⟩
  · exact absurd (hnone 0) h0.1
  · cases d with
    | ioErr => exact absurd hd h0.2
    | bytes extra => exact ⟨extra, rest, hn, fun i hi => by rw [hr i]; exact h (i + 1) (by omega)⟩

/-- Reads answered with bytes further ahead are answered with bytes nearer. -/
theorem answers_mono {s : State} {m n : Nat} (h : s.answers n) (hm : m ≤ n) : s.answers m :=
  fun i hi => h i (by omega)

/-- Draws that all are bytes, enough of them or with a cycle, answer every read. -/
theorem answers_of_bytes (s : State) (n : Nat) (h : ∀ d, d ∈ s.draws ++ s.drawCycle → d ≠ .ioErr)
    (hn : n ≤ s.draws.length ∨ s.drawCycle ≠ []) : s.answers n := by
  intro i hi
  have hlt : i < (s.draws ++ (List.replicate (i + 1) s.drawCycle).flatten).length := by
    rcases hn with hn | hn
    · simp
      omega
    · have := Nat.le_mul_of_pos_right (i + 1) (List.length_pos_iff.2 hn)
      simp
      omega
  unfold State.drawAhead
  rw [List.getElem?_eq_getElem hlt]
  refine ⟨by simp, fun he => h .ioErr ?_ rfl⟩
  have hmem := List.getElem_mem hlt
  rw [Option.some.inj he] at hmem
  simpa using hmem

end Sys2Proof.Machine
end

