-- ==== Sys2Proof/Laws/PerInstr.lean ====
section
/-! SUPPORT. A law of every instruction's encoding, one lemma per constructor. -/

namespace Sys2Proof.Laws

/-- The shape of a well-formed instruction's encoding: a stream code's first byte tells its length (R81), and a command word has
no reserved bit set and a defined code (R84, R85). -/
def EncodedLength.Statement (i : Instr) : Prop :=
  i.wellFormed = true →
    match encode i with
    | .stream bytes => ∃ b rest, bytes = b :: rest ∧ rest.length = if isMarker b then 1 else 0
    | .ctrl w => resField w = 0 ∧ (cmdField w).toNat < 5

/-- The encoding of a byte whose tag is not 11 is that byte alone. -/
theorem EncodedLength.ofTag (v : Byte) (h : tagOf v ≠ 3#2) :
    ∃ b rest, [v] = b :: rest ∧ rest.length = if isMarker b then 1 else 0 := by
  have hm : isMarker v = false := by
    cases hv : isMarker v with
    | false => rfl
    | true => exact absurd ((isMarker_iff_tag v).1 hv) h
  exact ⟨v, [], rfl, by simp [hm]⟩

theorem EncodedLength.lit00 (v : Byte) : EncodedLength.Statement (.lit00 v) := by
  intro h
  have ht : tagOf v = 0#2 := by simpa using h
  exact EncodedLength.ofTag v (by rw [ht]; decide)

theorem EncodedLength.lit01 (v : Byte) : EncodedLength.Statement (.lit01 v) := by
  intro h
  have ht : tagOf v = 1#2 := by simpa using h
  exact EncodedLength.ofTag v (by rw [ht]; decide)

theorem EncodedLength.lit10 (v : Byte) : EncodedLength.Statement (.lit10 v) := by
  intro h
  have ht : tagOf v = 2#2 := by simpa using h
  exact EncodedLength.ofTag v (by rw [ht]; decide)

theorem EncodedLength.run (len : BitVec 6) (v : Byte) : EncodedLength.Statement (.run len v) :=
  fun _ => ⟨markerOf len, [v], rfl, by simp⟩

theorem EncodedLength.nop : EncodedLength.Statement .nop :=
  fun _ => show resField 0#32 = 0 ∧ (cmdField 0#32).toNat < 5 by decide

theorem EncodedLength.start : EncodedLength.Statement .start :=
  fun _ => show resField 1#32 = 0 ∧ (cmdField 1#32).toNat < 5 by decide

theorem EncodedLength.packRow : EncodedLength.Statement .packRow :=
  fun _ => show resField 2#32 = 0 ∧ (cmdField 2#32).toNat < 5 by decide

theorem EncodedLength.decodeRun : EncodedLength.Statement .decodeRun :=
  fun _ => show resField 3#32 = 0 ∧ (cmdField 3#32).toNat < 5 by decide

theorem EncodedLength.fillScanline : EncodedLength.Statement .fillScanline :=
  fun _ => show resField 4#32 = 0 ∧ (cmdField 4#32).toNat < 5 by decide

end Sys2Proof.Laws
end

