-- ==== Sys2Proof/Laws/Run.lean ====
section
/-! SUPPORT. The laws of runs: how steps compose, and when a step is the engine's. -/

namespace Sys2Proof.Machine

@[simp] theorem runSteps_zero (s : State) : runSteps 0 s = .next s := rfl

/-- A run of `n + 1` steps is a step and a run of `n` steps, stopping where the step stops. -/
theorem runSteps_succ (n : Nat) (s : State) :
    runSteps (n + 1) s =
      match step s with
      | .next t => runSteps n t
      | .fault f => .fault f
      | .refused r => .refused r := rfl

/-- `runSteps` is the host's run of the machine. -/
theorem runSteps_eq_run (n : Nat) (s : State) : runSteps n s = Host.Core.run Sys2Proof.core n s := by
  induction n generalizing s with
  | zero => rfl
  | succ n ih =>
    have e := Host.Core.run.eq_def Sys2Proof.core (n + 1) s
    cases hs : step s with
    | next t =>
      have h : Sys2Proof.core.step s = .next t := hs
      rw [runSteps_succ, hs]
      simp only [h] at e
      exact (ih t).trans e.symm
    | fault f =>
      have h : Sys2Proof.core.step s = .fault f := hs
      rw [runSteps_succ, hs]
      simp only [h] at e
      exact e.symm
    | refused r =>
      have h : Sys2Proof.core.step s = .refused r := hs
      rw [runSteps_succ, hs]
      simp only [h] at e
      exact e.symm

/-- The first step of a run goes on. -/
theorem runSteps_step {s t : State} (n : Nat) (h : step s = .next t) : runSteps (n + 1) s = runSteps n t := by
  rw [runSteps_succ, h]

/-- Runs compose. -/
theorem runSteps_add {s t : State} (a b : Nat) (h : runSteps a s = .next t) : runSteps (a + b) s = runSteps b t := by
  induction a generalizing s with
  | zero =>
    rw [runSteps_zero] at h
    injection h with h
    subst h
    rw [Nat.zero_add]
  | succ a ih =>
    rw [show a + 1 + b = a + b + 1 by omega, runSteps_succ]
    rw [runSteps_succ] at h
    cases hs : step s with
    | next s1 => rw [hs] at h; exact ih h
    | fault f => rw [hs] at h; cases h
    | refused r => rw [hs] at h; cases h

/-- With nothing left for the host to do, a step of a BUSY block is the engine's micro-step. -/
theorem step_engine (s : State) (hb : s.state = .busy) (ha : s.agenda = []) : step s = microStep s := by
  unfold step hostStep engineTick
  rw [ha, hb]

/-- A step of an agenda whose head is no WAIT performs the head. -/
theorem step_perform (s : State) (a : HostAct) (rest : List HostAct) (ha : s.agenda = a :: rest) (hw : a ≠ .wait) :
    step s = perform a (setAgenda rest s) := by
  unfold step hostStep
  rw [ha]
  simp only [if_neg (fun h : a = .wait ∧ s.state = .busy => hw h.1)]

end Sys2Proof.Machine
end

