-- ==== Sys2Proof/Tests/Slice0.lean ====
section
/-! SUPPORT. Tests of one step each, with results from the spec's examples and vectors or computed by hand from its rules, and for
every statement with hypotheses a concrete state and operands that meet them. -/

namespace Sys2Proof.Tests

open Sys2Proof Sys2Proof.Machine

/-! ### Well-formedness: each check refuses an ill-formed term (R80, R89) -/

theorem test_lit00_rejects_tag_01 : (Instr.lit00 0x40#8).wellFormed = false := by decide
theorem test_lit01_rejects_tag_10 : (Instr.lit01 0x80#8).wellFormed = false := by decide
theorem test_lit10_rejects_marker : (Instr.lit10 0xC0#8).wellFormed = false := by decide
theorem test_asmLit_rejects_marker : asmLit 0xC0#8 = none := by decide

/-! ### Decoding: words written out bit by bit from R80 and R85 -/

theorem test_decode_lit00 : decodeStream [0b00000101#8] = .ok (.lit00 0x05#8, []) := by decide
theorem test_decode_lit01 : decodeStream [0b01000000#8] = .ok (.lit01 0x40#8, []) := by decide
theorem test_decode_lit10 : decodeStream [0b10111111#8] = .ok (.lit10 0xBF#8, []) := by decide
theorem test_decode_run : decodeStream [0b11000011#8, 0b00001010#8] = .ok (.run 3#6 0x0A#8, []) := by decide
/-- The value byte of a RUN is no marker, and a length of 0 is a length (R81, R82). -/
theorem test_decode_run_zero : decodeStream [0xC0#8, 0xFF#8, 0x05#8] = .ok (.run 0#6 0xFF#8, [0x05#8]) := by decide
theorem test_decode_nop : decodeCommand 0b0000#32 = .ok .nop := by decide
theorem test_decode_start : decodeCommand 0b0001#32 = .ok .start := by decide
theorem test_decode_packRow : decodeCommand 0b0010#32 = .ok .packRow := by decide
theorem test_decode_decodeRun : decodeCommand 0b0011#32 = .ok .decodeRun := by decide
theorem test_decode_fillScanline : decodeCommand 0b0100#32 = .ok .fillScanline := by decide
/-- R86: a reserved code, and a defined code with a reserved bit set. -/
theorem test_decode_reserved_code : decodeCommand 5#32 = .error (.reservedCommand 5#32) := by decide
theorem test_decode_reserved_bit : decodeCommand 0x00000011#32 = .error (.reservedCommand 0x00000011#32) := by decide
/-- The opcode table's rows: bit 0 is the lowest bit of the first byte. -/
theorem test_table_lit01 : decodeTableWord 8 0x7F = some (.lit01 0x7F#8) := by decide
theorem test_table_run : decodeTableWord 16 0x0AC3 = some (.run 3#6 0x0A#8) := by decide
theorem test_table_fillScanline : decodeTableWord 32 0x00000004 = some .fillScanline := by decide

/-! ### States -/

/-- READY after a START of width `w` whose prime delivered `bytes`, with `rest` still in the stream. -/
def readyWith (w : Word) (bytes rest : List Byte) : State :=
  { State.reset with
    state := .ready, win := Memory.writeAll [] 0 bytes, inFilled := BitVec.ofNat 9 bytes.length
    eos := bytes.isEmpty, refillCount := 1#32, widthReg := w, latchedW := w, slCursor := w
    stream := rest, draws := [.bytes 255#8, .bytes 255#8, .bytes 255#8] }

/-- The first micro-step of DECODE_RUN on those bytes. -/
def decodingWith (bytes rest : List Byte) : State :=
  { readyWith 8#32 bytes rest with state := .busy, curCmd := some .decodeRun, micro := .code }

/-- The first micro-step of FILL_SCANLINE on those bytes. -/
def fillingWith (bytes rest : List Byte) : State :=
  { readyWith 8#32 bytes rest with state := .busy, curCmd := some .fillScanline, micro := .code, slCursor := 0#32 }

/-- Eight assembled pixels of width 8, as FILL_SCANLINE leaves them. -/
def scanOfEight : Memory := Memory.writeAll [] 0 [0x00#8, 0x01#8, 0x02#8, 0x03#8, 0x04#8, 0x05#8, 0x06#8, 0x07#8]

/-- PACK_ROW about to read the first pixel of that scanline. -/
def packing : State :=
  { readyWith 8#32 [0xC3#8, 0x0A#8, 0x05#8] [] with
    state := .busy, curCmd := some .packRow, scan := scanOfEight, slCursor := 0#32, micro := .pixels [] }

/-- DECODE_RUN on those bytes, the first of them a RUN's value byte whose marker, at offset 0, has been consumed. -/
def valueWith (len : BitVec 6) (bytes rest : List Byte) : State :=
  { decodingWith bytes rest with micro := .value len 0#32, inOffset := 1#32 }

/-- The window emptied, a refill outstanding. -/
def refilling : State :=
  { decodingWith [0x05#8] [] with
    micro := .refill (.latch 0x05#8 1#6 0#32), reqPending := true, inCursor := 1#9, inOffset := 1#32 }

/-- What the host does next. -/
def withHost (a : HostAct) (s : State) : State := { s with agenda := [a] }

/-! ### One step of each instruction -/

/-- A next state, seen through `f`. -/
def nextIs {α : Type} [BEq α] (o : Result) (f : State → α) (v : α) : Bool :=
  match o with
  | .next t => f t == v
  | .fault _ => false
  | .refused _ => false

/-- L1-2 in a longer stream: run (0x05, 1), one byte consumed. -/
theorem test_lit00_latches :
    nextIs (exec (.lit00 0x05#8) (decodingWith [0x05#8, 0xC3#8] []))
      (fun t => (t.runValue, t.runLength, t.inCursor, t.inOffset, t.state)) (0x05#8, 1#6, 1#9, 1#32, .ready) = true := by decide
/-- R120: a byte with one high bit set is a literal with all its bits. -/
theorem test_lit01_latches :
    nextIs (exec (.lit01 0x7F#8) (decodingWith [0x7F#8, 0xC3#8] [])) (fun t => (t.runValue, t.runLength)) (0x7F#8, 1#6) =
      true := by decide
theorem test_lit10_latches :
    nextIs (exec (.lit10 0xBF#8) (decodingWith [0xBF#8, 0xC3#8] [])) (fun t => (t.runValue, t.runLength)) (0xBF#8, 1#6) =
      true := by decide
/-- L1-2: the literal that empties the window leaves `next_run()` at its refill, the Run register not yet written (R102, R122). -/
theorem test_lit00_refills :
    nextIs (exec (.lit00 0x05#8) (decodingWith [0x05#8] [])) (fun t => (t.micro, t.runLength, t.state))
      (.refill (.latch 0x05#8 1#6 0#32), 0#6, .busy) = true := by decide
/-- L1-3 in a longer stream: the marker is consumed first, its length and offset kept (R45, R122). -/
theorem test_run_consumes_marker :
    nextIs (exec (.run 3#6 0x0A#8) (decodingWith [0xC3#8, 0x0A#8, 0x05#8] []))
      (fun t => (t.micro, t.runLength, t.inCursor, t.inOffset, t.state)) (.value 3#6 0#32, 0#6, 1#9, 1#32, .busy) = true := by decide
/-- L1-3 in a longer stream: then run (0x0A, 3) is latched, two bytes consumed. -/
theorem test_run_latches :
    nextIs (exec (.run 3#6 0x0A#8) (valueWith 3#6 [0x0A#8, 0x05#8] []))
      (fun t => (t.runValue, t.runLength, t.inCursor, t.inOffset, t.state)) (0x0A#8, 3#6, 1#9, 2#32, .ready) = true := by decide
/-- R141: W = 8, a run of 9 overruns: the error, its offset, the latched run and the cursor where it was. -/
theorem test_run_overrun :
    nextIs (exec (.run 9#6 0x01#8) { fillingWith [0x01#8, 0x05#8] [] with micro := .value 9#6 0#32, inOffset := 1#32 })
      (fun t => (t.state, t.errCode, t.errOffset, t.runLength, t.slCursor, t.inOffset))
      (.error, .runOverrun, 0#32, 9#6, 0#32, 2#32) = true := by decide
/-- R182, R181: NOP in BUSY sets the sticky flag. -/
theorem test_nop_busy : nextIs (exec .nop refilling) (fun t => t.cmdIgnored) true = true := by decide
theorem test_nop_ready : exec .nop (readyWith 8#32 [0x05#8] []) = .next (readyWith 8#32 [0x05#8] []) := rfl
/-- The example of R183, at its acceptance: W = 8, the cursor at W, the prime about to be issued. -/
theorem test_start_accepts :
    nextIs (exec .start { State.reset with widthReg := 8#32 }) (fun t => (t.state, t.latchedW, t.slCursor, t.micro))
      (.busy, 8#32, 8#32, .refill .primed) = true := by decide
/-- R203: the width 12 is no multiple of 8. -/
theorem test_start_dimension :
    nextIs (exec .start { State.reset with widthReg := 12#32 }) (fun t => (t.state, t.errCode, t.latchedW, t.refillCount))
      (.error, .dimension, 12#32, 0#32) = true := by decide
/-- R143, R184: PACK_ROW on a consumed scanline begins with `next_run()` at cursor 0. -/
theorem test_packRow_accepts :
    nextIs (exec .packRow (readyWith 8#32 [0xC8#8, 0x0F#8] [])) (fun t => (t.state, t.curCmd, t.slCursor, t.micro))
      (.busy, some .packRow, 0#32, .code) = true := by decide
/-- R188: a command before START. -/
theorem test_packRow_idle :
    nextIs (exec .packRow State.reset) (fun t => (t.state, t.errCode, t.errOffset)) (.error, .sequence, 0#32) = true := by decide
theorem test_decodeRun_accepts :
    nextIs (exec .decodeRun (readyWith 8#32 [0xC0#8, 0x07#8] [])) (fun t => (t.state, t.curCmd, t.slCursor, t.micro))
      (.busy, some .decodeRun, 8#32, .code) = true := by decide
/-- R181: ignored in ERROR. -/
theorem test_decodeRun_error :
    nextIs (exec .decodeRun { State.reset with state := .error, errCode := .sequence })
      (fun t => (t.state, t.errCode, t.cmdIgnored)) (.error, .sequence, true) = true := by decide
/-- R186: unconditional, also where an assembled scanline is not yet packed. -/
theorem test_fillScanline_accepts :
    nextIs (exec .fillScanline { readyWith 8#32 [0xC4#8, 0xAA#8] [] with scan := scanOfEight, slCursor := 0#32 })
      (fun t => (t.state, t.curCmd, t.slCursor, t.micro)) (.busy, some .fillScanline, 0#32, .code) = true := by decide

/-! ### The operations -/

/-- The example of R160. -/
theorem test_plane_bytes :
    [planeByte [0, 1, 2, 3, 4, 5, 6, 7] 0, planeByte [0, 1, 2, 3, 4, 5, 6, 7] 1, planeByte [0, 1, 2, 3, 4, 5, 6, 7] 2,
      planeByte [0, 1, 2, 3, 4, 5, 6, 7] 3] = [0x55#8, 0x33#8, 0x0F#8, 0x00#8] := by decide
/-- L1-2: the words of STATUS, WIN_STATE and RUN after it: READY; IN_CURSOR 0, IN_FILLED 0, EOS 1; (0x05, 1). -/
theorem test_register_words :
    let s := { readyWith 8#32 [] [] with runValue := 0x05#8, runLength := 1#6 }
    (statusWord s, winStateWord s, runWord s) = (0x00000001#32, 0x80000000#32, 0x00000105#32) := by decide
/-- R103: an answer of ten bytes replaces the window, and the stream goes on after them. -/
theorem test_answer_delivers :
    nextIs (step { refilling with stream := [0xC3#8, 0x0A#8, 0x05#8], draws := [.bytes 1#8] })
      (fun t => (t.inFilled, t.inCursor, t.win.read 1, t.stream, t.runValue)) (2#9, 0#9, some 0x0A#8, [0x05#8], 0x05#8) = true := by
  decide
/-- R104, N10: a stream that repeats itself never runs dry. -/
theorem test_unroll_cycle : unroll 3 [0x05#8] [0xC0#8, 0x07#8] = [0x05#8, 0xC0#8, 0x07#8, 0xC0#8, 0x07#8, 0xC0#8, 0x07#8] := by
  decide
/-- A read after the listed draws takes the first of their cycle. -/
theorem test_next_draw_of_cycle :
    ({ refilling with draws := [], drawCycle := [.bytes 2#8, .ioErr] }).nextDraw = some (.bytes 2#8, [.ioErr]) := by decide
/-- R204. -/
theorem test_answer_fails :
    nextIs (step { refilling with draws := [.ioErr] }) (fun t => (t.state, t.errCode, t.errOffset, t.inCursor, t.runLength))
      (.error, .streamIo, 1#32, 1#9, 0#6) = true := by decide
/-- R241: reset while a read is outstanding. -/
theorem test_reset_abandons :
    nextIs (step (withHost .reset refilling)) (fun t => (t.state, t.reqPending, t.abandoned)) (.idle, false, 1) = true := by decide
/-- R63: a read at the capacity of `win` is refused. -/
theorem test_bufRead_refused : step (withHost (.bufRead .win 256) State.reset) = .refused (.noSuchByte .win 256) := rfl
/-- R69: `scan[x]` is pixel x. -/
theorem test_bufRead_scan :
    nextIs (step (withHost (.bufRead .scan 7) { packing with state := .ready })) (fun t => t.bufData) 0x07#8 = true := by decide
/-- R90: `REP 0x05, 64` is `RUN 63` and `LIT`; `REP 0xC1, 64` is `RUN 63` and `RUN 1`. -/
theorem test_rep : (assemble (asmRep 0x05#8 64), assemble (asmRep 0xC1#8 64)) =
    ([0xFF#8, 0x05#8, 0x05#8], [0xFF#8, 0xC1#8, 0xC1#8, 0xC1#8]) := by decide
/-- R91: a command is a CTRL write of its code. -/
theorem test_hostCommand : hostCommand .packRow = [.write 0#4 2#32] := by decide
/-- A placed opcode-table word is what the next step runs; of a RUN its marker is consumed first. -/
theorem test_withFetchWord_run :
    nextIs (step (State.reset.withFetchWord 16 0x0AC3)) (fun t => (t.inOffset, t.micro))
      (1#32, .value 3#6 0#32) = true := by decide
theorem test_withFetchWord_lit :
    nextIs (step (State.reset.withFetchWord 8 0x05)) (fun t => (t.runValue, t.runLength, t.inOffset)) (0x05#8, 1#6, 1#32) =
      true := by decide
theorem test_withFetchWord_start :
    nextIs (step (State.reset.withFetchWord 32 1)) (fun t => (t.state, t.errCode)) (.error, .dimension) = true := by decide

/-! ### States that keep the invariant -/

/-- What a prime leaves in the window. -/
theorem window_read (bytes : List Byte) (i : Nat) : (Memory.writeAll [] 0 bytes).read i = bytes[i]? := by
  rw [Memory.read_writeAll]
  by_cases h : i < bytes.length
  · rw [if_pos ⟨Nat.zero_le i, by omega⟩, Nat.sub_zero]
  · rw [if_neg (by omega), List.getElem?_eq_none (by omega)]
    rfl

/-- READY after START keeps the invariant. -/
theorem readyWith_inv (w : Word) (bytes rest : List Byte) (hl : bytes.length ≤ 256) (hw : legalWidth 65536 w = true) :
    (readyWith w bytes rest).Inv := by
  have hn : (BitVec.ofNat 9 bytes.length).toNat = bytes.length := by simp; omega
  refine ⟨Memory.writeAll_wf bytes [] 0 rfl, rfl, rfl, ?_, fun _ _ => rfl, fun _ _ => rfl, ?_, ?_, ?_, ?_, ?_, ?_, ?_, ?_, ?_,
    fun _ => hw, fun _ => ⟨?_, .inl rfl⟩, trivial⟩
  · intro i hi
    simp only [Config.winCap] at hi
    simp only [readyWith, window_read]
    exact List.getElem?_eq_none (by omega)
  · exact (by decide : Config.legalMaxWidth 65536)
  · show (BitVec.ofNat 9 bytes.length).toNat ≤ 256
    omega
  · exact Nat.zero_le _
  · intro i hi
    simp only [readyWith, hn] at hi
    simp [readyWith, window_read, hi]
  · intro he
    have h0 : bytes = [] := by simpa [readyWith] using he
    simp [readyWith, h0]
  · simp [readyWith, State.reset]
  · simp [readyWith, State.reset]
  · simp [readyWith, State.reset]
  · simp [readyWith, State.reset]
  · unfold WindowReady
    simp only [readyWith, hn]
    cases bytes with
    | nil => exact .inr ⟨rfl, rfl, rfl⟩
    | cons b bs => exact .inl (by simp [State.reset])

/-- A legal width, and three bytes in the window of which the first two are a RUN. -/
def threeBytes : State := readyWith 8#32 [0xC3#8, 0x0A#8, 0x05#8] []

theorem threeBytes_inv : threeBytes.Inv := readyWith_inv _ _ _ (by decide) (by decide)

/-- The three bytes, and the end of the stream after them. -/
theorem threeBytes_ends : threeBytes.endsAfter [0xC3#8, 0x0A#8, 0x05#8] := ⟨by decide, by decide⟩

theorem threeBytes_answers : threeBytes.answers 3 := by decide

/-- The same bytes ahead, one of them in the window. -/
theorem oneByte_inv : (readyWith 8#32 [0xC3#8] [0x0A#8, 0x05#8]).Inv := readyWith_inv _ _ _ (by decide) (by decide)

theorem oneByte_answers : (readyWith 8#32 [0xC3#8] [0x0A#8, 0x05#8]).answers 3 := by decide

/-- A stream of zero-length runs without end, answered byte by byte without end (R189, N10). -/
def zeroRuns : State :=
  { readyWith 8#32 [0xC0#8] [0x05#8] with streamCycle := [0xC0#8, 0x05#8], draws := [], drawCycle := [.bytes 0#8] }

theorem zeroRuns_inv : zeroRuns.Inv := { readyWith_inv 8#32 [0xC0#8] [0x05#8] (by decide) (by decide) with }

theorem zeroRuns_answers (n : Nat) : zeroRuns.answers n :=
  answers_of_bytes _ _ (by decide) (.inr (by decide))

/-- Every other byte of rounds of two bytes is the first of them. -/
theorem rounds_even (a b : Byte) (n i : Nat) (h : i < n) : (List.replicate n [a, b]).flatten[2 * i]? = some a := by
  induction n generalizing i with
  | zero => omega
  | succ n ih =>
    rw [List.replicate_succ, List.flatten_cons]
    cases i with
    | zero => rfl
    | succ i =>
      rw [List.getElem?_append_right (by simp), show 2 * (i + 1) - [a, b].length = 2 * i from by simp [Nat.mul_add]]
      exact ih i (by omega)

theorem zeroRuns_markers (i : Nat) : zeroRuns.byteAhead (2 * i) = some 0xC0#8 := by
  have h : zeroRuns.pendingTo (2 * i + 1) = (List.replicate (2 * i + 2) [0xC0#8, 0x05#8]).flatten := rfl
  unfold State.byteAhead
  rw [h]
  exact rounds_even _ _ _ _ (by omega)

/-- READY at the end of the stream. -/
theorem ended_inv : (readyWith 8#32 [] []).Inv := readyWith_inv _ _ _ (by decide) (by decide)

/-- READY after FILL_SCANLINE: the cursor at 0, the scanline assembled. -/
def filled : State := { threeBytes with scan := scanOfEight, slCursor := 0#32 }

theorem scanOfEight_full (i : Nat) (h : i < 8) : (scanOfEight.read i).isSome = true := by
  simp only [scanOfEight, window_read]
  simp [h]

theorem scanOfEight_below (i : Nat) (h : 65536 ≤ i) : scanOfEight.read i = none := by
  simp only [scanOfEight, window_read]
  exact List.getElem?_eq_none (by simp; omega)

theorem filled_inv : filled.Inv :=
  { threeBytes_inv with
    scanWf := rfl
    scanBelow := scanOfEight_below
    boundary := fun _ => ⟨(threeBytes_inv.boundary rfl).1, .inr ⟨rfl, scanOfEight_full⟩⟩ }

theorem filled_answers : filled.answers 3 := by decide

theorem packing_inv : packing.Inv :=
  { filled_inv with
    errorCode := by decide
    command := by decide
    quiet := by decide
    request := fun h => by cases h
    latched := fun _ => by decide
    boundary := fun h => by cases h
    position := ⟨(threeBytes_inv.boundary rfl).1, rfl, scanOfEight_full, by decide, by decide, by decide, by decide⟩ }

/-- PACK_ROW about to write the last plane byte of its first column. -/
def planing : State :=
  { packing with micro := .plane 3 [0, 1, 2, 3, 4, 5, 6, 7], slCursor := 8#32 }

theorem planing_inv : planing.Inv :=
  { packing_inv with
    errorCode := by decide
    command := by decide
    quiet := by decide
    request := fun h => by cases h
    latched := fun _ => by decide
    boundary := fun h => by cases h
    position := ⟨(threeBytes_inv.boundary rfl).1, rfl, scanOfEight_full, by decide, by decide, by decide, by decide, by decide⟩ }

theorem refilling_inv : refilling.Inv :=
  { readyWith_inv 8#32 [0x05#8] [] (by decide) (by decide) with
    cursorRange := by decide
    errorCode := by decide
    command := by decide
    quiet := by decide
    request := fun _ => ⟨_, rfl⟩
    latched := fun _ => by decide
    boundary := fun h => by cases h
    position := ⟨⟨rfl, rfl⟩, .inl rfl⟩ }

/-- ERROR after a START of width 12. -/
def rejected : State := { State.reset with state := .error, errCode := .dimension, widthReg := 12#32, latchedW := 12#32 }

theorem rejected_inv : rejected.Inv :=
  { winWf := rfl, scanWf := rfl, tileWf := rfl
    winBelow := fun _ _ => rfl
    scanBelow := fun _ _ => rfl
    tileBelow := fun _ _ => rfl
    parameter := by decide
    filledRange := by decide
    cursorRange := by decide
    winLive := fun i hi => by simp [rejected, State.reset] at hi
    eosEmpty := by decide
    errorCode := by decide
    command := by decide
    quiet := by decide
    request := fun h => by cases h
    latched := fun h => by rcases h with h | h <;> exact absurd h (by decide)
    boundary := fun h => by cases h
    position := trivial }

/-! ### Witnesses: a concrete state and operands for the hypotheses of each statement -/

/-- Well-formed instructions at the ends of their operands' ranges. -/
theorem witness_DecodeInvertsEncode :
    (Instr.lit00 0x3F#8).wellFormed = true ∧ (Instr.lit01 0x40#8).wellFormed = true ∧ (Instr.lit10 0xBF#8).wellFormed = true ∧
      (Instr.run 63#6 0xFF#8).wellFormed = true ∧ Instr.fillScanline.wellFormed = true := by decide

theorem witness_EncodeInvertsDecode :
    decodeStream [0xFF#8, 0xC0#8, 0x00#8] = .ok (.run 63#6 0xC0#8, [0x00#8]) ∧ decodeCommand 4#32 = .ok .fillScanline := by decide

/-- The last literal and the first marker. -/
theorem witness_CodeLengthFromFirstByte : 0xBF#8 &&& 0xC0#8 ≠ 0xC0#8 ∧ 0xC0#8 &&& 0xC0#8 = 0xC0#8 := by decide

theorem witness_StepRunsWrittenCommand :
    (withHost (.write 0#4 1#32) State.reset).agenda = [.write 0#4 1#32] ∧ decodeCommand 1#32 = .ok .start := ⟨rfl, rfl⟩

theorem witness_StepRunsStreamCode :
    let s := decodingWith [0xC3#8, 0x0A#8, 0x05#8] []
    s.state = .busy ∧ s.micro = .code ∧ s.inCursor ≠ s.inFilled ∧ s.agenda = [] ∧
      decodeStream (fetchBytes s) = .ok (.run 3#6 0x0A#8, []) ∧
      (withHost .wait s).agenda = [.wait] ∧ (withHost .tick s).agenda = [.tick] := by
  refine ⟨rfl, rfl, by decide, rfl, by decide, rfl, rfl⟩

theorem witness_StepRunsStreamCode_value :
    let s := { decodingWith [0x0A#8, 0x05#8] [] with micro := .value 3#6 0#32 }
    s.state = .busy ∧ (∃ len start, s.micro = .value len start) ∧ s.inCursor ≠ s.inFilled ∧
      decodeStream (fetchBytes s) = .ok (.run 3#6 0x0A#8, []) := ⟨rfl, ⟨_, _, rfl⟩, by decide, by decide⟩

theorem witness_FetchReadsAtCursor_last :
    let s := decodingWith [0xC3#8] []
    s.inCursor ≠ s.inFilled ∧ s.win.read s.inCursor.toNat = some 0xC3#8 ∧ s.micro = .code ∧ s.inCursor + 1#9 = s.inFilled := by
  decide

theorem witness_FetchReadsAtCursor_two :
    let s := decodingWith [0xC3#8, 0x0A#8] []
    s.inCursor ≠ s.inFilled ∧ s.win.read s.inCursor.toNat = some 0xC3#8 ∧ s.micro = .code ∧ s.inCursor + 1#9 ≠ s.inFilled ∧
      s.win.read (s.inCursor + 1#9).toNat = some 0x0A#8 := by decide

theorem witness_FetchReadsAtCursor_value :
    let s := { decodingWith [0x0A#8] [] with micro := .value 3#6 0#32 }
    s.inCursor ≠ s.inFilled ∧ s.win.read s.inCursor.toNat = some 0x0A#8 ∧ s.micro = .value 3#6 0#32 := by decide

theorem witness_ResetStepRestoresResetState : (withHost .reset refilling).agenda = [.reset] := rfl

theorem witness_LateAnswerIsDiscarded :
    let s := withHost (.lateAnswer (.bytes 0#8)) { State.reset with abandoned := 1, stream := [0x05#8] }
    s.agenda = [.lateAnswer (.bytes 0#8)] ∧ (withHost (.lateAnswer .ioErr) s).agenda = [.lateAnswer .ioErr] ∧ 0 < s.abandoned := by
  decide

/-- Also the witness of NoEngineAccessFault. -/
theorem witness_EveryStepKeepsInvariant : packing.Inv ∧ ∃ t, step packing = .next t := ⟨packing_inv, _, rfl⟩

/-- A step that writes `tile`, and one that writes the only live byte of `win`. -/
theorem witness_BuffersChangeOnlyInLivePart :
    let s := { refilling with stream := [0x07#8] }
    (planing.Inv ∧ (∀ rest, planing.agenda ≠ .reset :: rest) ∧ ∃ t, step planing = .next t) ∧
      s.Inv ∧ (∀ rest, s.agenda ≠ .reset :: rest) ∧ ∃ t, step s = .next t ∧ t.inFilled = 1#9 ∧ t.win.read 0 = some 0x07#8 :=
  ⟨⟨planing_inv, (fun _ h => by cases h), _, rfl⟩, { refilling_inv with }, (fun _ h => by cases h), _, rfl, by decide, by decide⟩

theorem witness_WindowAtCommandBoundary :
    (threeBytes.Inv ∧ threeBytes.state = .ready ∧ threeBytes.inCursor.toNat < threeBytes.inFilled.toNat) ∧
      ((readyWith 8#32 [] []).Inv ∧ (readyWith 8#32 [] []).state = .ready ∧ (readyWith 8#32 [] []).eos = true) ∧
      (rejected.Inv ∧ rejected.state ≠ .busy ∧ rejected.inCursor = rejected.inFilled ∧ rejected.eos = false) ∧
      (refilling.Inv ∧ refilling.state = .busy ∧ refilling.inCursor = refilling.inFilled ∧ refilling.eos = false) :=
  ⟨⟨threeBytes_inv, by decide⟩, ⟨ended_inv, by decide⟩, ⟨rejected_inv, by decide⟩, ⟨refilling_inv, by decide⟩⟩

theorem witness_ScanlineCursorAtBoundaries :
    (threeBytes.Inv ∧ threeBytes.state = .ready ∧ threeBytes.slCursor = threeBytes.latchedW) ∧
      (filled.Inv ∧ filled.state = .ready ∧ filled.slCursor = 0#32) ∧
      (packing.Inv ∧ packing.curCmd = some .packRow ∧ packing.micro = .pixels []) ∧
      (planing.Inv ∧ planing.curCmd = some .packRow ∧ ∃ p px, planing.micro = .plane p px) :=
  ⟨⟨threeBytes_inv, by decide⟩, ⟨filled_inv, by decide⟩, ⟨packing_inv, by decide⟩, ⟨planing_inv, rfl, _, _, rfl⟩⟩

theorem witness_ParameterNeverChanges : ∃ t, step (withHost .reset packing) = .next t := ⟨_, rfl⟩

/-- One witness for each change: to IDLE, to BUSY, to READY, to ERROR. -/
theorem witness_EngineStateChangePoints :
    (∃ t, step (withHost .reset packing) = .next t ∧ t.state = .idle) ∧
      (∃ t, step (withHost (.write 0#4 4#32) threeBytes) = .next t ∧ t.state = .busy) ∧
      (∃ t, step (decodingWith [0x05#8, 0x06#8] []) = .next t ∧ t.state = .ready) ∧
      (∃ t, step (withHost (.write 0#4 5#32) threeBytes) = .next t ∧ t.state = .error) :=
  ⟨⟨_, rfl, rfl⟩, ⟨_, rfl, rfl⟩, ⟨_, rfl, rfl⟩, ⟨_, rfl, rfl⟩⟩

theorem witness_ErrorLeftOnlyByStartOrReset :
    let s := withHost (.write 0#4 2#32) rejected
    s.state = .error ∧ (∃ t, step s = .next t) ∧ (∀ rest, s.agenda ≠ .reset :: rest) ∧
      (∀ rest, s.agenda ≠ .write 0#4 1#32 :: rest) :=
  ⟨rfl, ⟨_, rfl⟩, (fun _ h => by cases h), (fun _ h => by injection h with h1 _; revert h1; decide)⟩

theorem witness_StreamPositionOnlyAdvances :
    (∃ t, step (decodingWith [0xC3#8, 0x0A#8, 0x05#8] []) = .next t ∧ t.inOffset = 1#32) ∧
      ∃ t, step (withHost .reset (valueWith 3#6 [0x0A#8] [])) = .next t ∧ t.inOffset = 0#32 := ⟨⟨_, rfl, rfl⟩, ⟨_, rfl, rfl⟩⟩

theorem witness_NoReadAfterEndOfStream :
    let s := withHost (.write 0#4 3#32) (readyWith 8#32 [] [])
    s.Inv ∧ s.eos = true ∧ (∃ t, step s = .next t) ∧ (∀ rest, s.agenda ≠ .reset :: rest) ∧
      (∀ rest, s.agenda ≠ .write 0#4 1#32 :: rest) :=
  ⟨{ ended_inv with }, rfl, ⟨_, rfl⟩, (fun _ h => by cases h), (fun _ h => by injection h with h1 _; revert h1; decide)⟩

theorem witness_StreamIsNeverRewound :
    let s := { refilling with stream := [0x05#8, 0x06#8], draws := [.bytes 0#8] }
    (∃ t, step s = .next t ∧ t.stream = [0x06#8]) ∧ ∀ bytes cycle rest, s.agenda ≠ .bind bytes cycle :: rest :=
  ⟨⟨_, rfl, rfl⟩, fun _ _ _ h => by cases h⟩

theorem witness_QuiescentOutsideBusy :
    State.reset.state ≠ .busy ∧ State.reset.agenda = [] ∧ (withHost .tick rejected).state ≠ .busy ∧
      (withHost .tick rejected).agenda = [.tick] := by decide

theorem witness_UnansweredReadWaits :
    let s := { refilling with draws := [] }
    s.state = .busy ∧ s.micro = .refill (.latch 0x05#8 1#6 0#32) ∧ s.reqPending = true ∧ s.draws = [] ∧ s.drawCycle = [] ∧
      s.agenda = [] ∧
      (withHost .wait s).agenda = [.wait] ∧ (withHost .reset s).agenda = [.reset] := by decide

theorem witness_RegisterReadValues :
    (withHost (.read 15#4) threeBytes).agenda = [.read 15#4] ∧ (withHost (.read 15#4) threeBytes).state ≠ .busy := by decide

theorem witness_RegisterReadsWhileBusy :
    (withHost (.read 3#4) refilling).agenda = [.read 3#4] ∧ (withHost (.read 1#4) refilling).agenda = [.read 1#4] ∧
      (withHost (.read 2#4) refilling).agenda = [.read 2#4] ∧ refilling.state = .busy := by decide

theorem witness_RegisterWriteEffects :
    (withHost (.write 2#4 7#32) refilling).agenda = [.write 2#4 7#32] ∧
      (withHost (.write 15#4 7#32) threeBytes).agenda = [.write 15#4 7#32] := by decide

theorem witness_WaitEndsOutsideBusy :
    ((withHost .wait refilling).agenda = [.wait] ∧ refilling.state = .busy) ∧
      ((withHost .wait rejected).agenda = [.wait] ∧ rejected.state ≠ .busy) := by decide

theorem witness_BindingSetsStream :
    (withHost (.bind [0x05#8] [0xC0#8, 0x05#8]) refilling).agenda = [.bind [0x05#8] [0xC0#8, 0x05#8]] := rfl

/-- The clauses at their boundaries: the capacity of each space, the last byte of a live part, and the first index above one. -/
theorem witness_BufferReadPort :
    (256 ≤ 256 ∧ (withHost (.bufRead .win 256) threeBytes).agenda = [.bufRead .win 256]) ∧
      (filled.maxWidth ≤ 65536 ∧ 4 * filled.maxWidth ≤ 262144) ∧
      (2 < threeBytes.inFilled.toNat ∧ threeBytes.state ≠ .busy ∧ threeBytes.win.read 2 = some 0x05#8) ∧
      (7 < filled.latchedW.toNat ∧ filled.scan.read 7 = some 0x07#8) ∧
      (filled.latchedW.toNat ≤ 8 ∧ filled.tile.read 31 = none ∧ 31 < 4 * filled.latchedW.toNat) := by decide

theorem witness_HostCannotWriteBuffers :
    (withHost (.write 0#4 1#32) filled).agenda = [.write 0#4 1#32] ∧ (HostAct.write 0#4 1#32) ≠ .tick ∧
      (HostAct.write 0#4 1#32) ≠ .wait ∧ (HostAct.write 0#4 1#32) ≠ .reset ∧
      ∃ t, step (withHost (.write 0#4 1#32) filled) = .next t :=
  ⟨rfl, by decide, by decide, by decide, _, rfl⟩

theorem witness_IgnoredWriteSetsOnlyFlag :
    ((withHost (.write 0#4 0#32) refilling).agenda = [.write 0#4 0#32] ∧ refilling.state = .busy) ∧
      ((withHost (.write 0#4 2#32) rejected).agenda = [.write 0#4 2#32] ∧ rejected.state = .error ∧ 2#32 ≠ 0#32 ∧ 2#32 ≠ 1#32) := by
  decide

/-- The flag set; kept, by a START ignored in BUSY too; and cleared by reset and by an accepted START. -/
theorem witness_IgnoredWriteSetsOnlyFlag_sticky :
    (∃ t, step (withHost (.write 0#4 2#32) rejected) = .next t ∧ rejected.cmdIgnored = false ∧ t.cmdIgnored = true) ∧
      (∃ t, step (withHost (.write 0#4 1#32) { refilling with cmdIgnored := true }) = .next t ∧ refilling.state = .busy ∧
        ∀ rest, (withHost (.write 0#4 1#32) refilling).agenda ≠ .reset :: rest) ∧
      (∃ t, step (withHost .reset { rejected with cmdIgnored := true }) = .next t) ∧
      ∃ t, step (withHost (.write 0#4 1#32) { rejected with cmdIgnored := true }) = .next t ∧ rejected.state ≠ .busy :=
  ⟨⟨_, rfl, rfl, rfl⟩, ⟨_, rfl, rfl, fun _ h => by cases h⟩, ⟨_, rfl⟩, ⟨_, rfl, by decide⟩⟩

theorem witness_ReservedWordRaisesIllegalCommand :
    (withHost (.write 0#4 5#32) threeBytes).agenda = [.write 0#4 5#32] ∧ 5 ≤ ((5#32).extractLsb' 0 4).toNat ∧
      (16#32).extractLsb' 4 28 ≠ 0#28 ∧ threeBytes.state = .ready ∧ State.reset.state = .idle ∧ refilling.state = .busy ∧
      rejected.state = .error := by decide

theorem witness_SequenceErrorInIdle : State.reset.state = .idle := rfl

theorem witness_NopHasNoEffect : threeBytes.state ≠ .busy ∧ refilling.state = .busy := by decide

/-- The largest width of the largest instance, and a stream that has ended. -/
theorem witness_StartCompletes :
    let s := { rejected with widthReg := 65536#32, draws := [.bytes 255#8] }
    s.state ≠ .busy ∧ s.reqPending = false ∧ s.agenda = [] ∧ s.nextDraw = some (.bytes 255#8, []) ∧ s.widthReg ≠ 0#32 ∧
      s.widthReg.toNat % 8 = 0 ∧ s.widthReg.toNat ≤ s.maxWidth := by decide

theorem witness_StartRejectsIllegalWidth :
    State.reset.state ≠ .busy ∧ State.reset.widthReg = 0#32 ∧ rejected.widthReg.toNat % 8 ≠ 0 ∧
      ({ State.reset with widthReg := 65544#32 }).maxWidth < ({ State.reset with widthReg := 65544#32 }).widthReg.toNat := by decide

theorem witness_FailedReadRaisesStreamIo :
    let s := { refilling with draws := [.ioErr] }
    s.state = .busy ∧ s.micro = .refill (.latch 0x05#8 1#6 0#32) ∧ s.reqPending = true ∧ s.agenda = [] ∧
      s.nextDraw = some (.ioErr, []) := by decide

theorem witness_DecodeRunCompletesOnLiteral :
    let s := readyWith 8#32 [0xBF#8, 0xC0#8] []
    s.state = .ready ∧ s.agenda = [] ∧ s.win.read s.inCursor.toNat = some 0xBF#8 ∧ (0xBF#8).toNat < 0xC0 ∧
      s.inCursor ≠ s.inFilled ∧ s.inCursor + 1#9 ≠ s.inFilled := by decide

/-- The literal is the window's last byte and the stream's; the one read it needs is answered with bytes, the one after it IOERR. -/
theorem witness_DecodeRunCompletesOnLiteral_last :
    let s := { readyWith 8#32 [0x05#8] [] with draws := [.bytes 0#8, .ioErr] }
    s.Inv ∧ s.state = .ready ∧ s.agenda = [] ∧ s.byteAhead 0 = some 0x05#8 ∧ (0x05#8).toNat < 0xC0 ∧ s.answers 1 ∧
      ¬ s.answers 2 :=
  ⟨{ readyWith_inv 8#32 [0x05#8] [] (by decide) (by decide) with }, rfl, rfl, by decide, by decide, by decide, by decide⟩

/-- L1-3: the value byte is the window's last; BS-1: it comes alone in a window of its own. -/
theorem witness_DecodeRunCompletesOnRun_last :
    let s := readyWith 8#32 [0xC3#8, 0x0A#8] []
    let s' := { readyWith 8#32 [0xC3#8] [0x0A#8] with draws := [.bytes 0#8, .bytes 0#8] }
    (s.Inv ∧ s.state = .ready ∧ s.agenda = [] ∧ s.byteAhead 0 = some 0xC3#8 ∧ 0xC0 ≤ (0xC3#8).toNat ∧
        s.byteAhead 1 = some 0x0A#8 ∧ s.answers 2) ∧
      (s'.Inv ∧ s'.state = .ready ∧ s'.agenda = [] ∧ s'.byteAhead 0 = some 0xC3#8 ∧ s'.byteAhead 1 = some 0x0A#8 ∧ s'.answers 2) :=
  ⟨⟨readyWith_inv _ _ _ (by decide) (by decide), rfl, rfl, by decide, by decide, by decide, by decide⟩,
    { readyWith_inv 8#32 [0xC3#8] [0x0A#8] (by decide) (by decide) with }, rfl, rfl, by decide, by decide, by decide⟩

theorem witness_DecodeRunCompletesOnRun :
    let s := readyWith 8#32 [0xC0#8, 0xFF#8, 0x05#8] []
    s.state = .ready ∧ s.agenda = [] ∧ s.win.read s.inCursor.toNat = some 0xC0#8 ∧ 0xC0 ≤ (0xC0#8).toNat ∧
      s.win.read (s.inCursor + 1#9).toNat = some 0xFF#8 ∧ s.inCursor ≠ s.inFilled ∧ s.inCursor + 1#9 ≠ s.inFilled ∧
      s.inCursor + 2#9 ≠ s.inFilled := by decide

theorem witness_DecodeRunOnExhaustedStream :
    let s := readyWith 8#32 [] []
    s.state = .ready ∧ s.agenda = [] ∧ s.inCursor = s.inFilled := by decide

theorem witness_LiteralLatchesRun :
    let s := decodingWith [0x05#8, 0x06#8] []
    s.curCmd = some .decodeRun ∧ s.micro = .code ∧ s.inCursor ≠ s.inFilled ∧ s.inCursor + 1#9 ≠ s.inFilled := by decide

theorem witness_RunLatchesRun :
    let s := decodingWith [0xC3#8, 0x0A#8, 0x05#8] []
    let s' := valueWith 3#6 [0x0A#8, 0x05#8] []
    (s.micro = .code ∧ s.inCursor ≠ s.inFilled ∧ s.inCursor + 1#9 ≠ s.inFilled) ∧
      (s'.curCmd = some .decodeRun ∧ s'.micro = .value 3#6 0#32 ∧ s'.inCursor ≠ s'.inFilled ∧ s'.inCursor + 1#9 ≠ s'.inFilled) := by
  decide

theorem witness_LiteralInScanline :
    let s := { fillingWith [0x05#8, 0x06#8] [] with slCursor := 7#32 }
    s.curCmd = some .fillScanline ∧ s.micro = .code ∧ s.slCursor.toNat < s.latchedW.toNat ∧ s.inCursor ≠ s.inFilled ∧
      s.inCursor + 1#9 ≠ s.inFilled := by decide

/-- The clauses at their boundaries: a run of 9 overruns 8 pixels, one of 0 is empty, one of 1 and one of 8 fit. -/
theorem witness_RunInScanline :
    let s := fun len : BitVec 6 => { fillingWith [0x01#8, 0x05#8] [] with micro := .value len 0#32, inOffset := 1#32 }
    (∀ len : BitVec 6, (s len).curCmd = some .fillScanline ∧ (s len).micro = .value len 0#32 ∧
        (s len).slCursor.toNat < (s len).latchedW.toNat ∧ (s len).inCursor ≠ (s len).inFilled ∧
        (s len).inCursor + 1#9 ≠ (s len).inFilled) ∧
      (s 9#6).latchedW.toNat < (s 9#6).slCursor.toNat + (9#6).toNat ∧
      (0 < (1#6).toNat ∧ (s 1#6).slCursor.toNat + (1#6).toNat ≤ (s 1#6).latchedW.toNat) ∧
      (0 < (8#6).toNat ∧ (s 8#6).slCursor.toNat + (8#6).toNat ≤ (s 8#6).latchedW.toNat) :=
  ⟨fun _ => by decide +revert, by decide, by decide, by decide⟩

theorem witness_EagerRefillAtWindowEnd :
    let s := decodingWith [0x05#8] [0x06#8]
    s.state = .busy ∧ s.curCmd = some .decodeRun ∧ s.reqPending = false ∧ s.agenda = [] ∧
      s.win.read s.inCursor.toNat = some 0x05#8 ∧ (s.micro = .code ∧ (0x05#8).toNat < 0xC0 ∧ 0#32 = s.inOffset) ∧
      s.inCursor ≠ s.inFilled ∧ s.inCursor + 1#9 = s.inFilled ∧
      s.nextDraw = some (.bytes 255#8, [.bytes 255#8, .bytes 255#8]) := by decide

/-- L1-3: the value byte is the window's last. -/
theorem witness_EagerRefillAtWindowEnd_value :
    let s := valueWith 3#6 [0x0A#8] []
    s.state = .busy ∧ s.curCmd = some .decodeRun ∧ s.reqPending = false ∧ s.agenda = [] ∧
      s.win.read s.inCursor.toNat = some 0x0A#8 ∧ s.micro = .value 3#6 0#32 ∧ s.inCursor ≠ s.inFilled ∧
      s.inCursor + 1#9 = s.inFilled ∧ s.nextDraw = some (.bytes 255#8, [.bytes 255#8, .bytes 255#8]) := by decide

theorem witness_RunAcrossWindows :
    let s := decodingWith [0xC3#8] [0x0A#8, 0x05#8]
    s.state = .busy ∧ s.curCmd = some .decodeRun ∧ s.micro = .code ∧ s.reqPending = false ∧ s.agenda = [] ∧
      s.win.read s.inCursor.toNat = some 0xC3#8 ∧ 0xC0 ≤ (0xC3#8).toNat ∧ s.inCursor ≠ s.inFilled ∧
      s.inCursor + 1#9 = s.inFilled ∧ s.upcoming = [0x0A#8, 0x05#8] ∧
      s.nextDraw = some (.bytes 255#8, [.bytes 255#8, .bytes 255#8]) ∧ min ((255#8).toNat + 1) s.upcoming.length ≠ 1 := by decide

/-- BS-1: the value byte comes alone; the next read delivers none. -/
theorem witness_RunAcrossWindows_alone :
    let s := { decodingWith [0xC3#8] [0x0A#8] with draws := [.bytes 0#8, .bytes 0#8] }
    s.state = .busy ∧ s.curCmd = some .decodeRun ∧ s.micro = .code ∧ s.reqPending = false ∧ s.agenda = [] ∧
      s.win.read s.inCursor.toNat = some 0xC3#8 ∧ s.inCursor ≠ s.inFilled ∧ s.inCursor + 1#9 = s.inFilled ∧
      s.upcoming = [0x0A#8] ∧ s.nextDraw = some (.bytes 0#8, [.bytes 0#8]) ∧ min ((0#8).toNat + 1) s.upcoming.length = 1 ∧
      ({ s with draws := [.bytes 0#8] }).nextDraw = some (.bytes 0#8, []) := by decide

theorem witness_FailedRefillLatchesNothing :
    let s := { decodingWith [0x05#8] [0x06#8] with draws := [.ioErr] }
    s.state = .busy ∧ s.micro = .code ∧ s.reqPending = false ∧ s.agenda = [] ∧ s.win.read s.inCursor.toNat = some 0x05#8 ∧
      (0x05#8).toNat < 0xC0 ∧ s.inCursor ≠ s.inFilled ∧ s.inCursor + 1#9 = s.inFilled ∧ s.nextDraw = some (.ioErr, []) := by decide

theorem witness_MissingValueByteTruncates :
    let s := decodingWith [0xFF#8] []
    s.state = .busy ∧ s.micro = .code ∧ s.reqPending = false ∧ s.agenda = [] ∧ s.win.read s.inCursor.toNat = some 0xFF#8 ∧
      0xC0 ≤ (0xFF#8).toNat ∧ s.inCursor ≠ s.inFilled ∧ s.inCursor + 1#9 = s.inFilled ∧ s.upcoming = [] ∧
      s.nextDraw = some (.bytes 255#8, [.bytes 255#8, .bytes 255#8]) := by decide

/-- A run that fills the scanline to its last byte, and one that leaves a byte. -/
theorem witness_RunBytesAreWritten :
    let s := { fillingWith [0x05#8] [] with runLength := 8#6, runLeft := 8, micro := .writeRun }
    (s.state = .busy ∧ s.curCmd = some .fillScanline ∧ s.micro = .writeRun ∧ s.agenda = [] ∧ 0 < s.runLeft ∧
      s.runLeft = s.runLength.toNat ∧ s.slCursor.toNat + s.runLength.toNat ≤ s.latchedW.toNat) ∧
      (7#6).toNat < s.latchedW.toNat := by decide

theorem witness_EightPixelsAreRead :
    packing.state = .busy ∧ packing.micro = .pixels [] ∧ packing.agenda = [] ∧
      packing.slCursor.toNat + 8 ≤ packing.latchedW.toNat ∧
      ([0x00#8, 0x01#8, 0x02#8, 0x03#8, 0x04#8, 0x05#8, 0x06#8, 0x07#8] : List Byte).length = 8 ∧
      ∀ b, b < 8 → packing.scan.read (packing.slCursor.toNat + b) =
        ([0x00#8, 0x01#8, 0x02#8, 0x03#8, 0x04#8, 0x05#8, 0x06#8, 0x07#8] : List Byte)[b]? := by decide

theorem witness_PlaneBytesAreWritten :
    let s := { planing with micro := .plane 0 [0, 1, 2, 3, 4, 5, 6, 7] }
    s.state = .busy ∧ s.micro = .plane 0 [0, 1, 2, 3, 4, 5, 6, 7] ∧ s.agenda = [] ∧ s.col < s.latchedW.toNat / 8 ∧ s.row < 8 := by
  decide

theorem witness_PlaneByteBits :
    ([0, 1, 2, 3, 4, 5, 6, 7] : List Byte).length = 8 ∧ 3 < 4 ∧ 7 < 8 ∧ ([0, 1, 2, 3, 4, 5, 6, 7] : List Byte)[7]? = some 7 ∧
      ([0, 1, 2, 3, 4, 5, 6, 7] : List Byte).map (fun x => x &&& 0x0F#8) =
        ([0xF0#8, 1, 2, 3, 4, 5, 6, 7] : List Byte).map (fun x => x &&& 0x0F#8) := by decide

theorem witness_TileIndexCoversBufferOnce : 8 % 8 = 0 ∧ 0 < 8 / 8 ∧ 7 < 8 ∧ 3 < 4 ∧ 31 < 4 * 8 := by decide

/-- Bytes that end too early; the other outcomes are in the next three. -/
theorem witness_FillScanlineRefinesBytes :
    threeBytes.Inv ∧ threeBytes.state = .ready ∧ threeBytes.agenda = [] ∧ threeBytes.supplies [0xC3#8, 0x0A#8, 0x05#8] ∧
      threeBytes.answers 3 ∧ assembleRow 8 [] [0xC3#8, 0x0A#8, 0x05#8] = .truncated ∧
      threeBytes.endsAfter [0xC3#8, 0x0A#8, 0x05#8] :=
  ⟨threeBytes_inv, rfl, rfl, threeBytes_ends.1, threeBytes_answers, by decide, threeBytes_ends⟩

theorem witness_FillScanlineRefinesBytes_row :
    let s := readyWith 8#32 [0xC7#8, 0x0A#8, 0x05#8] []
    s.Inv ∧ s.state = .ready ∧ s.agenda = [] ∧ s.supplies [0xC7#8, 0x0A#8, 0x05#8] ∧ s.answers 3 ∧
      assembleRow 8 [] [0xC7#8, 0x0A#8, 0x05#8] =
        .row [0x0A#8, 0x0A#8, 0x0A#8, 0x0A#8, 0x0A#8, 0x0A#8, 0x0A#8, 0x05#8] [] :=
  ⟨readyWith_inv _ _ _ (by decide) (by decide), rfl, rfl, by decide, by decide, by decide⟩

theorem witness_FillScanlineRefinesBytes_overrun :
    let s := readyWith 8#32 [0x05#8, 0xC8#8, 0x0A#8] []
    s.Inv ∧ s.state = .ready ∧ s.agenda = [] ∧ s.supplies [0x05#8, 0xC8#8, 0x0A#8] ∧ s.answers 3 ∧
      assembleRow 8 [] [0x05#8, 0xC8#8, 0x0A#8] = .overrun [0xC8#8, 0x0A#8] :=
  ⟨readyWith_inv _ _ _ (by decide) (by decide), rfl, rfl, by decide, by decide, by decide⟩

/-- A stream without end whose next bytes fill the scanline. -/
theorem witness_FillScanlineRefinesBytes_endless :
    let s := { readyWith 8#32 [0xC0#8] [0x05#8] with streamCycle := [0xC4#8, 0x0A#8], draws := [], drawCycle := [.bytes 255#8] }
    s.Inv ∧ s.state = .ready ∧ s.agenda = [] ∧ s.supplies [0xC0#8, 0x05#8, 0xC4#8, 0x0A#8, 0xC4#8, 0x0A#8] ∧ s.answers 6 ∧
      assembleRow 8 [] [0xC0#8, 0x05#8, 0xC4#8, 0x0A#8, 0xC4#8, 0x0A#8] = .row (List.replicate 8 0x0A#8) [] :=
  ⟨{ readyWith_inv 8#32 [0xC0#8] [0x05#8] (by decide) (by decide) with }, rfl, rfl, by decide, by decide, by decide⟩

/-- A scanline carried over from FILL_SCANLINE, and none; the bytes end too early for both. -/
theorem witness_PackRowPacksTileRow :
    (filled.Inv ∧ filled.state = .ready ∧ filled.agenda = [] ∧ filled.supplies [0xC3#8, 0x0A#8, 0x05#8] ∧ filled.answers 3 ∧
        filled.endsAfter [0xC3#8, 0x0A#8, 0x05#8] ∧ filled.slCursor = 0#32) ∧
      (threeBytes.Inv ∧ threeBytes.state = .ready ∧ threeBytes.agenda = [] ∧ threeBytes.supplies [0xC3#8, 0x0A#8, 0x05#8] ∧
        threeBytes.answers 3 ∧ threeBytes.endsAfter [0xC3#8, 0x0A#8, 0x05#8] ∧ threeBytes.slCursor ≠ 0#32) :=
  ⟨⟨filled_inv, rfl, rfl, by decide, filled_answers, ⟨by decide, by decide⟩, rfl⟩,
    ⟨threeBytes_inv, rfl, rfl, threeBytes_ends.1, threeBytes_answers, threeBytes_ends, by decide⟩⟩

/-- A tile row that completes: the eight scanlines of the example of R184. -/
theorem witness_PackRowPacksTileRow_rows :
    let codes : List Byte := (List.replicate 8 [0xC8#8, 0x0F#8]).flatten
    let s := { readyWith 8#32 codes [] with draws := List.replicate 16 (.bytes 255#8) }
    s.Inv ∧ s.state = .ready ∧ s.agenda = [] ∧ s.supplies codes ∧ s.answers codes.length ∧
      assembleRows 8 8 codes = .rows (List.replicate 8 (List.replicate 8 0x0F#8)) [] :=
  ⟨{ readyWith_inv 8#32 _ [] (by decide) (by decide) with }, rfl, rfl, by decide, by decide, by decide⟩

/-- The same three bytes in one window, and one of them in the window and two in the stream. -/
theorem witness_ChunkingIsUnobservable :
    let s' := readyWith 8#32 [0xC3#8] [0x0A#8, 0x05#8]
    threeBytes.Inv ∧ s'.Inv ∧ threeBytes.state = .ready ∧ s'.state = .ready ∧ threeBytes.agenda = [] ∧ s'.agenda = [] ∧
      (∀ i, threeBytes.byteAhead i = s'.byteAhead i) ∧ threeBytes.supplies [0xC3#8, 0x0A#8, 0x05#8] ∧ threeBytes.answers 3 ∧
      s'.answers 3 ∧ threeBytes.endsAfter [0xC3#8, 0x0A#8, 0x05#8] ∧ threeBytes.latchedW = s'.latchedW ∧
      threeBytes.inOffset = s'.inOffset ∧ threeBytes.slCursor = threeBytes.latchedW ∧ s'.slCursor = s'.latchedW :=
  ⟨threeBytes_inv, oneByte_inv, rfl, rfl, rfl, rfl,
    fun i => by
      rw [← pendingTo_getElem (i + 1) i _ (by omega), ← pendingTo_getElem (i + 1) i (readyWith 8#32 [0xC3#8] _) (by omega)]
      rfl,
    threeBytes_ends.1, threeBytes_answers, oneByte_answers, threeBytes_ends, rfl, rfl, rfl, rfl⟩

theorem witness_EndlessZeroRunsNeverComplete :
    zeroRuns.Inv ∧ zeroRuns.state = .ready ∧ zeroRuns.agenda = [] ∧ (∀ i, zeroRuns.byteAhead (2 * i) = some 0xC0#8) ∧
      ∀ n, zeroRuns.answers n := ⟨zeroRuns_inv, rfl, rfl, zeroRuns_markers, zeroRuns_answers⟩

theorem witness_RepAssemblesToRepeatedValue : 0 < 1 := by decide

end Sys2Proof.Tests
end

section
/-! The parameter MAX_WIDTH (R9, log 1): no step of the machine writes it. The field laws say it of every named update; the lemmas
here carry it up, in the order of the definitions, through the engine's operations, the instructions, the host's side and the step. -/

namespace Sys2Proof.Machine

/-! ### What the operations between the named updates and the step can do -/

/-- `refill_scanline()` has returned: the command completes, reads its pixels, or has nothing further to do (R140, R143, R186). -/
theorem scanlineDone_cases (s : State) :
    (s.curCmd = some .fillScanline ∧ scanlineDone s = complete s) ∨
      (s.curCmd = some .packRow ∧ scanlineDone s = goto (.pixels []) s) ∨
      ((s.curCmd = some .start ∨ s.curCmd = some .decodeRun ∨ s.curCmd = none) ∧ scanlineDone s = goto .quiet s) := by
  unfold scanlineDone
  cases s.curCmd with
  | none => exact .inr (.inr ⟨.inr (.inr rfl), rfl⟩)
  | some c =>
    cases c with
    | start => exact .inr (.inr ⟨.inl rfl, rfl⟩)
    | packRow => exact .inr (.inl ⟨rfl, rfl⟩)
    | decodeRun => exact .inr (.inr ⟨.inr (.inl rfl), rfl⟩)
    | fillScanline => exact .inl ⟨rfl, rfl⟩

/-- NOP only marks an ignored write, and that only in BUSY (R181, R182). -/
theorem execNop_cases (s : State) :
    (s.state = .busy ∧ execNop s = .next (ignoreWrite s)) ∨ (s.state ≠ .busy ∧ execNop s = .next s) := by
  unfold execNop
  cases s.state with
  | busy => exact .inl ⟨rfl, rfl⟩
  | idle => exact .inr ⟨nofun, rfl⟩
  | ready => exact .inr ⟨nofun, rfl⟩
  | error => exact .inr ⟨nofun, rfl⟩

/-- START is ignored in BUSY and runs in every other state (R183). -/
theorem execStart_cases (s : State) :
    (s.state = .busy ∧ execStart s = .next (ignoreWrite s)) ∨ (s.state ≠ .busy ∧ execStart s = .next (startBody s)) := by
  unfold execStart
  cases s.state with
  | busy => exact .inl ⟨rfl, rfl⟩
  | idle => exact .inr ⟨nofun, rfl⟩
  | ready => exact .inr ⟨nofun, rfl⟩
  | error => exact .inr ⟨nofun, rfl⟩

/-- A CTRL write runs the decoded command, or is taken as a reserved word (R180, R187). -/
theorem writeCtrl_cases (v : Word) (s : State) :
    (∃ i, decodeCommand v = .ok i ∧ writeCtrl v s = exec i s) ∨
      (∃ e, decodeCommand v = .error e ∧ writeCtrl v s = .next (reservedCommand s)) := by
  unfold writeCtrl
  cases decodeCommand v with
  | ok i => exact .inl ⟨i, rfl, rfl⟩
  | error e => exact .inr ⟨e, rfl, rfl⟩

/-- A fetch point that goes on: no byte is available, the decoded code runs, or a marker is taken without its value byte
(R101, R121, R122). -/
theorem fetchCode_next {s t : State} (h : fetchCode s = .next t) :
    (s.inCursor = s.inFilled ∧ t = truncated s) ∨
      (s.inCursor ≠ s.inFilled ∧ ∃ i rest, decodeStream (fetchBytes s) = .ok (i, rest) ∧ exec i s = .next t) ∨
      (s.inCursor ≠ s.inFilled ∧ (∀ l start, s.micro ≠ .value l start) ∧
        ∃ b rest, fetchBytes s = b :: rest ∧ decodeStream (fetchBytes s) = .error .noValueByte ∧
          t = takeMarker (markerLen b) s) := by
  unfold fetchCode at h
  split at h
  · next hw => exact .inl ⟨(windowEmpty_iff s).1 hw, (Host.Outcome.next.inj h).symm⟩
  · next hw =>
    have hne : s.inCursor ≠ s.inFilled := fun he => hw ((windowEmpty_iff s).2 he)
    split at h
    · next i rest hd => exact .inr (.inl ⟨hne, i, rest, hd, h⟩)
    · next hd =>
      split at h
      · next b rest hb =>
        split at h
        · cases h
        · next hm => exact .inr (.inr ⟨hne, hm, b, rest, hb, hd, (Host.Outcome.next.inj h).symm⟩)
      · cases h
    · cases h
    · cases h

/-! ### The engine's operations leave the parameter alone -/

@[simp] theorem truncated_maxWidth (s : State) : (truncated s).maxWidth = s.maxWidth := rfl

@[simp] theorem scanlineDone_maxWidth (s : State) : (scanlineDone s).maxWidth = s.maxWidth := by
  rcases scanlineDone_cases s with ⟨-, h⟩ | ⟨-, h⟩ | ⟨-, h⟩ <;> simp [h]

@[simp] theorem scanLoop_maxWidth (s : State) : (scanLoop s).maxWidth = s.maxWidth := by
  rcases scanLoop_cases s with ⟨-, h⟩ | ⟨-, h⟩ <;> simp [h]

@[simp] theorem refillScanline_maxWidth (s : State) : (refillScanline s).maxWidth = s.maxWidth := by
  simp [refillScanline]

@[simp] theorem runWritten_maxWidth (s : State) : (runWritten s).maxWidth = s.maxWidth := by
  simp [runWritten]

@[simp] theorem assembleRun_maxWidth (start : Word) (s : State) : (assembleRun start s).maxWidth = s.maxWidth := by
  rcases assembleRun_cases start s with ⟨-, h⟩ | ⟨-, -, h⟩ | ⟨-, -, h⟩ <;> simp [h]

@[simp] theorem nextPixels_maxWidth (s : State) : (nextPixels s).maxWidth = s.maxWidth := by
  rcases nextPixels_cases s with ⟨-, h⟩ | ⟨-, h⟩ <;> simp [h]

@[simp] theorem nextColumn_maxWidth (s : State) : (nextColumn s).maxWidth = s.maxWidth := by
  rcases nextColumn_cases s with ⟨-, h⟩ | ⟨-, -, h⟩ | ⟨-, -, h⟩ <;> simp [h]

@[simp] theorem latchRun_maxWidth (value : Byte) (len : BitVec 6) (start : Word) (s : State) :
    (latchRun value len start s).maxWidth = s.maxWidth := by
  rcases latchRun_cases value len start s with ⟨-, h⟩ | ⟨-, h⟩ | ⟨-, h⟩ <;> simp [h]

@[simp] theorem takeValue_maxWidth (value : Byte) (len : BitVec 6) (start : Word) (s : State) :
    (takeValue value len start s).maxWidth = s.maxWidth := by
  rcases takeValue_cases value len start s with ⟨-, h⟩ | ⟨-, -, h⟩ | ⟨-, -, h⟩ <;> simp [h]

@[simp] theorem literal_maxWidth (value : Byte) (s : State) : (literal value s).maxWidth = s.maxWidth :=
  takeValue_maxWidth value litLen s.inOffset s

@[simp] theorem takeMarker_maxWidth (len : BitVec 6) (s : State) : (takeMarker len s).maxWidth = s.maxWidth := by
  rcases takeMarker_cases len s with ⟨-, h⟩ | ⟨-, -, h⟩ | ⟨-, -, h⟩ <;> simp [h]

@[simp] theorem runCode_maxWidth (len : BitVec 6) (value : Byte) (s : State) :
    (runCode len value s).maxWidth = s.maxWidth := by
  rcases runCode_cases len value s with ⟨_, _, -, h⟩ | ⟨-, h⟩ <;> simp [h]

@[simp] theorem resume_maxWidth (k : Resume) (s : State) : (resume k s).maxWidth = s.maxWidth := by
  cases k with
  | primed => exact complete_maxWidth s
  | value len start => exact goto_maxWidth (.value len start) s
  | latch value len start => exact latchRun_maxWidth value len start s

@[simp] theorem answerRead_maxWidth (k : Resume) (s : State) : (answerRead k s).maxWidth = s.maxWidth := by
  rcases answerRead_cases k s with ⟨-, h⟩ | ⟨_, -, h⟩ | ⟨_, _, -, h⟩ <;> simp [h]

theorem writeRunByte_keeps_maxWidth {s t : State} (h : writeRunByte s = .next t) : t.maxWidth = s.maxWidth := by
  obtain ⟨-, ⟨-, rfl⟩ | ⟨-, rfl⟩⟩ := writeRunByte_next h <;> simp

theorem readPixel_keeps_maxWidth {px : List Byte} {s t : State} (h : readPixel px s = .next t) :
    t.maxWidth = s.maxWidth := by
  obtain ⟨-, _, -, ⟨-, rfl⟩ | ⟨-, rfl⟩⟩ := readPixel_next h <;> simp

theorem writePlane_keeps_maxWidth {p : Nat} {px : List Byte} {s t : State} (h : writePlane p px s = .next t) :
    t.maxWidth = s.maxWidth := by
  obtain ⟨-, ⟨-, rfl⟩ | ⟨-, rfl⟩⟩ := writePlane_next h <;> simp

/-! ### The instructions leave the parameter alone -/

@[simp] theorem startBody_maxWidth (s : State) : (startBody s).maxWidth = s.maxWidth := by
  rcases startBody_cases s with ⟨-, h⟩ | ⟨-, h⟩ <;> simp [h]

/-- A dispatched command keeps the parameter if its body does: the traps and the ignored write do (R190). -/
theorem whenReady_maxWidth {run : State → State} (hrun : ∀ s, (run s).maxWidth = s.maxWidth) (s : State) :
    (whenReady run s).maxWidth = s.maxWidth := by
  rcases whenReady_cases run s with ⟨-, h⟩ | ⟨-, h⟩ | ⟨-, h⟩ <;> simp [h, hrun]

@[simp] theorem reservedCommand_maxWidth (s : State) : (reservedCommand s).maxWidth = s.maxWidth := by
  rcases reservedCommand_cases s with ⟨-, h⟩ | ⟨-, h⟩ <;> simp [h]

theorem execNop_keeps_maxWidth {s t : State} (h : execNop s = .next t) : t.maxWidth = s.maxWidth := by
  rcases execNop_cases s with ⟨-, he⟩ | ⟨-, he⟩ <;> obtain rfl := Host.Outcome.next.inj (he.symm.trans h)
  · exact ignoreWrite_maxWidth s
  · rfl

theorem execStart_keeps_maxWidth {s t : State} (h : execStart s = .next t) : t.maxWidth = s.maxWidth := by
  rcases execStart_cases s with ⟨-, he⟩ | ⟨-, he⟩ <;> obtain rfl := Host.Outcome.next.inj (he.symm.trans h)
  · exact ignoreWrite_maxWidth s
  · exact startBody_maxWidth s

/-- No instruction writes the parameter. -/
theorem exec_keeps_maxWidth {i : Instr} {s t : State} (h : exec i s = .next t) : t.maxWidth = s.maxWidth := by
  cases i with
  | lit00 value => obtain rfl := Host.Outcome.next.inj h; exact literal_maxWidth value s
  | lit01 value => obtain rfl := Host.Outcome.next.inj h; exact literal_maxWidth value s
  | lit10 value => obtain rfl := Host.Outcome.next.inj h; exact literal_maxWidth value s
  | run len value => obtain rfl := Host.Outcome.next.inj h; exact runCode_maxWidth len value s
  | nop => exact execNop_keeps_maxWidth h
  | start => exact execStart_keeps_maxWidth h
  | packRow => obtain rfl := Host.Outcome.next.inj h; exact whenReady_maxWidth (by simp [packRowBody]) s
  | decodeRun => obtain rfl := Host.Outcome.next.inj h; exact whenReady_maxWidth (by simp [decodeRunBody]) s
  | fillScanline => obtain rfl := Host.Outcome.next.inj h; exact whenReady_maxWidth (by simp [fillScanlineBody]) s

/-! ### The host's side leaves the parameter alone -/

@[simp] theorem readRegister_maxWidth (r : BitVec 4) (s : State) : (readRegister r s).maxWidth = s.maxWidth := by
  rcases readRegister_cases r s with ⟨-, -, -, h⟩ | ⟨-, h⟩ <;> simp [h]

@[simp] theorem takeLateAnswer_maxWidth (d : Draw) (s : State) : (takeLateAnswer d s).maxWidth = s.maxWidth := by
  rcases takeLateAnswer_cases d s with ⟨-, h⟩ | ⟨-, _, _, _, -, h⟩ <;> simp [h]

theorem writeRegister_keeps_maxWidth {r : BitVec 4} {v : Word} {s t : State} (h : writeRegister r v s = .next t) :
    t.maxWidth = s.maxWidth := by
  rcases writeRegister_cases r v s with ⟨-, hw⟩ | ⟨-, hw⟩ | ⟨-, -, hw⟩ <;> rw [hw] at h
  · rcases writeCtrl_cases v s with ⟨i, -, hc⟩ | ⟨e, -, hc⟩ <;> rw [hc] at h
    · exact exec_keeps_maxWidth h
    · obtain rfl := Host.Outcome.next.inj h; exact reservedCommand_maxWidth s
  · obtain rfl := Host.Outcome.next.inj h; exact setWidthReg_maxWidth v s
  · obtain rfl := Host.Outcome.next.inj h; rfl

theorem readBuffer_keeps_maxWidth {sp : Space} {i : Nat} {s t : State} (h : readBuffer sp i s = .next t) :
    t.maxWidth = s.maxWidth := by
  rcases readBuffer_cases sp i s with ⟨-, hr⟩ | ⟨-, ⟨b, -, -, -, hr⟩ | ⟨-, hr⟩⟩ <;> rw [hr] at h
  · cases h
  · obtain rfl := Host.Outcome.next.inj h; exact gotByte_maxWidth b s
  · obtain rfl := Host.Outcome.next.inj h; exact drawByte_maxWidth s

/-! ### The step leaves the parameter alone -/

theorem fetchCode_keeps_maxWidth {s t : State} (h : fetchCode s = .next t) : t.maxWidth = s.maxWidth := by
  rcases fetchCode_next h with ⟨-, rfl⟩ | ⟨-, i, rest, -, he⟩ | ⟨-, -, b, rest, -, -, rfl⟩
  · exact truncated_maxWidth s
  · exact exec_keeps_maxWidth he
  · exact takeMarker_maxWidth (markerLen b) s

/-- No micro-step of the engine writes the parameter. -/
theorem microStep_keeps_maxWidth {s t : State} (h : microStep s = .next t) : t.maxWidth = s.maxWidth := by
  unfold microStep at h
  generalize s.micro = m at h
  cases m with
  | quiet => obtain rfl := Host.Outcome.next.inj h; rfl
  | code => exact fetchCode_keeps_maxWidth h
  | value len start => exact fetchCode_keeps_maxWidth h
  | refill k =>
    simp only at h
    split at h <;> obtain rfl := Host.Outcome.next.inj h
    · exact answerRead_maxWidth k s
    · exact issueRead_maxWidth s
  | writeRun => exact writeRunByte_keeps_maxWidth h
  | pixels px => exact readPixel_keeps_maxWidth h
  | plane p px => exact writePlane_keeps_maxWidth h

theorem engineTick_keeps_maxWidth {s t : State} (h : engineTick s = .next t) : t.maxWidth = s.maxWidth := by
  rcases engineTick_cases s with ⟨-, he⟩ | ⟨-, he⟩ <;> rw [he] at h
  · exact microStep_keeps_maxWidth h
  · obtain rfl := Host.Outcome.next.inj h; rfl

/-- No action of the host or the environment writes the parameter. -/
theorem perform_keeps_maxWidth {a : HostAct} {s t : State} (h : perform a s = .next t) : t.maxWidth = s.maxWidth := by
  cases a with
  | tick => exact engineTick_keeps_maxWidth h
  | wait => obtain rfl := Host.Outcome.next.inj h; exact readRegister_maxWidth 1#4 s
  | write r v => exact writeRegister_keeps_maxWidth h
  | read r => obtain rfl := Host.Outcome.next.inj h; exact readRegister_maxWidth r s
  | bufRead sp i => exact readBuffer_keeps_maxWidth h
  | reset => obtain rfl := Host.Outcome.next.inj h; exact resetPin_maxWidth s
  | bind bytes cycle => obtain rfl := Host.Outcome.next.inj h; exact bindStream_maxWidth bytes cycle s
  | lateAnswer d => obtain rfl := Host.Outcome.next.inj h; exact takeLateAnswer_maxWidth d s

/-- Settles O18: a step is the engine's or performs the head of the agenda, and neither writes the parameter. -/
theorem parameterNeverChanges : Obligations.ParameterNeverChanges := by
  unfold Obligations.ParameterNeverChanges
  intro s t h
  rcases step_cases s with ⟨-, hs⟩ | ⟨a, rest, -, -, hs⟩ <;> rw [hs] at h
  · exact engineTick_keeps_maxWidth h
  · exact (perform_keeps_maxWidth h).trans (setAgenda_maxWidth rest s)

end Sys2Proof.Machine
end

section
/-! What a step can do, told once (R22, R45, R180): the host's actions that leave the block alone, the commands a CTRL write runs, the
takings of a stream byte, and from these the four kinds of step. -/

namespace Sys2Proof.Machine

/-! ### The host's actions that leave the block alone -/

/-- `t` is `s` but for `width_reg` and the host's and the environment's own fields: what every host action but reset and a CTRL write
may change (R38, R52, R63, R241, R255). -/
def HostSide (s t : State) : Prop :=
  t = { s with
    widthReg := t.widthReg, stream := t.stream, streamCycle := t.streamCycle, abandoned := t.abandoned
    agenda := t.agenda, readData := t.readData, bufData := t.bufData, freeIndex := t.freeIndex }

theorem HostSide.state {s t : State} (h : HostSide s t) : t.state = s.state := by
  unfold HostSide at h; rw [h]
theorem HostSide.inOffset {s t : State} (h : HostSide s t) : t.inOffset = s.inOffset := by
  unfold HostSide at h; rw [h]
theorem HostSide.eos {s t : State} (h : HostSide s t) : t.eos = s.eos := by
  unfold HostSide at h; rw [h]
theorem HostSide.refillCount {s t : State} (h : HostSide s t) : t.refillCount = s.refillCount := by
  unfold HostSide at h; rw [h]

/-- An action taken off the agenda first makes no difference: the agenda is the host's. -/
theorem HostSide.of_setAgenda {rest : List HostAct} {s t : State} (h : HostSide (setAgenda rest s) t) : HostSide s t := h

theorem readRegister_hostSide (r : BitVec 4) (s : State) : HostSide s (readRegister r s) := by
  rcases readRegister_cases r s with ⟨-, -, -, h⟩ | ⟨-, h⟩ <;> rw [h] <;> rfl

theorem readBuffer_hostSide {sp : Space} {i : Nat} {s t : State} (h : readBuffer sp i s = .next t) : HostSide s t := by
  rcases readBuffer_cases sp i s with ⟨-, hr⟩ | ⟨-, ⟨_, -, -, -, hr⟩ | ⟨-, hr⟩⟩ <;> rw [hr] at h
  · cases h
  · obtain rfl := Host.Outcome.next.inj h; rfl
  · obtain rfl := Host.Outcome.next.inj h; rfl

theorem takeLateAnswer_hostSide (d : Draw) (s : State) : HostSide s (takeLateAnswer d s) := by
  rcases takeLateAnswer_cases d s with ⟨-, h⟩ | ⟨-, _, _, _, -, h⟩ <;> rw [h] <;> rfl

/-! ### A CTRL write -/

/-- A command word is its two fields (R84); with RES 0 it is its CMD. -/
theorem word_of_fields {w : Word} {c : BitVec 4} (hr : ¬resField w ≠ 0) (hc : cmdField w = c) : c.zeroExtend 32 = w := by
  have hres : (resField w).toNat = 0 := by rw [not_not.1 hr]; rfl
  have hcmd : (cmdField w).toNat = c.toNat := by rw [hc]
  have hw := w.isLt
  simp only [resField, cmdField, BitVec.extractLsb'_toNat, Nat.shiftRight_eq_div_pow] at hres hcmd
  apply BitVec.eq_of_toNat_eq
  rw [BitVec.toNat_setWidth]
  omega

/-- A command word that decodes is the encoding of its command; no stream code is written to CTRL (R84, R85). -/
theorem encode_of_decodeCommand {w : Word} {i : Instr} (h : decodeCommand w = .ok i) : encode i = .ctrl w := by
  unfold decodeCommand at h
  split_ifs at h with hres h0 h1 h2 h3 h4 <;> cases h
  · exact congrArg Code.ctrl (word_of_fields hres h0)
  · exact congrArg Code.ctrl (word_of_fields hres h1)
  · exact congrArg Code.ctrl (word_of_fields hres h2)
  · exact congrArg Code.ctrl (word_of_fields hres h3)
  · exact congrArg Code.ctrl (word_of_fields hres h4)

/-- What the body of a command other than START may be (R184 to R186), with the word that commands it. -/
inductive ReadyBody (s : State) : Word → State → Prop
  | packRow : ReadyBody s 2#32 (packRowBody s)
  | decodeRun : ReadyBody s 3#32 (decodeRunBody s)
  | fillScanline : ReadyBody s 4#32 (fillScanlineBody s)

/-- Everything a CTRL write can do (R180 to R188): nothing, mark an ignored write, trap outside BUSY, run START outside BUSY, or run
one of the other commands in READY. -/
inductive CtrlWrite (s : State) (v : Word) : State → Prop
  | nothing : CtrlWrite s v s
  | ignored : CtrlWrite s v (ignoreWrite s)
  | trapped {e : ErrCode} (hb : s.state ≠ .busy) (he : e ≠ .none) : CtrlWrite s v (raise e s.inOffset s)
  | started (hb : s.state ≠ .busy) (hv : v = 1#32) : CtrlWrite s v (startBody s)
  | ran {t : State} (hr : s.state = .ready) (h : ReadyBody s v t) : CtrlWrite s v t

theorem whenReady_ctrlWrite {run : State → State} {s : State} {v : Word} (h : ReadyBody s v (run s)) :
    CtrlWrite s v (whenReady run s) := by
  rcases whenReady_cases run s with ⟨hr, hw⟩ | ⟨hi, hw⟩ | ⟨-, hw⟩ <;> rw [hw]
  · exact .ran hr h
  · exact .trapped (by simp [hi]) nofun
  · exact .ignored

theorem writeCtrl_next {v : Word} {s t : State} (h : writeCtrl v s = .next t) : CtrlWrite s v t := by
  rcases writeCtrl_cases v s with ⟨i, hd, hw⟩ | ⟨_, -, hw⟩ <;> rw [hw] at h
  · have hv := encode_of_decodeCommand hd
    cases i with
    | lit00 value => cases hv
    | lit01 value => cases hv
    | lit10 value => cases hv
    | run len value => cases hv
    | nop =>
      rcases execNop_cases s with ⟨-, he⟩ | ⟨-, he⟩ <;> obtain rfl := Host.Outcome.next.inj (he.symm.trans h)
      · exact .ignored
      · exact .nothing
    | start =>
      rcases execStart_cases s with ⟨-, he⟩ | ⟨hb, he⟩ <;> obtain rfl := Host.Outcome.next.inj (he.symm.trans h)
      · exact .ignored
      · cases hv; exact .started hb rfl
    | packRow => cases hv; obtain rfl := Host.Outcome.next.inj h; exact whenReady_ctrlWrite .packRow
    | decodeRun => cases hv; obtain rfl := Host.Outcome.next.inj h; exact whenReady_ctrlWrite .decodeRun
    | fillScanline => cases hv; obtain rfl := Host.Outcome.next.inj h; exact whenReady_ctrlWrite .fillScanline
  · obtain rfl := Host.Outcome.next.inj h
    rcases reservedCommand_cases s with ⟨hb, hr⟩ | ⟨-, hr⟩ <;> rw [hr]
    · exact .trapped (by rcases hb with hb | hb <;> simp [hb]) nofun
    · exact .ignored

/-! ### A fetch -/

/-- A stream code is a LIT or a RUN (R80), and its meaning takes a byte as `next_run()` does (R120, R121). -/
theorem exec_of_decodeStream {bytes rest : List Byte} {i : Instr} (h : decodeStream bytes = .ok (i, rest)) (s : State) :
    (∃ value, exec i s = .next (literal value s)) ∨ ∃ len value, exec i s = .next (runCode len value s) := by
  cases bytes with
  | nil => cases h
  | cons b bs =>
    cases hb : isMarker b with
    | false =>
      rw [decodeStream_literal b bs hb] at h
      cases h
      rcases (literalOf_cases b hb).1 with hi | hi | hi <;> rw [hi] <;> exact .inl ⟨b, rfl⟩
    | true =>
      cases bs with
      | nil => rw [decodeStream_marker_alone b hb] at h; cases h
      | cons v vs => rw [decodeStream_marker b v vs hb] at h; cases h; exact .inr ⟨_, _, rfl⟩

/-- A fetch point that goes on: no byte is available, or the last byte of a code or a marker is taken (R101, R120 to R122). -/
theorem fetchCode_takes {s t : State} (h : fetchCode s = .next t) :
    t = truncated s ∨ (∃ value len start, t = takeValue value len start s) ∨ ∃ len, t = takeMarker len s := by
  rcases fetchCode_next h with ⟨-, ht⟩ | ⟨-, i, rest, hd, he⟩ | ⟨-, -, b, -, -, -, ht⟩
  · exact .inl ht
  · rcases exec_of_decodeStream hd s with ⟨value, hx⟩ | ⟨len, value, hx⟩ <;>
      obtain rfl := Host.Outcome.next.inj (hx.symm.trans he)
    · exact .inr (.inl ⟨value, litLen, s.inOffset, rfl⟩)
    · rcases runCode_cases len value s with ⟨_, start, -, hr⟩ | ⟨-, hr⟩
      · exact .inr (.inl ⟨value, len, start, hr⟩)
      · exact .inr (.inr ⟨len, hr⟩)
  · exact .inr (.inr ⟨_, ht⟩)

/-! ### The kinds of step -/

/-- What follows the host's own part `u` of a step from `s`: nothing, a micro-step of the BUSY engine, reset, or a CTRL write. -/
inductive StepKind (s u : State) : State → Prop
  | host : StepKind s u u
  | engine {t : State} (hb : u.state = .busy) (h : microStep u = .next t) : StepKind s u t
  | reset {rest : List HostAct} (ha : s.agenda = .reset :: rest) : StepKind s u (resetPin u)
  | ctrl {v : Word} {rest : List HostAct} {t : State} (ha : s.agenda = .write 0#4 v :: rest) (h : CtrlWrite u v t) : StepKind s u t

theorem engineTick_next {s u t : State} (h : engineTick u = .next t) : StepKind s u t := by
  rcases engineTick_cases u with ⟨hb, he⟩ | ⟨-, he⟩ <;> rw [he] at h
  · exact .engine hb h
  · obtain rfl := Host.Outcome.next.inj h; exact .host

/-- Every step that goes on is of one of these kinds (R21, R72, R91). -/
theorem step_next {s t : State} (h : step s = .next t) : ∃ u, HostSide s u ∧ StepKind s u t := by
  rcases step_cases s with ⟨-, hs⟩ | ⟨a, rest, ha, -, hs⟩ <;> rw [hs] at h
  · exact ⟨s, rfl, engineTick_next h⟩
  · cases a with
    | tick => exact ⟨setAgenda rest s, rfl, engineTick_next h⟩
    | wait => obtain rfl := Host.Outcome.next.inj h; exact ⟨_, (readRegister_hostSide 1#4 _).of_setAgenda, .host⟩
    | write r v =>
      rcases writeRegister_cases r v (setAgenda rest s) with ⟨rfl, hw⟩ | ⟨-, hw⟩ | ⟨-, -, hw⟩
      · exact ⟨setAgenda rest s, rfl, .ctrl ha (writeCtrl_next (hw.symm.trans h))⟩
      · obtain rfl := Host.Outcome.next.inj (hw.symm.trans h); exact ⟨setWidthReg v (setAgenda rest s), rfl, .host⟩
      · obtain rfl := Host.Outcome.next.inj (hw.symm.trans h); exact ⟨setAgenda rest s, rfl, .host⟩
    | read r => obtain rfl := Host.Outcome.next.inj h; exact ⟨_, (readRegister_hostSide r _).of_setAgenda, .host⟩
    | bufRead sp i => exact ⟨t, (readBuffer_hostSide h).of_setAgenda, .host⟩
    | reset => obtain rfl := Host.Outcome.next.inj h; exact ⟨setAgenda rest s, rfl, .reset ha⟩
    | bind bytes cycle => obtain rfl := Host.Outcome.next.inj h; exact ⟨bindStream bytes cycle (setAgenda rest s), rfl, .host⟩
    | lateAnswer d => obtain rfl := Host.Outcome.next.inj h; exact ⟨_, (takeLateAnswer_hostSide d _).of_setAgenda, .host⟩

end Sys2Proof.Machine
end

section
/-! The byte source and the engine state along a step (R22, R30, R31, R45): a micro-step makes at most one access to the byte source,
and what the engine does after it leaves the stream position alone and only ends the command, if anything. -/

namespace Sys2Proof.Machine

/-! ### After the access -/

/-- The stream position, the end of the stream and the count of reads are the same (R27, R30, R32). -/
structure SameSource (s t : State) : Prop where
  inOffset : t.inOffset = s.inOffset
  eos : t.eos = s.eos
  refillCount : t.refillCount = s.refillCount

/-- The engine has gone on from `s` to `t` without an access to the byte source: the command is still in progress, or has ended
normally, or has ended in an error (R22, R180, R206). -/
structure Continues (s t : State) : Prop extends SameSource s t where
  outcome : (t.state = s.state ∧ t.curCmd = s.curCmd) ∨ (t.state = .ready ∧ t.curCmd = none) ∨
    (t.state = .error ∧ t.curCmd = none ∧ t.errCode ≠ .none)

theorem Continues.refl (s : State) : Continues s s := ⟨⟨rfl, rfl, rfl⟩, .inl ⟨rfl, rfl⟩⟩

section
variable {s u : State}

theorem Continues.after_goto (m : Micro) (h : Continues s u) : Continues s (goto m u) := { h with }
theorem Continues.after_setScanCursor (w : Word) (h : Continues s u) : Continues s (setScanCursor w u) := { h with }
theorem Continues.after_setRun (v : Byte) (l : BitVec 6) (h : Continues s u) : Continues s (setRun v l u) := { h with }
theorem Continues.after_setRunLeft (n : Nat) (h : Continues s u) : Continues s (setRunLeft n u) := { h with }
theorem Continues.after_setTilePos (r c : Nat) (h : Continues s u) : Continues s (setTilePos r c u) := { h with }
theorem Continues.after_storeScan (i : Nat) (b : Byte) (h : Continues s u) : Continues s (storeScan i b u) := { h with }
theorem Continues.after_storeTile (i : Nat) (b : Byte) (h : Continues s u) : Continues s (storeTile i b u) := { h with }

theorem Continues.after_complete (h : Continues s u) : Continues s (complete u) :=
  { h with outcome := .inr (.inl ⟨rfl, rfl⟩) }

theorem Continues.after_raise (e : ErrCode) (off : Word) (he : e ≠ .none) (h : Continues s u) : Continues s (raise e off u) :=
  { h with outcome := .inr (.inr ⟨rfl, rfl, he⟩) }

theorem Continues.after_readFailed (h : Continues s u) : Continues s (readFailed u) :=
  { h with outcome := .inr (.inr ⟨rfl, rfl, nofun⟩) }

theorem Continues.after_truncated (h : Continues s u) : Continues s (truncated u) := h.after_raise .truncatedStream u.inOffset nofun

theorem Continues.after_scanlineDone (h : Continues s u) : Continues s (scanlineDone u) := by
  rcases scanlineDone_cases u with ⟨-, hu⟩ | ⟨-, hu⟩ | ⟨-, hu⟩ <;> rw [hu]
  · exact h.after_complete
  · exact h.after_goto (.pixels [])
  · exact h.after_goto .quiet

theorem Continues.after_scanLoop (h : Continues s u) : Continues s (scanLoop u) := by
  rcases scanLoop_cases u with ⟨-, hu⟩ | ⟨-, hu⟩ <;> rw [hu]
  · exact h.after_goto .code
  · exact (h.after_setScanCursor 0).after_scanlineDone

theorem Continues.after_refillScanline (h : Continues s u) : Continues s (refillScanline u) :=
  (h.after_setScanCursor 0).after_scanLoop

theorem Continues.after_runWritten (h : Continues s u) : Continues s (runWritten u) :=
  (h.after_setScanCursor _).after_scanLoop

theorem Continues.after_assembleRun (start : Word) (h : Continues s u) : Continues s (assembleRun start u) := by
  rcases assembleRun_cases start u with ⟨-, hu⟩ | ⟨-, -, hu⟩ | ⟨-, -, hu⟩ <;> rw [hu]
  · exact h.after_raise .runOverrun start nofun
  · exact (h.after_setRunLeft 0).after_runWritten
  · exact (h.after_setRunLeft _).after_goto .writeRun

theorem Continues.after_latchRun (value : Byte) (len : BitVec 6) (start : Word) (h : Continues s u) :
    Continues s (latchRun value len start u) := by
  rcases latchRun_cases value len start u with ⟨-, hu⟩ | ⟨-, hu⟩ | ⟨-, hu⟩ <;> rw [hu]
  · exact (h.after_setRun value len).after_complete
  · exact (h.after_setRun value len).after_assembleRun start
  · exact (h.after_setRun value len).after_goto .quiet

theorem Continues.after_resume (k : Resume) (h : Continues s u) : Continues s (resume k u) := by
  cases k with
  | primed => exact h.after_complete
  | value len start => exact h.after_goto (.value len start)
  | latch value len start => exact h.after_latchRun value len start

theorem Continues.after_nextPixels (h : Continues s u) : Continues s (nextPixels u) := by
  rcases nextPixels_cases u with ⟨-, hu⟩ | ⟨-, hu⟩ <;> rw [hu]
  · exact h.after_refillScanline
  · exact h.after_goto (.pixels [])

theorem Continues.after_nextColumn (h : Continues s u) : Continues s (nextColumn u) := by
  rcases nextColumn_cases u with ⟨-, hu⟩ | ⟨-, -, hu⟩ | ⟨-, -, hu⟩ <;> rw [hu]
  · exact (h.after_setTilePos u.row (u.col + 1)).after_nextPixels
  · exact (h.after_setTilePos (u.row + 1) 0).after_nextPixels
  · exact h.after_complete

/-- A command that runs in READY goes on from its acceptance (R184 to R186). -/
theorem ReadyBody.continues {v : Word} (h : ReadyBody s v u) :
    (v = 2#32 ∨ v = 3#32 ∨ v = 4#32) ∧ ∃ c, Continues (accept c s) u := by
  cases h with
  | packRow => exact ⟨.inl rfl, .packRow, ((Continues.refl _).after_setTilePos 0 0).after_nextPixels⟩
  | decodeRun => exact ⟨.inr (.inl rfl), .decodeRun, (Continues.refl _).after_goto .code⟩
  | fillScanline => exact ⟨.inr (.inr rfl), .fillScanline, (Continues.refl _).after_refillScanline⟩

end

/-! ### The access -/

/-- The access to the byte source a micro-step makes (R45): none, a byte consumed, or a read issued or answered; reads are
`refill()`'s (R103, R104). -/
inductive SourceAccess (s : State) : State → Prop
  | none : SourceAccess s s
  | consumed : SourceAccess s (consume s)
  | issued {k : Resume} (hm : s.micro = .refill k) : SourceAccess s (issueRead s)
  | answered {k : Resume} (hm : s.micro = .refill k) (extra : Byte) (rest : List Draw) :
      SourceAccess s (takeBytes extra (setDraws rest s))

theorem SourceAccess.state {s u : State} (h : SourceAccess s u) : u.state = s.state := by
  cases h <;> rfl

theorem SourceAccess.inOffset {s u : State} (h : SourceAccess s u) : u.inOffset = s.inOffset ∨ u.inOffset = s.inOffset + 1 := by
  cases h with
  | none => exact .inl rfl
  | consumed => exact .inr rfl
  | issued hm => exact .inl rfl
  | answered hm extra rest => exact .inl rfl

theorem takeValue_access (value : Byte) (len : BitVec 6) (start : Word) (s : State) :
    ∃ u, SourceAccess s u ∧ Continues u (takeValue value len start s) := by
  rcases takeValue_cases value len start s with ⟨-, h⟩ | ⟨-, -, h⟩ | ⟨-, -, h⟩ <;> rw [h]
  · exact ⟨s, .none, (Continues.refl s).after_truncated⟩
  · exact ⟨consume s, .consumed, (Continues.refl _).after_goto _⟩
  · exact ⟨consume s, .consumed, (Continues.refl _).after_latchRun value len start⟩

theorem takeMarker_access (len : BitVec 6) (s : State) : ∃ u, SourceAccess s u ∧ Continues u (takeMarker len s) := by
  rcases takeMarker_cases len s with ⟨-, h⟩ | ⟨-, -, h⟩ | ⟨-, -, h⟩ <;> rw [h]
  · exact ⟨s, .none, (Continues.refl s).after_truncated⟩
  · exact ⟨consume s, .consumed, (Continues.refl _).after_goto _⟩
  · exact ⟨consume s, .consumed, (Continues.refl _).after_goto _⟩

theorem fetchCode_access {s t : State} (h : fetchCode s = .next t) : ∃ u, SourceAccess s u ∧ Continues u t := by
  rcases fetchCode_takes h with rfl | ⟨value, len, start, rfl⟩ | ⟨len, rfl⟩
  · exact ⟨s, .none, (Continues.refl s).after_truncated⟩
  · exact takeValue_access value len start s
  · exact takeMarker_access len s

theorem answerRead_access {k : Resume} {s : State} (hm : s.micro = .refill k) :
    ∃ u, SourceAccess s u ∧ Continues u (answerRead k s) := by
  rcases answerRead_cases k s with ⟨-, h⟩ | ⟨rest, -, h⟩ | ⟨extra, rest, -, h⟩ <;> rw [h]
  · exact ⟨s, .none, Continues.refl s⟩
  · exact ⟨s, .none, Continues.after_readFailed { Continues.refl s with }⟩
  · exact ⟨_, .answered hm extra rest, (Continues.refl _).after_resume k⟩

/-- A micro-step is at most one access to the byte source, and what follows it (R45). -/
theorem microStep_access {s t : State} (h : microStep s = .next t) : ∃ u, SourceAccess s u ∧ Continues u t := by
  unfold microStep at h
  generalize hm : s.micro = m at h
  cases m with
  | quiet => obtain rfl := Host.Outcome.next.inj h; exact ⟨_, .none, Continues.refl _⟩
  | code => exact fetchCode_access h
  | value len start => exact fetchCode_access h
  | refill k =>
    simp only at h
    split at h <;> obtain rfl := Host.Outcome.next.inj h
    · exact answerRead_access hm
    · exact ⟨_, .issued hm, Continues.refl _⟩
  | writeRun =>
    obtain ⟨-, ⟨-, rfl⟩ | ⟨-, rfl⟩⟩ := writeRunByte_next h
    · exact ⟨s, .none, (((Continues.refl s).after_storeScan _ _).after_setRunLeft _).after_runWritten⟩
    · exact ⟨s, .none, ((Continues.refl s).after_storeScan _ _).after_setRunLeft _⟩
  | pixels px =>
    obtain ⟨-, _, -, ⟨-, rfl⟩ | ⟨-, rfl⟩⟩ := readPixel_next h
    · exact ⟨s, .none, ((Continues.refl s).after_setScanCursor _).after_goto _⟩
    · exact ⟨s, .none, (Continues.refl s).after_goto _⟩
  | plane p px =>
    obtain ⟨-, ⟨-, rfl⟩ | ⟨-, rfl⟩⟩ := writePlane_next h
    · exact ⟨s, .none, ((Continues.refl s).after_storeTile _ _).after_goto _⟩
    · exact ⟨s, .none, ((Continues.refl s).after_storeTile _ _).after_nextColumn⟩

/-! ### A CTRL write -/

/-- A CTRL write leaves the byte source alone, unless it runs START, which sets the stream position to 0 (R183). -/
theorem CtrlWrite.source {v : Word} {s t : State} (h : CtrlWrite s v t) : SameSource s t ∨ (v = 1#32 ∧ t.inOffset = 0#32) := by
  cases h with
  | nothing => exact .inl ⟨rfl, rfl, rfl⟩
  | ignored => exact .inl ⟨rfl, rfl, rfl⟩
  | trapped hb he => exact .inl ⟨rfl, rfl, rfl⟩
  | started hb hv => rcases startBody_cases s with ⟨-, hs⟩ | ⟨-, hs⟩ <;> rw [hs] <;> exact .inr ⟨hv, rfl⟩
  | ran hr h =>
    obtain ⟨-, _, hc⟩ := h.continues
    exact .inl { hc.toSameSource with }

/-- The engine state a CTRL write leaves (R22, R180): as it was, BUSY with a command in progress, or ERROR with its code. -/
theorem CtrlWrite.state {v : Word} {s t : State} (h : CtrlWrite s v t) :
    t.state = s.state ∨
      (t.state = .busy ∧ t.curCmd ≠ none ∧ (v = 1#32 ∨ v = 2#32 ∨ v = 3#32 ∨ v = 4#32)) ∨
      (t.state = .error ∧ t.curCmd = none ∧ t.errCode ≠ .none) := by
  cases h with
  | nothing => exact .inl rfl
  | ignored => exact .inl rfl
  | trapped hb he => exact .inr (.inr ⟨rfl, rfl, he⟩)
  | started hb hv =>
    rcases startBody_cases s with ⟨-, hs⟩ | ⟨-, hs⟩ <;> rw [hs]
    · exact .inr (.inl ⟨rfl, nofun, .inl hv⟩)
    · exact .inr (.inr ⟨rfl, rfl, nofun⟩)
  | ran hr h =>
    obtain ⟨hv, c, hc⟩ := h.continues
    rcases hc.outcome with ⟨hst, hcmd⟩ | ⟨hst, -⟩ | herr
    · exact .inr (.inl ⟨hst, by rw [hcmd]; nofun, .inr hv⟩)
    · exact .inl (hst.trans hr.symm)
    · exact .inr (.inr herr)

/-! ### The step -/

/-- Settles O21: a micro-step makes at most one access to the byte source, and only START and reset set the position. -/
theorem streamPositionOnlyAdvances : Obligations.StreamPositionOnlyAdvances := by
  unfold Obligations.StreamPositionOnlyAdvances
  intro s t h
  obtain ⟨u, hu, hk⟩ := step_next h
  rw [← hu.inOffset]
  cases hk with
  | host => exact .inl rfl
  | engine hb hm =>
    obtain ⟨a, ha, hc⟩ := microStep_access hm
    rw [hc.inOffset]
    exact ha.inOffset.imp_right .inl
  | reset ha => exact .inr (.inr ⟨rfl, _, .inl ha⟩)
  | ctrl ha hw =>
    rcases hw.source with hs | ⟨rfl, h0⟩
    · exact .inl hs.inOffset
    · exact .inr (.inr ⟨h0, _, .inr ha⟩)

/-- Settles O19: the host's other actions leave the engine state, a micro-step of the BUSY engine ends in BUSY, READY or ERROR, reset
ends in IDLE, and a CTRL write as `CtrlWrite.state` says. -/
theorem engineStateChangePoints : Obligations.EngineStateChangePoints := by
  unfold Obligations.EngineStateChangePoints
  intro s t h hne
  obtain ⟨u, hu, hk⟩ := step_next h
  rw [← hu.state] at hne ⊢
  cases hk with
  | host => exact absurd rfl hne
  | engine hb hm =>
    obtain ⟨a, ha, hc⟩ := microStep_access hm
    rcases hc.outcome with ⟨hst, -⟩ | ⟨hst, hcmd⟩ | ⟨hst, hcmd, herr⟩
    · exact absurd (hst.trans ha.state) hne
    · simp [hst, hcmd, hb]
    · simp [hst, hcmd, herr]
  | reset ha => exact ⟨fun _ => ⟨_, ha⟩, nofun, nofun, nofun⟩
  | ctrl ha hw =>
    rcases hw.state with hst | ⟨hst, hcmd, hv⟩ | ⟨hst, hcmd, herr⟩
    · exact absurd hst hne
    · simp [hst, hcmd, ha, hv]
    · simp [hst, hcmd, herr]

end Sys2Proof.Machine
end

section
/-! The invariant (R28, R35, R39 to R41, R61): every step keeps it. Between two micro-steps of a command in progress its part that
does not name the engine's position holds throughout (`Underway`, and `Running` once the window is ready); each operation of the engine
then ends in a state that keeps all of it. -/

namespace Sys2Proof.Machine

/-! ### The parts of the invariant -/

/-- The part of the invariant about the buffers, the parameter and the window (R9, R25 to R29, R60, R103). -/
structure Stored (s : State) : Prop where
  winWf : s.win.wf = true
  scanWf : s.scan.wf = true
  tileWf : s.tile.wf = true
  winBelow : ∀ i, Config.winCap ≤ i → s.win.read i = none
  scanBelow : ∀ i, s.maxWidth ≤ i → s.scan.read i = none
  tileBelow : ∀ i, 4 * s.maxWidth ≤ i → s.tile.read i = none
  parameter : Config.legalMaxWidth s.maxWidth
  filledRange : s.inFilled.toNat ≤ Config.winCap
  cursorRange : s.inCursor.toNat ≤ s.inFilled.toNat
  winLive : ∀ i, i < s.inFilled.toNat → (s.win.read i).isSome = true
  eosEmpty : s.eos = true → s.inFilled = 0

/-- A command is in progress, with no read outstanding, and W is legal (R40, R41, R45). -/
structure Underway (s : State) : Prop extends Stored s where
  busy : s.state = .busy
  noError : s.errCode = .none
  command : s.curCmd ≠ none
  noRequest : s.reqPending = false
  legal : legalWidth s.maxWidth s.latchedW = true

/-- A command is in progress and the window is ready (R28). -/
structure Running (s : State) : Prop extends Underway s where
  ready : WindowReady s

/-- The bytes of `scan` below index `n` have been written. -/
abbrev WrittenBelow (s : State) (n : Nat) : Prop := ∀ i, i < n → (s.scan.read i).isSome = true

/-- `refill_scanline()` runs for FILL_SCANLINE, or at the first column of a row of PACK_ROW (R143, R186). -/
abbrev Filling (s : State) : Prop := s.curCmd = some .fillScanline ∨ (s.curCmd = some .packRow ∧ s.row < 8 ∧ s.col = 0)

/-- What holds of the command that `refill()` goes back to (R102, R183). -/
def ResumeOk (k : Resume) (s : State) : Prop :=
  match k with
  | .primed => s.curCmd = some .start ∧ s.slCursor = s.latchedW
  | .value _ _ => InNextRun s
  | .latch _ _ _ => InNextRun s

section
variable {s t : State}

theorem State.Inv.stored (h : s.Inv) : Stored s := { h with }

theorem State.Inv.noRequest_of_micro (h : s.Inv) (hm : ∀ k, s.micro ≠ .refill k) : s.reqPending = false := by
  cases hq : s.reqPending with
  | false => rfl
  | true =>
    obtain ⟨k, hk⟩ := h.request hq
    exact absurd hk (hm k)

theorem State.Inv.noRequest (h : s.Inv) (hb : s.state ≠ .busy) : s.reqPending = false :=
  h.noRequest_of_micro fun k hk => by rw [h.quiet.2 hb] at hk; cases hk

theorem State.Inv.noError (h : s.Inv) (hb : s.state = .busy ∨ s.state = .ready) : s.errCode = .none :=
  h.errorCode.2 (by rcases hb with hb | hb <;> simp [hb])

theorem State.Inv.underway (h : s.Inv) (hb : s.state = .busy) (hm : ∀ k, s.micro ≠ .refill k) : Underway s :=
  { h.stored with
    busy := hb
    noError := h.noError (.inl hb)
    command := fun hc => h.command.1 hc hb
    noRequest := h.noRequest_of_micro hm
    legal := h.latched (.inr hb) }

/-- The latched width of a command in progress (R39, R40). -/
theorem Underway.width_legal (h : Underway s) : 0 < s.width ∧ s.width % 8 = 0 ∧ s.width ≤ s.maxWidth :=
  (legalWidth_iff s.maxWidth s.latchedW).1 h.legal

theorem inNextRun_cases (h : InNextRun s) :
    (s.curCmd = some .decodeRun ∧ BetweenScanlines s) ∨ (Filling s ∧ Assembling s) := by
  unfold InNextRun at h
  split at h
  · next hc => exact .inl ⟨hc, h⟩
  · next hc => exact .inr ⟨.inl hc, h⟩
  · next hc =>
    obtain ⟨ha, hrow, hcol⟩ := h
    exact .inr ⟨.inr ⟨hc, hrow, hcol⟩, ha⟩
  · cases h
  · cases h

theorem inNextRun_of_filling (hf : Filling s) (ha : Assembling s) : InNextRun s := by
  unfold InNextRun
  rcases hf with hc | ⟨hc, hrow, hcol⟩ <;> rw [hc]
  · exact ha
  · exact ⟨ha, hrow, hcol⟩

theorem microOk_refill {k : Resume} (hm : s.micro = .refill k) : MicroOk s ↔ AtRefill s ∧ ResumeOk k s := by
  unfold MicroOk ResumeOk
  rw [hm]
  cases k <;> rfl

/-- Outside `refill()` a command in progress finds the window ready (R28). -/
theorem MicroOk.windowReady (h : MicroOk s) (hq : s.micro ≠ .quiet) (hm : ∀ k, s.micro ≠ .refill k) : WindowReady s := by
  unfold MicroOk at h
  generalize s.micro = m at h hq hm
  cases m with
  | quiet => exact absurd rfl hq
  | refill k => exact absurd rfl (hm k)
  | code => exact h.1
  | value len start => exact h.1
  | writeRun => exact h.1
  | pixels px => exact h.1
  | plane p px => exact h.1

/-- Where a byte of a code is wanted, `next_run()` is under way (R122). -/
theorem MicroOk.inNextRun (h : MicroOk s) (hm : s.micro = .code ∨ ∃ len start, s.micro = .value len start) : InNextRun s := by
  unfold MicroOk at h
  rcases hm with hm | ⟨_, _, hm⟩ <;> rw [hm] at h <;> exact h.2

theorem goto_of_micro {m : Micro} (hm : s.micro = m) : goto m s = s := by rw [← hm]; rfl

theorem State.Inv.running (h : s.Inv) (hb : s.state = .busy) (hm : ∀ k, s.micro ≠ .refill k) : Running s :=
  { h.underway hb hm with ready := h.position.windowReady (fun hq => h.quiet.1 hq hb) hm }

/-! ### The ends of an operation -/

theorem Underway.goto_inv {m : Micro} (h : Underway s) (hm : m ≠ .quiet) (hp : MicroOk (goto m s)) : (goto m s).Inv :=
  { h with
    errorCode := iff_of_true h.noError (by simp [h.busy])
    command := iff_of_false h.command (by simp [h.busy])
    quiet := iff_of_false hm (by simp [h.busy])
    request := fun hq => by simp [h.noRequest] at hq
    latched := fun _ => h.legal
    boundary := fun hr => by simp [h.busy] at hr
    position := hp }

theorem Running.complete_inv (h : Running s) (hb : BetweenScanlines s) : (complete s).Inv :=
  { h with
    errorCode := iff_of_true h.noError nofun
    command := iff_of_true rfl nofun
    quiet := iff_of_true rfl nofun
    request := fun hq => by simp [h.noRequest] at hq
    latched := fun _ => h.legal
    boundary := fun _ => ⟨h.ready, hb⟩
    position := trivial }

theorem Stored.raise_inv (h : Stored s) (hq : s.reqPending = false) (e : ErrCode) (off : Word) (he : e ≠ .none) :
    (raise e off s).Inv :=
  { h with
    errorCode := iff_of_false he (by simp)
    command := iff_of_true rfl nofun
    quiet := iff_of_true rfl nofun
    request := fun hp => by simp [hq] at hp
    latched := fun hst => by rcases hst with hst | hst <;> cases hst
    boundary := nofun
    position := trivial }

theorem Running.truncated_inv (h : Running s) : (truncated s).Inv := h.raise_inv h.noRequest .truncatedStream s.inOffset nofun

/-! ### Scanlines -/

theorem Running.scanlineDone_inv (h : Running s) (hf : Filling s) (h0 : s.slCursor = 0) (hs : ScanFull s) :
    (scanlineDone s).Inv := by
  obtain ⟨hpos, hmod, -⟩ := h.width_legal
  rcases scanlineDone_cases s with ⟨-, hu⟩ | ⟨hc, hu⟩ | ⟨hc, -⟩
  · rw [hu]
    exact h.complete_inv (.inr ⟨h0, hs⟩)
  · obtain ⟨-, hrow, hcol⟩ := hf.resolve_left (by simp [hc])
    rw [hu]
    refine h.goto_inv nofun ⟨h.ready, hc, hs, by simp, hrow, ?_, ?_⟩
    · simp only [goto_col, goto_width, hcol]
      omega
    · simp [h0, hcol]
  · rcases hf with hf | ⟨hf, -⟩ <;> simp [hf] at hc

theorem Running.scanLoop_inv (h : Running s) (hf : Filling s) (hw : WrittenBelow s s.slCursor.toNat) : (scanLoop s).Inv := by
  rcases scanLoop_cases s with ⟨hlt, hu⟩ | ⟨hge, hu⟩ <;> rw [hu]
  · exact h.goto_inv nofun ⟨h.ready, inNextRun_of_filling (s := s) hf ⟨hlt, hw⟩⟩
  · exact Running.scanlineDone_inv { h with } hf rfl fun i hi => hw i (Nat.lt_of_lt_of_le hi hge)

theorem Running.refillScanline_inv (h : Running s) (hf : Filling s) : (refillScanline s).Inv :=
  Running.scanLoop_inv (s := setScanCursor 0 s) { h with } hf nofun

theorem Running.runWritten_inv (h : Running s) (hf : Filling s) (hle : s.slCursor.toNat + lenOf s.runLength ≤ s.width)
    (hw : WrittenBelow s (s.slCursor.toNat + lenOf s.runLength)) : (runWritten s).Inv := by
  have hsum : (s.slCursor + s.runLength.zeroExtend 32).toNat = s.slCursor.toNat + lenOf s.runLength := by
    have hwidth : s.width < 2 ^ 32 := s.latchedW.isLt
    have hlen := s.runLength.isLt
    unfold lenOf at hle ⊢
    rw [BitVec.toNat_add, BitVec.toNat_setWidth]
    omega
  refine Running.scanLoop_inv (s := setScanCursor _ s) { h with } hf ?_
  rw [setScanCursor_slCursor, hsum]
  exact hw

theorem Running.assembleRun_inv (h : Running s) (hf : Filling s) (hw : WrittenBelow s s.slCursor.toNat) (start : Word) :
    (assembleRun start s).Inv := by
  rcases assembleRun_cases start s with ⟨-, hu⟩ | ⟨hle, h0, hu⟩ | ⟨hle, hpos, hu⟩ <;> rw [hu]
  · exact h.raise_inv h.noRequest .runOverrun start nofun
  · exact Running.runWritten_inv (s := setRunLeft 0 s) { h with } hf hle fun i hi => hw i (by simp [h0] at hi; exact hi)
  · refine Underway.goto_inv (s := setRunLeft _ s) { h with } nofun ⟨h.ready, hf, hpos, Nat.le_refl _, hle, fun i hi => hw i ?_⟩
    simpa [runIndex] using hi

theorem Running.latchRun_inv (h : Running s) (hn : InNextRun s) (value : Byte) (len : BitVec 6) (start : Word) :
    (latchRun value len start s).Inv := by
  have hrun : Running (setRun value len s) := { h with }
  rcases latchRun_cases value len start s with ⟨hc, hu⟩ | ⟨hc, hu⟩ | ⟨hc, -⟩
  · rcases inNextRun_cases hn with ⟨-, hb⟩ | ⟨hf, -⟩
    · rw [hu]; exact hrun.complete_inv hb
    · rcases hf with hf | ⟨hf, -⟩ <;> simp [hf] at hc
  · rcases inNextRun_cases hn with ⟨hd, -⟩ | ⟨hf, -, hw⟩
    · simp [hd] at hc
    · rw [hu]; exact hrun.assembleRun_inv hf hw start
  · rcases inNextRun_cases hn with ⟨hd, -⟩ | ⟨hd | ⟨hd, -⟩, -⟩ <;> simp [hd] at hc

/-! ### The byte source -/

theorem Running.cursor_lt (h : Running s) (hne : s.inCursor ≠ s.inFilled) : s.inCursor.toNat < s.inFilled.toNat :=
  h.ready.resolve_right fun ⟨_, hc, hf⟩ => hne (hc.trans hf.symm)

theorem Running.notEnded (h : Running s) (hne : s.inCursor ≠ s.inFilled) : s.eos = false := by
  cases he : s.eos with
  | false => rfl
  | true =>
    have hlt := h.cursor_lt hne
    rw [h.eosEmpty he] at hlt
    exact absurd hlt (Nat.not_lt_zero _)

theorem Running.consume_underway (h : Running s) (hne : s.inCursor ≠ s.inFilled) : Underway (consume s) :=
  { h with
    cursorRange := by
      rw [consume_inCursor_toNat s (h.cursor_lt hne)]
      exact h.cursor_lt hne }

theorem Running.consume_running (h : Running s) (hne : s.inCursor ≠ s.inFilled) (hne1 : s.inCursor + 1 ≠ s.inFilled) :
    Running (consume s) :=
  { h.consume_underway hne with
    ready := .inl (Nat.lt_of_le_of_ne (h.consume_underway hne).cursorRange fun he => hne1 (BitVec.eq_of_toNat_eq he)) }

/-- The byte that empties the window leads to the refill (R102). -/
theorem Running.consume_refill_inv (h : Running s) (hne : s.inCursor ≠ s.inFilled) (he : s.inCursor + 1 = s.inFilled) {k : Resume}
    (hk : ResumeOk k s) : (goto (.refill k) (consume s)).Inv :=
  (h.consume_underway hne).goto_inv nofun ((microOk_refill rfl).2 ⟨⟨he, h.notEnded hne⟩, by cases k <;> exact hk⟩)

theorem Running.takeValue_inv (h : Running s) (hn : InNextRun s) (value : Byte) (len : BitVec 6) (start : Word) :
    (takeValue value len start s).Inv := by
  rcases takeValue_cases value len start s with ⟨-, hu⟩ | ⟨hne, he, hu⟩ | ⟨hne, he, hu⟩ <;> rw [hu]
  · exact h.truncated_inv
  · exact h.consume_refill_inv hne he hn
  · exact (h.consume_running hne he).latchRun_inv hn value len start

theorem Running.takeMarker_inv (h : Running s) (hn : InNextRun s) (len : BitVec 6) : (takeMarker len s).Inv := by
  rcases takeMarker_cases len s with ⟨-, hu⟩ | ⟨hne, he, hu⟩ | ⟨hne, he, hu⟩ <;> rw [hu]
  · exact h.truncated_inv
  · exact h.consume_refill_inv hne he hn
  · exact (h.consume_underway hne).goto_inv nofun ⟨(h.consume_running hne he).ready, hn⟩

theorem Running.fetchCode_inv (h : Running s) (hn : InNextRun s) (hf : fetchCode s = .next t) : t.Inv := by
  rcases fetchCode_takes hf with rfl | ⟨value, len, start, rfl⟩ | ⟨len, rfl⟩
  · exact h.truncated_inv
  · exact h.takeValue_inv hn value len start
  · exact h.takeMarker_inv hn len

/-- An answered read replaces the live part of the window by what it delivers (R29, R103). -/
theorem Stored.after_takeBytes (h : Stored s) (he : s.eos = false) (extra : Byte) : Stored (takeBytes extra s) := by
  obtain ⟨hlen, hcap, -⟩ := delivered_bounds extra s.upcoming
  have hn : (takeBytes extra s).inFilled.toNat = delivered extra s.upcoming := by
    simp only [Config.winCap] at hcap
    rw [takeBytes_inFilled, BitVec.toNat_ofNat]
    omega
  have hread (i : Nat) : (takeBytes extra s).win.read i =
      if i < delivered extra s.upcoming then (s.upcoming.take (delivered extra s.upcoming))[i]? else s.win.read i := by
    rw [takeBytes_win, Memory.read_writeAll, List.length_take, Nat.min_eq_left hlen, Nat.zero_add]
    simp
  exact { h with
    winWf := Memory.writeAll_wf _ _ _ h.winWf
    winBelow := fun i hi => by rw [hread, if_neg (by omega)]; exact h.winBelow i hi
    filledRange := by rw [hn]; exact hcap
    cursorRange := Nat.zero_le _
    winLive := fun i hi => by
      rw [hn] at hi
      rw [hread, if_pos hi, List.getElem?_eq_getElem (by rw [List.length_take]; omega)]
      rfl
    eosEmpty := fun h0 => by
      have : delivered extra s.upcoming = 0 := by simpa [he] using h0
      rw [takeBytes_inFilled, this]
      rfl }

theorem takeBytes_windowReady (extra : Byte) (s : State) : WindowReady (takeBytes extra s) := by
  obtain ⟨-, hcap, -⟩ := delivered_bounds extra s.upcoming
  simp only [Config.winCap] at hcap
  by_cases h0 : delivered extra s.upcoming = 0
  · exact .inr ⟨by simp [h0], rfl, by rw [takeBytes_inFilled, h0]; rfl⟩
  · refine .inl ?_
    rw [takeBytes_inFilled, BitVec.toNat_ofNat, takeBytes_inCursor]
    change 0 < _
    omega

theorem Running.resume_inv {k : Resume} (h : Running s) (hk : ResumeOk k s) : (resume k s).Inv := by
  cases k with
  | primed => exact h.complete_inv (.inl hk.2)
  | value len start => exact h.goto_inv nofun ⟨h.ready, hk⟩
  | latch value len start => exact h.latchRun_inv hk value len start

theorem answerRead_inv {k : Resume} (h : s.Inv) (hb : s.state = .busy) (hm : s.micro = .refill k) : (answerRead k s).Inv := by
  obtain ⟨⟨-, he⟩, hk⟩ := (microOk_refill hm).1 h.position
  rcases answerRead_cases k s with ⟨-, hu⟩ | ⟨rest, -, hu⟩ | ⟨extra, rest, -, hu⟩ <;> rw [hu]
  · exact h
  · exact Stored.raise_inv (s := { setDraws rest s with reqPending := false }) { h with } rfl .streamIo s.inOffset nofun
  · have hst : Stored (setDraws rest s) := { h with }
    refine Running.resume_inv { hst.after_takeBytes he extra with
      busy := hb
      noError := h.noError (.inl hb)
      command := fun hc => h.command.1 hc hb
      noRequest := rfl
      legal := h.latched (.inr hb)
      ready := takeBytes_windowReady extra _ } ?_
    cases k <;> exact hk

theorem issueRead_inv {k : Resume} (h : s.Inv) (hm : s.micro = .refill k) : (issueRead s).Inv :=
  { h with request := fun _ => ⟨k, hm⟩ }

/-! ### Writing a run, reading pixels, writing planes -/

/-- A byte written inside the scanline keeps what is written below it, and adds itself. -/
theorem writtenBelow_storeScan {n : Nat} (hw : WrittenBelow s n) (b : Byte) : WrittenBelow (storeScan n b s) (n + 1) := by
  intro i hi
  rw [storeScan_scan, Memory.read_write]
  split
  · rfl
  · exact hw i (by omega)

theorem Running.storeScan_running (h : Running s) {i : Nat} (hi : i < s.width) (b : Byte) : Running (storeScan i b s) :=
  { h with
    scanWf := Memory.write_wf _ _ _ h.scanWf
    scanBelow := fun j hj => by
      obtain ⟨-, -, hle⟩ := h.width_legal
      have hne : j ≠ i := by
        rw [storeScan_maxWidth] at hj
        omega
      rw [storeScan_scan, Memory.read_write_other _ _ _ _ hne]
      exact h.scanBelow j hj }

theorem Running.storeTile_running (h : Running s) {i : Nat} (hi : i < 4 * s.width) (b : Byte) : Running (storeTile i b s) :=
  { h with
    tileWf := Memory.write_wf _ _ _ h.tileWf
    tileBelow := fun j hj => by
      obtain ⟨-, -, hle⟩ := h.width_legal
      have hne : j ≠ i := by
        rw [storeTile_maxWidth] at hj
        omega
      rw [storeTile_tile, Memory.read_write_other _ _ _ _ hne]
      exact h.tileBelow j hj }

/-- With bytes of the run left, the next one's index is one higher (R140). -/
theorem runIndex_next (hle : s.runLeft ≤ lenOf s.runLength) (hmore : 1 < s.runLeft) (b : Byte) :
    runIndex (setRunLeft (s.runLeft - 1) (storeScan (runIndex s) b s)) = runIndex s + 1 := by
  simp only [runIndex, setRunLeft_slCursor, setRunLeft_runLength, setRunLeft_runLeft, storeScan_slCursor, storeScan_runLength]
  omega

theorem Running.writeRunByte_inv (h : Running s) (hm : s.micro = .writeRun) (hp : MicroOk s) (ht : writeRunByte s = .next t) :
    t.Inv := by
  rw [MicroOk, hm] at hp
  obtain ⟨-, hf, hpos, hleft, hend, hw⟩ := hp
  obtain ⟨hi, hcase⟩ := writeRunByte_next ht
  have hrun := h.storeScan_running hi s.runValue
  have hw' := writtenBelow_storeScan hw s.runValue
  rcases hcase with ⟨hlast, rfl⟩ | ⟨hmore, rfl⟩
  · refine Running.runWritten_inv (s := setRunLeft _ _) { hrun with } hf hend ?_
    rwa [show runIndex s + 1 = s.slCursor.toNat + lenOf s.runLength by unfold runIndex; omega] at hw'
  · rw [← runIndex_next hleft hmore s.runValue] at hw'
    rw [← goto_of_micro (s := setRunLeft _ (storeScan _ _ s)) hm]
    exact Underway.goto_inv (s := setRunLeft _ _) { hrun with } nofun
      ⟨h.ready, hf, Nat.sub_pos_of_lt hmore, Nat.le_trans (Nat.sub_le _ _) hleft, hend, hw'⟩

/-- Entry of `next_8_pixels()`: at the start of a row with the scanline consumed, or at a column of a full scanline (R143). -/
theorem Running.nextPixels_inv (h : Running s) (hc : s.curCmd = some .packRow) (hrow : s.row < 8)
    (hs : (s.slCursor = s.latchedW ∧ s.col = 0) ∨ (ScanFull s ∧ s.col < s.width / 8 ∧ s.slCursor.toNat = 8 * s.col)) :
    (nextPixels s).Inv := by
  rcases nextPixels_cases s with ⟨hcons, hu⟩ | ⟨hcons, hu⟩ <;> rw [hu]
  · refine h.refillScanline_inv (.inr ⟨hc, hrow, ?_⟩)
    rcases hs with ⟨-, hcol⟩ | ⟨-, hcol, hcur⟩
    · exact hcol
    · have : s.slCursor.toNat = s.width := congrArg BitVec.toNat hcons
      omega
  · obtain ⟨hfull, hcol, hcur⟩ := hs.resolve_left fun hs => hcons hs.1
    exact h.goto_inv nofun ⟨h.ready, hc, hfull, Nat.zero_lt_succ _, hrow, hcol, hcur⟩

/-- After the last plane of a column (R163). -/
theorem Running.nextColumn_inv (h : Running s) (hc : s.curCmd = some .packRow) (hrow : s.row < 8) (hfull : ScanFull s)
    (hcol : s.col < s.width / 8) (hcur : s.slCursor.toNat = 8 * (s.col + 1)) : (nextColumn s).Inv := by
  obtain ⟨-, hmod, -⟩ := h.width_legal
  have hlast (hw : s.width / 8 ≤ s.col + 1) : s.slCursor = s.latchedW :=
    BitVec.eq_of_toNat_eq (show s.slCursor.toNat = s.width by omega)
  rcases nextColumn_cases s with ⟨hlt, hu⟩ | ⟨hge, hrow1, hu⟩ | ⟨hge, -, hu⟩ <;> rw [hu]
  · exact Running.nextPixels_inv (s := setTilePos _ _ s) { h with } hc hrow (.inr ⟨hfull, hlt, hcur⟩)
  · exact Running.nextPixels_inv (s := setTilePos _ _ s) { h with } hc hrow1 (.inl ⟨hlast hge, rfl⟩)
  · exact h.complete_inv (.inl (hlast hge))

theorem Running.readPixel_inv {px : List Byte} (h : Running s) (hm : s.micro = .pixels px) (hp : MicroOk s)
    (ht : readPixel px s = .next t) : t.Inv := by
  rw [MicroOk, hm] at hp
  obtain ⟨-, hc, hfull, hlen, hrow, hcol, hcur⟩ := hp
  obtain ⟨-, b, -, ⟨h7, rfl⟩ | ⟨h7, rfl⟩⟩ := readPixel_next ht
  · refine Underway.goto_inv (s := setScanCursor _ s) { h with } nofun
      ⟨h.ready, hc, hfull, by simp [h7], Nat.zero_lt_succ _, hrow, hcol, ?_⟩
    have hwidth : s.width < 2 ^ 32 := s.latchedW.isLt
    have h8 : (8 : Word).toNat = 8 := rfl
    simp only [goto_slCursor, goto_col, setScanCursor_slCursor, setScanCursor_col, BitVec.toNat_add, h8]
    omega
  · refine h.goto_inv nofun ⟨h.ready, hc, hfull, ?_, hrow, hcol, hcur⟩
    rw [List.length_append, List.length_singleton]
    omega

theorem Running.writePlane_inv {p : Nat} {px : List Byte} (h : Running s) (hm : s.micro = .plane p px) (hp : MicroOk s)
    (ht : writePlane p px s = .next t) : t.Inv := by
  rw [MicroOk, hm] at hp
  obtain ⟨-, hc, hfull, hlen, -, hrow, hcol, hcur⟩ := hp
  obtain ⟨hi, ⟨hp1, rfl⟩ | ⟨-, rfl⟩⟩ := writePlane_next ht
  · exact (h.storeTile_running hi _).goto_inv nofun ⟨h.ready, hc, hfull, hlen, hp1, hrow, hcol, hcur⟩
  · exact (h.storeTile_running hi _).nextColumn_inv hc hrow hfull hcol hcur

/-! ### The engine -/

/-- Every micro-step of a command in progress keeps the invariant. -/
theorem microStep_inv (h : s.Inv) (hb : s.state = .busy) (ht : microStep s = .next t) : t.Inv := by
  unfold microStep at ht
  generalize hm : s.micro = m at ht
  cases m with
  | quiet => exact absurd hb (h.quiet.1 hm)
  | code => exact (h.running hb (by simp [hm])).fetchCode_inv (h.position.inNextRun (.inl hm)) ht
  | value len start => exact (h.running hb (by simp [hm])).fetchCode_inv (h.position.inNextRun (.inr ⟨len, start, hm⟩)) ht
  | refill k =>
    simp only at ht
    split at ht <;> obtain rfl := Host.Outcome.next.inj ht
    · exact answerRead_inv h hb hm
    · exact issueRead_inv h hm
  | writeRun => exact (h.running hb (by simp [hm])).writeRunByte_inv hm h.position ht
  | pixels px => exact (h.running hb (by simp [hm])).readPixel_inv hm h.position ht
  | plane p px => exact (h.running hb (by simp [hm])).writePlane_inv hm h.position ht

/-! ### The host -/

theorem HostSide.inv (hu : HostSide s t) (h : s.Inv) : t.Inv := by
  unfold HostSide at hu
  rw [hu]
  exact { h with }

/-- Reset keeps the invariant: the parameter is all that it keeps of the block (R54, R240). -/
theorem resetPin_inv (hp : Config.legalMaxWidth s.maxWidth) : (resetPin s).Inv where
  winWf := rfl
  scanWf := rfl
  tileWf := rfl
  winBelow := fun _ _ => rfl
  scanBelow := fun _ _ => rfl
  tileBelow := fun _ _ => rfl
  parameter := hp
  filledRange := Nat.zero_le _
  cursorRange := Nat.le_refl _
  winLive := nofun
  eosEmpty := nofun
  errorCode := iff_of_true rfl nofun
  command := iff_of_true rfl nofun
  quiet := iff_of_true rfl nofun
  request := nofun
  latched := fun hst => by rcases hst with hst | hst <;> cases hst
  boundary := nofun
  position := trivial

/-- START outside BUSY, whether it accepts the width or not (R183). -/
theorem startBody_inv (h : s.Inv) (hb : s.state ≠ .busy) : (startBody s).Inv := by
  have hst : Stored (clearConversion (accept .start s)) :=
    { h with filledRange := Nat.zero_le _, cursorRange := Nat.le_refl _, winLive := nofun, eosEmpty := nofun }
  rcases startBody_cases s with ⟨hw, hu⟩ | ⟨-, hu⟩ <;> rw [hu]
  · exact Underway.goto_inv (s := setScanCursor s.widthReg _)
      { hst with busy := rfl, noError := rfl, command := nofun, noRequest := h.noRequest hb, legal := hw }
      nofun ⟨⟨rfl, rfl⟩, rfl, rfl⟩
  · exact hst.raise_inv (h.noRequest hb) .dimension 0 nofun

/-- A command accepted in READY is in progress with the window ready (R28, R180). -/
theorem State.Inv.accept_running (h : s.Inv) (hr : s.state = .ready) (c : Command) : Running (accept c s) :=
  { h with
    busy := rfl
    noError := h.noError (.inr hr)
    command := nofun
    noRequest := h.noRequest (by simp [hr])
    legal := h.latched (.inl hr)
    ready := (h.boundary hr).1 }

theorem ReadyBody.inv {v : Word} (hw : ReadyBody s v t) (h : s.Inv) (hr : s.state = .ready) : t.Inv := by
  have hbt := (h.boundary hr).2
  cases hw with
  | packRow =>
    have hrun := h.accept_running hr .packRow
    refine Running.nextPixels_inv (s := setTilePos 0 0 (accept .packRow s)) { hrun with } rfl (Nat.zero_lt_succ _) ?_
    obtain ⟨hpos, hmod, -⟩ := hrun.width_legal
    refine hbt.imp (fun hcons => ⟨hcons, rfl⟩) fun ⟨h0, hfull⟩ => ⟨hfull, ?_, congrArg BitVec.toNat h0⟩
    change 0 < s.width / 8
    rw [accept_width] at hpos hmod
    omega
  | decodeRun => exact (h.accept_running hr .decodeRun).goto_inv nofun ⟨(h.boundary hr).1, hbt⟩
  | fillScanline => exact (h.accept_running hr .fillScanline).refillScanline_inv (.inl rfl)

theorem CtrlWrite.inv {v : Word} (hw : CtrlWrite s v t) (h : s.Inv) : t.Inv := by
  cases hw with
  | nothing => exact h
  | ignored => exact { h with }
  | trapped hb he => exact h.stored.raise_inv (h.noRequest hb) _ s.inOffset he
  | started hb hv => exact startBody_inv h hb
  | ran hr hrun => exact hrun.inv h hr

end

/-! ### The obligations -/

/-- Settles O12: the reset state is reset asserted in the reset state. -/
theorem resetKeepsInvariant : Obligations.ResetKeepsInvariant :=
  resetPin_inv (s := State.reset) (by decide)

/-- Settles O13: by the kinds of step, each of which keeps the invariant. -/
theorem everyStepKeepsInvariant : Obligations.EveryStepKeepsInvariant := by
  unfold Obligations.EveryStepKeepsInvariant
  intro s t hs h
  obtain ⟨u, hu, hk⟩ := step_next h
  have hui := hu.inv hs
  cases hk with
  | host => exact hui
  | engine hb hm => exact microStep_inv hui hb hm
  | reset ha => exact resetPin_inv hui.parameter
  | ctrl ha hw => exact hw.inv hui

/-- Settles O16: READY has the window ready by the invariant, and BUSY has it ready at every position outside `refill()`. -/
theorem windowAtCommandBoundary : Obligations.WindowAtCommandBoundary := by
  unfold Obligations.WindowAtCommandBoundary
  intro s h
  have hready (hw : WindowReady s) (he : s.inCursor = s.inFilled) : s.eos = true :=
    (hw.resolve_left (by rw [he]; exact Nat.lt_irrefl _)).1
  refine ⟨h.cursorRange, fun hr hiff => ?_, fun hb he heos => ?_, fun hb he heos => ?_⟩
  · have hex (hlt : s.inCursor.toNat < s.inFilled.toNat) : ¬(s.eos = true ∧ s.inCursor = 0#9 ∧ s.inFilled = 0#9) :=
      fun ⟨_, _, hf⟩ => by simp [hf] at hlt
    rcases (h.boundary hr).1 with hlt | hend
    · exact hex hlt (hiff.1 hlt)
    · exact hex (hiff.2 hend) hend
  · cases hst : s.state with
    | idle => exact .inl rfl
    | ready => simp [hready (h.boundary hst).1 he] at heos
    | busy => exact absurd hst hb
    | error => exact .inr rfl
  · by_contra hm
    have hw := (h.running hb (not_exists.1 hm)).ready
    simp [hready hw he] at heos

/-- Settles O17: the cursor is at 0 or W between the scanlines, and at a multiple of 8 below or at W inside PACK_ROW's column. -/
theorem scanlineCursorAtBoundaries : Obligations.ScanlineCursorAtBoundaries := by
  unfold Obligations.ScanlineCursorAtBoundaries
  intro s h
  refine ⟨fun hr => ?_, fun _ hm => ?_⟩
  · rcases (h.boundary hr).2 with hcons | ⟨h0, -⟩
    · exact .inr hcons
    · exact .inl h0
  · have hp := h.position
    rw [MicroOk] at hp
    have hwidth : s.width = s.latchedW.toNat := rfl
    rcases hm with hm | ⟨p, px, hm⟩ <;> rw [hm] at hp
    · obtain ⟨-, -, -, -, -, hcol, hcur⟩ := hp
      omega
    · obtain ⟨-, -, -, -, -, -, hcol, hcur⟩ := hp
      omega

/-- At the end of the stream no `refill()` is under way (R27, R28). -/
theorem State.Inv.not_refill_of_eos {s : State} (h : s.Inv) (he : s.eos = true) (k : Resume) : s.micro ≠ .refill k := by
  intro hm
  obtain ⟨⟨-, hne⟩, -⟩ := (microOk_refill hm).1 h.position
  simp [he] at hne

/-- Settles O22: at the end of the stream the engine is not in `refill()`, where alone reads are made and answered, and only START and
reset clear `eos`. -/
theorem noReadAfterEndOfStream : Obligations.NoReadAfterEndOfStream := by
  unfold Obligations.NoReadAfterEndOfStream
  intro s t hs he h hreset hstart
  have hkeep : t.eos = s.eos ∧ t.refillCount = s.refillCount := by
    obtain ⟨u, hu, hk⟩ := step_next h
    rw [← hu.eos, ← hu.refillCount]
    cases hk with
    | host => exact ⟨rfl, rfl⟩
    | engine hb hm =>
      have hno := (hu.inv hs).not_refill_of_eos (hu.eos.trans he)
      obtain ⟨a, ha, hc⟩ := microStep_access hm
      rw [hc.eos, hc.refillCount]
      cases ha with
      | none => exact ⟨rfl, rfl⟩
      | consumed => exact ⟨rfl, rfl⟩
      | issued hm => exact absurd hm (hno _)
      | answered hm extra rest => exact absurd hm (hno _)
    | reset ha => exact absurd ha (hreset _)
    | ctrl ha hw =>
      rcases hw.source with hsame | ⟨rfl, -⟩
      · exact ⟨hsame.eos, hsame.refillCount⟩
      · exact absurd ha (hstart _)
  have hte := hkeep.1.trans he
  have ht := everyStepKeepsInvariant s t hs h
  exact ⟨hte, ht.noRequest_of_micro (ht.not_refill_of_eos hte), hkeep.2⟩

end Sys2Proof.Machine
end

section
/-! Reset and the host's registers (R46 to R54, R91, R240): the words made of fields, and what a step of each host action is. -/

namespace Sys2Proof.Machine

/-! ### The words made of fields -/

/-- A flag's one bit is the flag. -/
theorem flagBit_getLsbD (b : Bool) : (flagBit b).getLsbD 0 = b := by cases b <;> rfl

/-- Five fields side by side, the lowest last: each is the bits from its offset on. -/
theorem extract_fields {v4 v3 v2 v1 v0 : Nat} (x4 : BitVec v4) (x3 : BitVec v3) (x2 : BitVec v2) (x1 : BitVec v1)
    (x0 : BitVec v0) (x : BitVec (v4 + v3 + v2 + v1 + v0)) (h : x = x4 ++ x3 ++ x2 ++ x1 ++ x0) :
    x.extractLsb' 0 v0 = x0 ∧ x.extractLsb' v0 v1 = x1 ∧ x.extractLsb' (v0 + v1) v2 = x2 ∧
      x.extractLsb' (v0 + v1 + v2) v3 = x3 ∧ x.extractLsb' (v0 + v1 + v2 + v3) v4 = x4 := by
  subst h
  refine ⟨?_, ?_, ?_, ?_, ?_⟩ <;>
    simp [BitVec.extractLsb'_append_eq_of_le, BitVec.extractLsb'_append_eq_of_add_le, Nat.add_assoc]

/-- A bit of a word is a field of one bit. -/
theorem getLsbD_of_extract {w i : Nat} {x : BitVec w} {b : BitVec 1} (h : x.extractLsb' i 1 = b) : x.getLsbD i = b.getLsbD 0 := by
  rw [← h, BitVec.getLsbD_extractLsb']
  simp

/-- The fields of STATUS (R48). -/
theorem statusWord_fields (s : State) :
    (statusWord s).extractLsb' 0 2 = s.state.bits ∧ (statusWord s).getLsbD 2 = s.cmdIgnored ∧ (statusWord s).getLsbD 3 = false ∧
      (statusWord s).extractLsb' 4 4 = s.errCode.bits ∧ (statusWord s).extractLsb' 8 24 = 0#24 := by
  obtain ⟨hst, hign, hzero, herr, htop⟩ :=
    extract_fields 0#24 s.errCode.bits 0#1 (flagBit s.cmdIgnored) s.state.bits (statusWord s) rfl
  exact ⟨hst, (getLsbD_of_extract hign).trans (flagBit_getLsbD _), getLsbD_of_extract hzero, herr, htop⟩

/-- The fields of WIN_STATE (R49). -/
theorem winStateWord_fields (s : State) :
    (winStateWord s).extractLsb' 0 9 = s.inCursor ∧ (winStateWord s).extractLsb' 9 7 = 0#7 ∧
      (winStateWord s).extractLsb' 16 9 = s.inFilled ∧ (winStateWord s).extractLsb' 25 6 = 0#6 ∧
      (winStateWord s).getLsbD 31 = s.eos := by
  obtain ⟨hcur, hlow, hfilled, hhigh, heos⟩ :=
    extract_fields (flagBit s.eos) 0#6 s.inFilled 0#7 s.inCursor (winStateWord s) rfl
  exact ⟨hcur, hlow, hfilled, hhigh, (getLsbD_of_extract heos).trans (flagBit_getLsbD _)⟩

/-- The fields of RUN (R50), which are three: the two above them are empty. -/
theorem runWord_fields (s : State) :
    (runWord s).extractLsb' 0 8 = s.runValue ∧ (runWord s).extractLsb' 8 6 = s.runLength ∧
      (runWord s).extractLsb' 14 18 = 0#18 := by
  obtain ⟨hvalue, hlen, htop, -⟩ := extract_fields 0#0 0#0 0#18 s.runLength s.runValue (runWord s) rfl
  exact ⟨hvalue, hlen, htop⟩

/-- The reserved register numbers read 0 (R52). -/
theorem registerValue_reserved {r : BitVec 4} (h : 10 ≤ r.toNat) (s : State) : registerValue r s = 0#32 := by
  obtain ⟨n, hn⟩ := Nat.exists_eq_add_of_le' h
  unfold registerValue
  rw [hn]
  rfl

/-! ### A step of a host action -/

/-- A register read that is exact (R52, R53). -/
theorem step_read_exact {s : State} {r : BitVec 4} {rest : List HostAct} (ha : s.agenda = .read r :: rest)
    (hx : s.state ≠ .busy ∨ r = 1#4 ∨ r = 2#4) : step s = .next { s with agenda := rest, readData := registerValue r s } := by
  rw [step_perform s _ rest ha nofun]
  rcases readRegister_cases r (setAgenda rest s) with ⟨hb, h1, h2, -⟩ | ⟨-, hr⟩
  · rcases hx with hx | hx | hx
    · exact absurd hb hx
    · exact absurd hx h1
    · exact absurd hx h2
  · exact congrArg Host.Outcome.next hr

/-- Any other register read while BUSY (R53, log 3). -/
theorem step_read_free {s : State} {r : BitVec 4} {rest : List HostAct} (ha : s.agenda = .read r :: rest)
    (hb : s.state = .busy) (h1 : r ≠ 1#4) (h2 : r ≠ 2#4) :
    step s = .next { s with agenda := rest, readData := Config.freeWord s.freeIndex, freeIndex := s.freeIndex + 1 } := by
  rw [step_perform s _ rest ha nofun]
  rcases readRegister_cases r (setAgenda rest s) with ⟨-, -, -, hr⟩ | ⟨hx, -⟩
  · exact congrArg Host.Outcome.next hr
  · rcases hx with hx | hx | hx
    · exact absurd hb hx
    · exact absurd hx h1
    · exact absurd hx h2

/-- While BUSY, WAIT leaves the engine its micro-step (R91). -/
theorem step_wait_busy {s : State} {rest : List HostAct} (ha : s.agenda = .wait :: rest) (hb : s.state = .busy) :
    step s = microStep s := by
  rcases step_cases s with ⟨-, hs⟩ | ⟨a, rest', ha', hw, -⟩
  · rcases engineTick_cases s with ⟨-, he⟩ | ⟨hne, -⟩
    · exact hs.trans he
    · exact absurd hb hne
  · cases ha'.symm.trans ha
    exact absurd ⟨rfl, hb⟩ hw

/-- Outside BUSY, WAIT ends with a read of STATUS (R91). -/
theorem step_wait_ends {s : State} {rest : List HostAct} (ha : s.agenda = .wait :: rest) (hb : s.state ≠ .busy) :
    step s = .next { s with agenda := rest, readData := statusWord s } := by
  rcases step_cases s with ⟨hw, -⟩ | ⟨a, rest', ha', -, hs⟩
  · rcases hw with hw | ⟨_, -, hw⟩
    · cases hw.symm.trans ha
    · exact absurd hw hb
  · cases ha'.symm.trans ha
    rw [hs]
    rcases readRegister_cases 1#4 (setAgenda rest s) with ⟨hb', -⟩ | ⟨-, hr⟩
    · exact absurd hb' hb
    · exact congrArg Host.Outcome.next hr

/-! ### The obligations -/

/-- Settles O9, by the definition of the reset state. -/
theorem resetTableValues : Obligations.ResetTableValues :=
  ⟨rfl, rfl, rfl, rfl, rfl, rfl, rfl, rfl, rfl, rfl, rfl, rfl, rfl, rfl, rfl, rfl, rfl, fun _ => ⟨rfl, rfl, rfl⟩⟩

/-- Settles O10: the step performs the reset input with its action taken off the agenda. -/
theorem resetStepRestoresResetState : Obligations.ResetStepRestoresResetState := by
  unfold Obligations.ResetStepRestoresResetState
  intro s rest ha
  rw [step_perform s _ rest ha nofun]
  rfl

/-- Settles O28, by the register written. -/
theorem registerWriteEffects : Obligations.RegisterWriteEffects := by
  unfold Obligations.RegisterWriteEffects
  intro s r v rest ha
  rw [step_perform s _ rest ha nofun]
  refine ⟨fun h2 => ?_, fun h0 h2 => ?_⟩ <;>
    rcases writeRegister_cases r v (setAgenda rest s) with ⟨h, hw⟩ | ⟨h, hw⟩ | ⟨-, h, hw⟩
  · cases h2.symm.trans h
  · exact hw
  · exact absurd h2 h
  · exact absurd h h0
  · exact absurd h h2
  · exact hw

/-- Settles O26: the read is exact, and each clause is the register's value, by its fields where it has some. -/
theorem registerReadValues : Obligations.RegisterReadValues := by
  unfold Obligations.RegisterReadValues
  intro s r rest ha hb stateCode errorCode
  have hstate (e : EngState) : stateCode e = e.bits := by cases e <;> rfl
  have herror (e : ErrCode) : errorCode e = e.bits := by cases e <;> rfl
  rw [hstate, herror]
  refine ⟨registerValue r s, step_read_exact ha (.inl hb), ?_, ?_, ?_, ?_, ?_, ?_, ?_, ?_, ?_, ?_,
    fun h => registerValue_reserved h s⟩ <;> rintro rfl
  · rfl
  · exact statusWord_fields s
  · rfl
  · rfl
  · rfl
  · exact winStateWord_fields s
  · exact runWord_fields s
  · rfl
  · rfl
  · rfl

/-- Settles O27: STATUS and WIDTH are exact while BUSY, any other register is a free value. -/
theorem registerReadsWhileBusy : Obligations.RegisterReadsWhileBusy := by
  unfold Obligations.RegisterReadsWhileBusy
  intro s r rest ha hb errorCode
  have herror (e : ErrCode) : errorCode e = e.bits := by cases e <;> rfl
  rw [herror]
  refine ⟨?_, ?_, step_read_free ha hb⟩ <;> rintro rfl
  · have hf := statusWord_fields s
    rw [hb] at hf
    exact ⟨statusWord s, step_read_exact ha (.inr (.inl rfl)), hf⟩
  · exact step_read_exact ha (.inr (.inr rfl))

/-- Settles O29: a micro-step while BUSY, else a read of STATUS, whose STATE is the engine's. -/
theorem waitEndsOutsideBusy : Obligations.WaitEndsOutsideBusy := by
  unfold Obligations.WaitEndsOutsideBusy
  intro s rest ha stateCode errorCode
  have hstate (e : EngState) : stateCode e = e.bits := by cases e <;> rfl
  have herror (e : ErrCode) : errorCode e = e.bits := by cases e <;> rfl
  have hbits : s.state ≠ .busy → s.state.bits ≠ 2#2 := by cases s.state <;> decide
  rw [hstate, herror]
  refine ⟨step_wait_busy ha, fun hb => ?_⟩
  obtain ⟨hst, hrest⟩ := statusWord_fields s
  exact ⟨statusWord s, step_wait_ends ha hb, hst, hst ▸ hbits hb, hrest⟩

end Sys2Proof.Machine
end

section
/-! What a micro-step does to the state, told once (R45, R61, D26): the one access it makes, to the stream, to the window, or to a byte
of `scan` or `tile`, and after it only the engine's own control moves. -/

namespace Sys2Proof.Machine

/-! ### The engine's control -/

/-- `s` with the control of `c`: the engine state, the error, the Run register, the scanline cursor, and the engine's position in the
command (R22, R34, R37, R41, R42, R45). -/
def withControl (c s : State) : State :=
  { s with
    state := c.state, errCode := c.errCode, errOffset := c.errOffset
    slCursor := c.slCursor, runValue := c.runValue, runLength := c.runLength
    curCmd := c.curCmd, row := c.row, col := c.col, runLeft := c.runLeft, micro := c.micro }

/-- `t` is `s` but for the engine's control: no buffer, no window field, and nothing of the stream or the host has changed. -/
def EngineSide (s t : State) : Prop := t = withControl t s

theorem scanlineDone_engineSide (s : State) : EngineSide s (scanlineDone s) := by
  rcases scanlineDone_cases s with ⟨-, h⟩ | ⟨-, h⟩ | ⟨-, h⟩ <;> rw [h] <;> rfl

theorem scanLoop_engineSide (s : State) : EngineSide s (scanLoop s) := by
  rcases scanLoop_cases s with ⟨-, h⟩ | ⟨-, h⟩ <;> rw [h]
  · rfl
  · exact scanlineDone_engineSide (setScanCursor 0 s)

theorem refillScanline_engineSide (s : State) : EngineSide s (refillScanline s) :=
  scanLoop_engineSide (setScanCursor 0 s)

theorem runWritten_engineSide (s : State) : EngineSide s (runWritten s) :=
  scanLoop_engineSide (setScanCursor (s.slCursor + s.runLength.zeroExtend 32) s)

theorem assembleRun_engineSide (start : Word) (s : State) : EngineSide s (assembleRun start s) := by
  rcases assembleRun_cases start s with ⟨-, h⟩ | ⟨-, -, h⟩ | ⟨-, -, h⟩ <;> rw [h]
  · rfl
  · exact runWritten_engineSide (setRunLeft 0 s)
  · rfl

theorem latchRun_engineSide (value : Byte) (len : BitVec 6) (start : Word) (s : State) :
    EngineSide s (latchRun value len start s) := by
  rcases latchRun_cases value len start s with ⟨-, h⟩ | ⟨-, h⟩ | ⟨-, h⟩ <;> rw [h]
  · rfl
  · exact assembleRun_engineSide start (setRun value len s)
  · rfl

theorem resume_engineSide (k : Resume) (s : State) : EngineSide s (resume k s) := by
  cases k with
  | primed => rfl
  | value len start => rfl
  | latch value len start => exact latchRun_engineSide value len start s

theorem nextPixels_engineSide (s : State) : EngineSide s (nextPixels s) := by
  rcases nextPixels_cases s with ⟨-, h⟩ | ⟨-, h⟩ <;> rw [h]
  · exact refillScanline_engineSide s
  · rfl

theorem nextColumn_engineSide (s : State) : EngineSide s (nextColumn s) := by
  rcases nextColumn_cases s with ⟨-, h⟩ | ⟨-, -, h⟩ | ⟨-, -, h⟩ <;> rw [h]
  · exact nextPixels_engineSide (setTilePos s.row (s.col + 1) s)
  · exact nextPixels_engineSide (setTilePos (s.row + 1) 0 s)
  · rfl

/-- The acceptance of a command other than START touches only the engine's control (R180, R184 to R186). -/
theorem ReadyBody.engineSide {s t : State} {v : Word} (h : ReadyBody s v t) : EngineSide s t := by
  cases h with
  | packRow => exact nextPixels_engineSide (setTilePos 0 0 (accept .packRow s))
  | decodeRun => rfl
  | fillScanline => exact refillScanline_engineSide (accept .fillScanline s)

/-! ### The one access of a micro-step -/

/-- The access a micro-step makes, with the state right after it: none that changes anything, a byte of the window consumed, a read
issued, answered by IOERR, or answered with bytes, or a byte written inside the live part of `scan` or of `tile` (R45, R61, D26). -/
inductive MicroAccess (s : State) : State → Prop
  | none : MicroAccess s s
  | consumed : MicroAccess s (consume s)
  | issued : MicroAccess s (issueRead s)
  | failed (rest : List Draw) : MicroAccess s { setDraws rest s with reqPending := false }
  | answered (extra : Byte) (rest : List Draw) : MicroAccess s (takeBytes extra (setDraws rest s))
  | wroteScan {i : Nat} (hi : i < s.width) (b : Byte) : MicroAccess s (storeScan i b s)
  | wroteTile {i : Nat} (hi : i < 4 * s.width) (b : Byte) : MicroAccess s (storeTile i b s)

section
variable {s t : State}

theorem takeValue_effect (value : Byte) (len : BitVec 6) (start : Word) (s : State) :
    ∃ u, MicroAccess s u ∧ EngineSide u (takeValue value len start s) := by
  rcases takeValue_cases value len start s with ⟨-, h⟩ | ⟨-, -, h⟩ | ⟨-, -, h⟩ <;> rw [h]
  · exact ⟨s, .none, rfl⟩
  · exact ⟨consume s, .consumed, rfl⟩
  · exact ⟨consume s, .consumed, latchRun_engineSide value len start _⟩

theorem takeMarker_effect (len : BitVec 6) (s : State) : ∃ u, MicroAccess s u ∧ EngineSide u (takeMarker len s) := by
  rcases takeMarker_cases len s with ⟨-, h⟩ | ⟨-, -, h⟩ | ⟨-, -, h⟩ <;> rw [h]
  · exact ⟨s, .none, rfl⟩
  · exact ⟨consume s, .consumed, rfl⟩
  · exact ⟨consume s, .consumed, rfl⟩

theorem fetchCode_effect (h : fetchCode s = .next t) : ∃ u, MicroAccess s u ∧ EngineSide u t := by
  rcases fetchCode_takes h with rfl | ⟨value, len, start, rfl⟩ | ⟨len, rfl⟩
  · exact ⟨s, .none, rfl⟩
  · exact takeValue_effect value len start s
  · exact takeMarker_effect len s

theorem answerRead_effect (k : Resume) (s : State) : ∃ u, MicroAccess s u ∧ EngineSide u (answerRead k s) := by
  rcases answerRead_cases k s with ⟨-, h⟩ | ⟨rest, -, h⟩ | ⟨extra, rest, -, h⟩ <;> rw [h]
  · exact ⟨s, .none, rfl⟩
  · exact ⟨_, .failed rest, rfl⟩
  · exact ⟨_, .answered extra rest, resume_engineSide k _⟩

/-- A micro-step is one access, and after it only the engine's control moves (R45). -/
theorem microStep_effect (h : microStep s = .next t) : ∃ u, MicroAccess s u ∧ EngineSide u t := by
  unfold microStep at h
  generalize s.micro = m at h
  cases m with
  | quiet => obtain rfl := Host.Outcome.next.inj h; exact ⟨_, .none, rfl⟩
  | code => exact fetchCode_effect h
  | value len start => exact fetchCode_effect h
  | refill k =>
    simp only at h
    split at h <;> obtain rfl := Host.Outcome.next.inj h
    · exact answerRead_effect k s
    · exact ⟨_, .issued, rfl⟩
  | writeRun =>
    obtain ⟨hi, ⟨-, rfl⟩ | ⟨-, rfl⟩⟩ := writeRunByte_next h
    · exact ⟨_, .wroteScan hi s.runValue, runWritten_engineSide (setRunLeft _ _)⟩
    · exact ⟨_, .wroteScan hi s.runValue, rfl⟩
  | pixels px =>
    obtain ⟨-, _, -, ⟨-, rfl⟩ | ⟨-, rfl⟩⟩ := readPixel_next h <;> exact ⟨s, .none, rfl⟩
  | plane p px =>
    obtain ⟨hi, ⟨-, rfl⟩ | ⟨-, rfl⟩⟩ := writePlane_next h
    · exact ⟨_, .wroteTile hi (planeByte px p), rfl⟩
    · exact ⟨_, .wroteTile hi (planeByte px p), nextColumn_engineSide _⟩

end

end Sys2Proof.Machine
end

section
/-! The buffers (R29, R60 to R64, R103): what a step changes in them, what the host cannot change, and what the host's read port
answers. -/

namespace Sys2Proof.Machine

/-! ### Changes in the live parts -/

/-- No buffer has changed. -/
structure SameBuffers (s t : State) : Prop where
  win : t.win = s.win
  scan : t.scan = s.scan
  tile : t.tile = s.tile

/-- What has changed in `scan` and `tile` lies in the live parts, and in `win` in the live part afterwards (R29, R61, R103). -/
structure ChangesInLivePart (s t : State) : Prop where
  scan : ∀ i, s.width ≤ i → t.scan.read i = s.scan.read i
  tile : ∀ i, 4 * s.width ≤ i → t.tile.read i = s.tile.read i
  win : ∀ i, t.inFilled.toNat ≤ i → t.win.read i = s.win.read i

section
variable {s t u : State}

theorem HostSide.sameBuffers (h : HostSide s t) : SameBuffers s t := by
  unfold HostSide at h
  rw [h]
  exact ⟨rfl, rfl, rfl⟩

theorem HostSide.width (h : HostSide s t) : t.width = s.width := by
  unfold HostSide at h
  rw [h]
  rfl

theorem EngineSide.sameBuffers (h : EngineSide s t) : SameBuffers s t := by
  unfold EngineSide at h
  rw [h]
  exact ⟨rfl, rfl, rfl⟩

theorem EngineSide.inFilled (h : EngineSide s t) : t.inFilled = s.inFilled := by
  unfold EngineSide at h
  rw [h]
  rfl

theorem SameBuffers.changesInLivePart (h : SameBuffers s t) : ChangesInLivePart s t :=
  ⟨fun _ _ => by rw [h.scan], fun _ _ => by rw [h.tile], fun _ _ => by rw [h.win]⟩

/-- What the host does before a change, and the engine's control after it, do not matter to where the change lies. -/
theorem ChangesInLivePart.of_sides {u' : State} (hc : ChangesInLivePart u u') (hu : HostSide s u) (ht : EngineSide u' t) :
    ChangesInLivePart s t where
  scan i hi := by rw [ht.sameBuffers.scan, hc.scan i (by rw [hu.width]; exact hi), hu.sameBuffers.scan]
  tile i hi := by rw [ht.sameBuffers.tile, hc.tile i (by rw [hu.width]; exact hi), hu.sameBuffers.tile]
  win i hi := by rw [ht.sameBuffers.win, hc.win i (by rw [← ht.inFilled]; exact hi), hu.sameBuffers.win]

/-- An answered read leaves the bytes of `win` above the live part it sets as they were (R29, R103). -/
theorem takeBytes_win_read_stale (extra : Byte) (s : State) {i : Nat} (hi : (takeBytes extra s).inFilled.toNat ≤ i) :
    (takeBytes extra s).win.read i = s.win.read i := by
  obtain ⟨hlen, hcap, -⟩ := delivered_bounds extra s.upcoming
  have hfilled : (takeBytes extra s).inFilled.toNat = delivered extra s.upcoming := by
    simp only [Config.winCap] at hcap
    rw [takeBytes_inFilled, BitVec.toNat_ofNat]
    omega
  rw [takeBytes_win, Memory.read_writeAll, List.length_take, if_neg (by omega)]

/-- The access of a micro-step changes a buffer in its live part only (R61). -/
theorem MicroAccess.changesInLivePart (h : MicroAccess s t) : ChangesInLivePart s t := by
  cases h with
  | none => exact SameBuffers.changesInLivePart ⟨rfl, rfl, rfl⟩
  | consumed => exact SameBuffers.changesInLivePart ⟨rfl, rfl, rfl⟩
  | issued => exact SameBuffers.changesInLivePart ⟨rfl, rfl, rfl⟩
  | failed rest => exact SameBuffers.changesInLivePart ⟨rfl, rfl, rfl⟩
  | answered extra rest => exact ⟨fun _ _ => rfl, fun _ _ => rfl, fun _ hi => takeBytes_win_read_stale extra (setDraws rest s) hi⟩
  | wroteScan hi b => exact ⟨fun j hj => Memory.read_write_other _ _ _ _ (by omega), fun _ _ => rfl, fun _ _ => rfl⟩
  | wroteTile hi b => exact ⟨fun _ _ => rfl, fun j hj => Memory.read_write_other _ _ _ _ (by omega), fun _ _ => rfl⟩

/-! ### The host -/

theorem startBody_sameBuffers (s : State) : SameBuffers s (startBody s) := by
  rcases startBody_cases s with ⟨-, h⟩ | ⟨-, h⟩ <;> rw [h] <;> exact ⟨rfl, rfl, rfl⟩

/-- A CTRL write starts the engine at most; the command's micro-steps follow (R64, R180). -/
theorem CtrlWrite.sameBuffers {v : Word} (h : CtrlWrite s v t) : SameBuffers s t := by
  cases h with
  | nothing => exact ⟨rfl, rfl, rfl⟩
  | ignored => exact ⟨rfl, rfl, rfl⟩
  | trapped hb he => exact ⟨rfl, rfl, rfl⟩
  | started hb hv => exact startBody_sameBuffers s
  | ran hr h => exact h.engineSide.sameBuffers

theorem writeRegister_sameBuffers {r : BitVec 4} {v : Word} (h : writeRegister r v s = .next t) : SameBuffers s t := by
  rcases writeRegister_cases r v s with ⟨-, hw⟩ | ⟨-, hw⟩ | ⟨-, -, hw⟩ <;> rw [hw] at h
  · exact (writeCtrl_next h).sameBuffers
  · obtain rfl := Host.Outcome.next.inj h; exact ⟨rfl, rfl, rfl⟩
  · obtain rfl := Host.Outcome.next.inj h; exact ⟨rfl, rfl, rfl⟩

/-- An action that is neither a micro-step left to the engine nor reset writes no buffer (R64). -/
theorem perform_sameBuffers {a : HostAct} (htick : a ≠ .tick) (hreset : a ≠ .reset) (h : perform a s = .next t) :
    SameBuffers s t := by
  cases a with
  | tick => exact absurd rfl htick
  | wait => obtain rfl := Host.Outcome.next.inj h; exact (readRegister_hostSide 1#4 s).sameBuffers
  | write r v => exact writeRegister_sameBuffers h
  | read r => obtain rfl := Host.Outcome.next.inj h; exact (readRegister_hostSide r s).sameBuffers
  | bufRead sp i => exact (readBuffer_hostSide h).sameBuffers
  | reset => exact absurd rfl hreset
  | bind bytes cycle => obtain rfl := Host.Outcome.next.inj h; exact ⟨rfl, rfl, rfl⟩
  | lateAnswer d => obtain rfl := Host.Outcome.next.inj h; exact (takeLateAnswer_hostSide d s).sameBuffers

end

/-! ### The engine's accesses -/

section
variable {s : State}

/-- The bytes shown to the decoder begin with the one at the cursor (R101). -/
theorem windowBytes_succ {b : Byte} (n : Nat) (hne : s.inCursor ≠ s.inFilled) (hb : s.win.read s.inCursor.toNat = some b) :
    windowBytes (n + 1) s = b :: windowBytes n (consume s) := by
  simp only [windowBytes]
  rw [if_neg (mt (windowEmpty_iff s).1 hne), hb]

/-- A code has a first byte, and then only a marker's value byte can be missing (R80, R81). -/
theorem decodeStream_cons (b : Byte) (bs : List Byte) :
    (∃ i rest, decodeStream (b :: bs) = .ok (i, rest)) ∨ decodeStream (b :: bs) = .error .noValueByte := by
  cases hb : isMarker b with
  | false => exact .inl ⟨_, _, decodeStream_literal b bs hb⟩
  | true =>
    cases bs with
    | nil => exact .inr (decodeStream_marker_alone b hb)
    | cons v vs => exact .inl ⟨_, _, decodeStream_marker b v vs hb⟩

/-- Every instruction has a next state; the faults are raised where its bytes are fetched and in the micro-steps that follow. -/
theorem exec_goesOn (i : Instr) (s : State) : ∃ t, exec i s = .next t := by
  cases i with
  | lit00 value => exact ⟨_, rfl⟩
  | lit01 value => exact ⟨_, rfl⟩
  | lit10 value => exact ⟨_, rfl⟩
  | run len value => exact ⟨_, rfl⟩
  | nop => rcases execNop_cases s with ⟨-, h⟩ | ⟨-, h⟩ <;> exact ⟨_, h⟩
  | start => rcases execStart_cases s with ⟨-, h⟩ | ⟨-, h⟩ <;> exact ⟨_, h⟩
  | packRow => exact ⟨_, rfl⟩
  | decodeRun => exact ⟨_, rfl⟩
  | fillScanline => exact ⟨_, rfl⟩

/-- A fetch that finds a byte available reads one that was written (R29, R61, R101). -/
theorem Running.fetchCode_goesOn (h : Running s) : ∃ t, fetchCode s = .next t := by
  unfold fetchCode
  split
  · exact ⟨_, rfl⟩
  next hw =>
    have hne : s.inCursor ≠ s.inFilled := fun he => hw ((windowEmpty_iff s).2 he)
    obtain ⟨b, hb⟩ := Option.isSome_iff_exists.1 (h.winLive _ (h.cursor_lt hne))
    by_cases hm : ∃ len start, s.micro = .value len start
    · obtain ⟨len, start, hm⟩ := hm
      have hbytes : fetchBytes s = [markerOf len, b] := by
        rw [fetchBytes, hm]
        exact congrArg _ (windowBytes_succ 0 hne hb)
      simp only [hbytes, decodeStream_marker _ _ _ (isMarker_markerOf len)]
      exact exec_goesOn _ s
    · have hbytes : fetchBytes s = b :: windowBytes 1 (consume s) := by
        rw [← windowBytes_succ 1 hne hb]
        unfold fetchBytes
        split
        next len start hv => exact absurd ⟨len, start, hv⟩ hm
        next => rfl
      rcases decodeStream_cons b (windowBytes 1 (consume s)) with ⟨i, rest, hd⟩ | hd
      · simp only [hbytes, hd]
        exact exec_goesOn i s
      · simp only [hbytes, hd]
        split
        next len start hv => exact absurd ⟨len, start, hv⟩ hm
        next => exact ⟨_, rfl⟩

theorem writeRunByte_goesOn (hi : runIndex s < s.width) : ∃ t, writeRunByte s = .next t := by
  simp only [writeRunByte, if_pos hi]
  split <;> exact ⟨_, rfl⟩

theorem readPixel_goesOn {px : List Byte} (hi : s.slCursor.toNat + px.length < s.width) (hs : ScanFull s) :
    ∃ t, readPixel px s = .next t := by
  obtain ⟨b, hb⟩ := Option.isSome_iff_exists.1 (hs _ hi)
  simp only [readPixel, if_pos hi, hb]
  split <;> exact ⟨_, rfl⟩

theorem writePlane_goesOn {p : Nat} {px : List Byte} (hi : tileIndex s.col s.row p < 4 * s.width) :
    ∃ t, writePlane p px s = .next t := by
  simp only [writePlane, if_pos hi]
  split <;> exact ⟨_, rfl⟩

/-- The engine's next access is inside a live part and to a written byte, at every position of a command in progress (R61). -/
theorem State.Inv.microStep_goesOn (h : s.Inv) (hb : s.state = .busy) : ∃ t, microStep s = .next t := by
  have hp := h.position
  unfold MicroOk at hp
  unfold microStep
  cases hm : s.micro with
  | quiet => exact ⟨_, rfl⟩
  | code => exact (h.running hb (by simp [hm])).fetchCode_goesOn
  | value len start => exact (h.running hb (by simp [hm])).fetchCode_goesOn
  | refill k => cases s.reqPending <;> exact ⟨_, rfl⟩
  | writeRun =>
    rw [hm] at hp
    obtain ⟨-, -, hpos, hleft, hend, -⟩ := hp
    exact writeRunByte_goesOn (by unfold runIndex; omega)
  | pixels px =>
    rw [hm] at hp
    obtain ⟨-, -, hfull, hlen, -, hcol, hcur⟩ := hp
    exact readPixel_goesOn (by omega) hfull
  | plane p px =>
    rw [hm] at hp
    obtain ⟨-, -, -, -, hplane, hrow, hcol, -⟩ := hp
    exact writePlane_goesOn (by unfold tileIndex; omega)

theorem State.Inv.engineTick_goesOn (h : s.Inv) : ∃ t, engineTick s = .next t := by
  rcases engineTick_cases s with ⟨hb, he⟩ | ⟨-, he⟩ <;> rw [he]
  · exact h.microStep_goesOn hb
  · exact ⟨_, rfl⟩

theorem writeRegister_goesOn (r : BitVec 4) (v : Word) (s : State) : ∃ t, writeRegister r v s = .next t := by
  rcases writeRegister_cases r v s with ⟨-, hw⟩ | ⟨-, hw⟩ | ⟨-, -, hw⟩ <;> rw [hw]
  · rcases writeCtrl_cases v s with ⟨i, -, hc⟩ | ⟨e, -, hc⟩ <;> rw [hc]
    · exact exec_goesOn i s
    · exact ⟨_, rfl⟩
  · exact ⟨_, rfl⟩
  · exact ⟨_, rfl⟩

/-- An action goes on, but for a buffer read at or above the capacity, which is refused (R61, R63). -/
theorem State.Inv.perform_goesOn (h : s.Inv) (a : HostAct) :
    (∃ t, perform a s = .next t) ∨ ∃ sp i, a = .bufRead sp i ∧ perform a s = .refused (.noSuchByte sp i) := by
  cases a with
  | tick => exact .inl h.engineTick_goesOn
  | wait => exact .inl ⟨_, rfl⟩
  | write r v => exact .inl (writeRegister_goesOn r v s)
  | read r => exact .inl ⟨_, rfl⟩
  | bufRead sp i =>
    rcases readBuffer_cases sp i s with ⟨-, hr⟩ | ⟨-, ⟨_, -, -, -, hr⟩ | ⟨-, hr⟩⟩
    · exact .inr ⟨sp, i, rfl, hr⟩
    · exact .inl ⟨_, hr⟩
    · exact .inl ⟨_, hr⟩
  | reset => exact .inl ⟨_, rfl⟩
  | bind bytes cycle => exact .inl ⟨_, rfl⟩
  | lateAnswer d => exact .inl ⟨_, rfl⟩

end

/-! ### The read port -/

section
variable {s : State} {sp : Space} {i : Nat}

theorem readBuffer_refused (h : s.capacity sp ≤ i) : readBuffer sp i s = .refused (.noSuchByte sp i) := if_pos h

theorem readBuffer_exact {b : Byte} (hlt : i < s.capacity sp) (hb : s.state ≠ .busy) (hl : i < s.liveLen sp)
    (hread : (s.buffer sp).read i = some b) : readBuffer sp i s = .next (gotByte b s) := by
  rw [readBuffer, if_neg (Nat.not_le.2 hlt), if_pos ⟨hb, hl⟩, hread]

theorem readBuffer_free (hlt : i < s.capacity sp)
    (hfree : s.state = .busy ∨ s.liveLen sp ≤ i ∨ (s.buffer sp).read i = none) : readBuffer sp i s = .next (drawByte s) := by
  rw [readBuffer, if_neg (Nat.not_le.2 hlt)]
  by_cases hx : s.state ≠ .busy ∧ i < s.liveLen sp
  · obtain ⟨hb, hl⟩ := hx
    rw [if_pos ⟨hb, hl⟩, (hfree.resolve_left hb).resolve_left (Nat.not_le.2 hl)]
  · exact if_neg hx

end

/-! ### The obligations -/

/-- Settles O14: the engine's micro-steps go on from the invariant, and no action of the host raises a fault. -/
theorem noEngineAccessFault : Obligations.NoEngineAccessFault := by
  unfold Obligations.NoEngineAccessFault
  intro s f h hf
  rcases step_cases s with ⟨-, hs⟩ | ⟨a, rest, -, -, hs⟩ <;> rw [hs] at hf
  · obtain ⟨t, ht⟩ := h.engineTick_goesOn
    cases ht.symm.trans hf
  · have hu : HostSide s (setAgenda rest s) := rfl
    rcases (hu.inv h).perform_goesOn a with ⟨t, ht⟩ | ⟨sp, i, -, hr⟩
    · cases ht.symm.trans hf
    · cases hr.symm.trans hf

/-- Settles O15: of the kinds of step only a micro-step and reset change a buffer, and a micro-step by its one access. -/
theorem buffersChangeOnlyInLivePart : Obligations.BuffersChangeOnlyInLivePart := by
  unfold Obligations.BuffersChangeOnlyInLivePart
  intro s t _ hreset h
  suffices hc : ChangesInLivePart s t from ⟨hc.scan, hc.tile, hc.win⟩
  obtain ⟨u, hu, hk⟩ := step_next h
  cases hk with
  | host => exact hu.sameBuffers.changesInLivePart
  | engine hb hm =>
    obtain ⟨u', ha, ht⟩ := microStep_effect hm
    exact ha.changesInLivePart.of_sides hu ht
  | reset ha => exact absurd ha (hreset _)
  | ctrl ha hw => exact hw.sameBuffers.changesInLivePart.of_sides hu rfl

/-- Settles O32: the step performs the action, whichever it is of the host's own. -/
theorem hostCannotWriteBuffers : Obligations.HostCannotWriteBuffers := by
  unfold Obligations.HostCannotWriteBuffers
  intro s t a rest ha htick hwait hreset h
  rw [step_perform s a rest ha hwait] at h
  obtain ⟨hwin, hscan, htile⟩ := perform_sameBuffers htick hreset h
  exact ⟨hwin, hscan, htile⟩

/-- Settles O31: the step is the read port's, whose three cases have the same bounds for each buffer. -/
theorem bufferReadPort : Obligations.BufferReadPort := by
  unfold Obligations.BufferReadPort
  intro s sp i rest ha cap live buf
  rw [step_perform s _ rest ha nofun]
  have hrefused := readBuffer_refused (s := setAgenda rest s) (sp := sp) (i := i)
  have hexact (b : Byte) := readBuffer_exact (s := setAgenda rest s) (sp := sp) (i := i) (b := b)
  have hfree := readBuffer_free (s := setAgenda rest s) (sp := sp) (i := i)
  cases sp <;> exact ⟨hrefused, hexact, hfree⟩

end Sys2Proof.Machine
end

section
/-! The encoding (R80 to R86): what the decoders accept is exactly the encoding of a well-formed instruction; a step runs the instruction
its word or its stream bytes decode to; and what the bytes of REP assemble to (R90). -/

namespace Sys2Proof.Machine

/-! ### Stream codes -/

/-- Both high bits are set (R8, R81). -/
theorem isMarker_iff_mask (b : Byte) : isMarker b = true ↔ b &&& 0xC0#8 = 0xC0#8 := beq_iff_eq

theorem isMarker_eq_false_of_tag {b : Byte} (h : tagOf b ≠ 3#2) : isMarker b = false :=
  Bool.eq_false_iff.2 (mt (isMarker_iff_tag b).1 h)

theorem encode_literalOf {b : Byte} (h : isMarker b = false) : encode (literalOf b) = .stream [b] := by
  rcases (literalOf_cases b h).1 with hi | hi | hi <;> rw [hi] <;> rfl

/-- A LIT with the tag of its row is what its byte stands for (R80). -/
theorem decodeStream_of_tag {v : Byte} {i : Instr} (ht : tagOf v ≠ 3#2) (hi : literalOf v = i) (rest : List Byte) :
    decodeStream (v :: rest) = .ok (i, rest) :=
  hi ▸ decodeStream_literal v rest (isMarker_eq_false_of_tag ht)

/-- A well-formed stream code is decoded from its bytes, whatever follows them (R80, R81). -/
theorem decodeStream_encode {i : Instr} {code : List Byte} (hw : i.wellFormed = true) (he : encode i = .stream code)
    (rest : List Byte) : decodeStream (code ++ rest) = .ok (i, rest) := by
  cases i with
  | lit00 v =>
    obtain rfl := Code.stream.inj he
    have ht : tagOf v = 0#2 := by simpa using hw
    exact decodeStream_of_tag (by simp [ht]) (by simp [literalOf, ht]) rest
  | lit01 v =>
    obtain rfl := Code.stream.inj he
    have ht : tagOf v = 1#2 := by simpa using hw
    exact decodeStream_of_tag (by simp [ht]) (by simp [literalOf, ht]) rest
  | lit10 v =>
    obtain rfl := Code.stream.inj he
    have ht : tagOf v = 2#2 := by simpa using hw
    exact decodeStream_of_tag (by simp [ht]) (by simp [literalOf, ht]) rest
  | run len v =>
    obtain rfl := Code.stream.inj he
    have hd := decodeStream_marker (markerOf len) v rest (isMarker_markerOf len)
    rwa [markerLen_markerOf] at hd
  | nop => cases he
  | start => cases he
  | packRow => cases he
  | decodeRun => cases he
  | fillScanline => cases he

/-- What the stream decoder accepts: a byte below 0xC0, or a marker and a value byte (R81, R83). -/
theorem decodeStream_ok_cases {bytes rest : List Byte} {i : Instr} (h : decodeStream bytes = .ok (i, rest)) :
    (∃ b, isMarker b = false ∧ bytes = b :: rest ∧ i = literalOf b) ∨
      ∃ b v, isMarker b = true ∧ bytes = b :: v :: rest ∧ i = .run (markerLen b) v := by
  cases bytes with
  | nil => cases h
  | cons b bs =>
    cases hb : isMarker b with
    | false => cases (decodeStream_literal b bs hb).symm.trans h; exact .inl ⟨b, hb, rfl, rfl⟩
    | true =>
      cases bs with
      | nil => cases (decodeStream_marker_alone b hb).symm.trans h
      | cons v vs => cases (decodeStream_marker b v vs hb).symm.trans h; exact .inr ⟨b, v, hb, rfl, rfl⟩

/-- The stream decoder accepts exactly the encodings of well-formed instructions, with any bytes after them. -/
theorem decodeStream_ok_iff {bytes rest : List Byte} {i : Instr} :
    decodeStream bytes = .ok (i, rest) ↔ i.wellFormed = true ∧ ∃ code, encode i = .stream code ∧ bytes = code ++ rest := by
  constructor
  · intro h
    rcases decodeStream_ok_cases h with ⟨b, hb, rfl, rfl⟩ | ⟨b, v, hb, rfl, rfl⟩
    · exact ⟨(literalOf_cases b hb).2, [b], encode_literalOf hb, rfl⟩
    · refine ⟨rfl, [b, v], ?_, rfl⟩
      rw [encode, markerOf_markerLen b hb]
  · rintro ⟨hw, code, he, rfl⟩
    exact decodeStream_encode hw he rest

/-! ### Command words -/

/-- The command decoder accepts exactly the encodings of the commands (R84, R85). -/
theorem decodeCommand_ok_iff {w : Word} {i : Instr} : decodeCommand w = .ok i ↔ encode i = .ctrl w := by
  refine ⟨encode_of_decodeCommand, fun he => ?_⟩
  cases i with
  | lit00 v => cases he
  | lit01 v => cases he
  | lit10 v => cases he
  | run len v => cases he
  | nop => cases he; rfl
  | start => cases he; rfl
  | packRow => cases he; rfl
  | decodeRun => cases he; rfl
  | fillScanline => cases he; rfl

theorem decodeCommand_ok_or_reserved (w : Word) :
    (∃ i, decodeCommand w = .ok i) ∨ decodeCommand w = .error (.reservedCommand w) := by
  unfold decodeCommand
  split_ifs <;> simp

/-- A command has no reserved bit set and a code below 5 (R84, R85). -/
theorem fields_of_encode {w : Word} {i : Instr} (he : encode i = .ctrl w) : resField w = 0 ∧ (cmdField w).toNat < 5 := by
  cases i with
  | lit00 v => cases he
  | lit01 v => cases he
  | lit10 v => cases he
  | run len v => cases he
  | nop => cases he; decide
  | start => cases he; decide
  | packRow => cases he; decide
  | decodeRun => cases he; decide
  | fillScanline => cases he; decide

theorem lt_five_cases {c : BitVec 4} (h : c.toNat < 5) : c = 0 ∨ c = 1 ∨ c = 2 ∨ c = 3 ∨ c = 4 := by
  revert c; decide

/-- A word with no reserved bit set and a code below 5 is a command (R84, R85). -/
theorem decodeCommand_of_fields {w : Word} (hr : resField w = 0) (hc : (cmdField w).toNat < 5) :
    ∃ i, decodeCommand w = .ok i := by
  unfold decodeCommand
  rcases lt_five_cases hc with h | h | h | h | h <;> simp [hr, h]

/-! ### The step -/

section
variable {s : State} {i : Instr}

theorem writeCtrl_of_decode {w : Word} (hd : decodeCommand w = .ok i) : writeCtrl w s = exec i s := by
  rw [writeCtrl, hd]

theorem fetchBytes_setAgenda (acts : List HostAct) (s : State) : fetchBytes (setAgenda acts s) = fetchBytes s := rfl

/-- With a byte available the code at the cursor runs (R122). -/
theorem fetchCode_of_decode {left : List Byte} (hne : s.inCursor ≠ s.inFilled)
    (hd : decodeStream (fetchBytes s) = .ok (i, left)) : fetchCode s = exec i s := by
  rw [fetchCode, if_neg (mt (windowEmpty_iff s).1 hne), hd]

/-- Where `next_run()` wants a byte, the engine's micro-step runs the code it decodes (R45, R122). -/
theorem microStep_of_decode {left : List Byte} (hm : s.micro = .code ∨ ∃ len start, s.micro = .value len start)
    (hne : s.inCursor ≠ s.inFilled) (hd : decodeStream (fetchBytes s) = .ok (i, left)) : microStep s = exec i s := by
  have hf := fetchCode_of_decode hne hd
  rcases hm with hm | ⟨len, start, hm⟩ <;> rw [microStep, hm] <;> exact hf

/-- A step the host leaves to a BUSY engine is its micro-step (R72). -/
theorem step_tick_busy {rest : List HostAct} (ha : s.agenda = .tick :: rest) (hb : s.state = .busy) :
    step s = microStep (setAgenda rest s) := by
  rw [step_perform s _ rest ha nofun]
  rcases engineTick_cases (setAgenda rest s) with ⟨-, he⟩ | ⟨hne, -⟩
  · exact he
  · exact absurd hb hne

end

/-! ### Scanlines from bytes -/

section
variable {w : Nat} {acc : List Byte}

theorem assembleRow_full (h : w ≤ acc.length) (bytes : List Byte) : assembleRow w acc bytes = .row acc bytes := by
  unfold assembleRow
  cases bytes <;> exact if_pos h

/-- A byte below 0xC0 is a pixel (R83). -/
theorem assembleRow_literal {b : Byte} (h : acc.length < w) (hb : isMarker b = false) (rest : List Byte) :
    assembleRow w acc (b :: rest) = assembleRow w (acc ++ [b]) rest := by
  have hlt : b.toNat < 0xC0 := Nat.not_le.1 (mt (isMarker_iff b).2 (Bool.eq_false_iff.1 hb))
  rw [assembleRow.eq_def]
  exact (if_neg (Nat.not_le.2 h)).trans (if_pos hlt)

/-- A run that fits is that many pixels of its value (R83, R140). -/
theorem assembleRow_run {len : BitVec 6} (h : acc.length < w) (hfit : acc.length + len.toNat ≤ w) (v : Byte)
    (rest : List Byte) :
    assembleRow w acc (streamBytes (.run len v) ++ rest) = assembleRow w (acc ++ List.replicate len.toNat v) rest := by
  have hge : ¬(markerOf len).toNat < 0xC0 := Nat.not_lt.2 ((isMarker_iff _).1 (isMarker_markerOf len))
  have hlen : (markerOf len).toNat - 0xC0 = len.toNat := by
    rw [← markerLen_toNat _ (isMarker_markerOf len), markerLen_markerOf]
  change assembleRow w acc (markerOf len :: v :: rest) = _
  rw [assembleRow, if_neg (Nat.not_le.2 h), if_neg hge]
  simp only [hlen]
  rw [if_neg (Nat.not_lt.2 hfit)]

/-- `PIX v` is one pixel of `v`, whichever code it stands for (R90). -/
theorem assembleRow_pix (h : acc.length < w) (v : Byte) (rest : List Byte) :
    assembleRow w acc (streamBytes (asmPix v) ++ rest) = assembleRow w (acc ++ [v]) rest := by
  unfold asmPix
  cases hv : isMarker v with
  | true => exact assembleRow_run (len := 1) h h v rest
  | false =>
    have hbytes : streamBytes (literalOf v) = [v] := by rw [streamBytes, encode_literalOf hv]
    change assembleRow w acc (streamBytes (literalOf v) ++ rest) = _
    rw [hbytes]
    exact assembleRow_literal h hv rest

/-- The whole runs of REP are 63 pixels each (R90). -/
theorem assembleRow_runsOf63 (k : Nat) (v : Byte) (rest : List Byte) (hfit : acc.length + 63 * k ≤ w) :
    assembleRow w acc (assemble (List.replicate k (.run 63 v)) ++ rest) =
      assembleRow w (acc ++ List.replicate (63 * k) v) rest := by
  induction k generalizing acc with
  | zero => simp [assemble]
  | succ k ih =>
    have hcons : assemble (List.replicate (k + 1) (.run 63 v)) ++ rest =
        streamBytes (.run 63 v) ++ (assemble (List.replicate k (.run 63 v)) ++ rest) := by
      simp [assemble, List.replicate_succ]
    have hlen : (63 : BitVec 6).toNat = 63 := rfl
    have hcount : 63 + 63 * k = 63 * (k + 1) := by omega
    have hleft : (acc ++ List.replicate 63 v).length + 63 * k ≤ w := by rw [List.length_append, List.length_replicate]; omega
    rw [hcons, assembleRow_run (by omega) (by omega), hlen, ih hleft, List.append_assoc, List.replicate_append_replicate, hcount]

/-- What REP emits after its whole runs is the pixels left (R90). -/
theorem assembleRow_repTail {m : Nat} (hm : m < 63) (v : Byte) (rest : List Byte) (hfit : acc.length + m ≤ w) :
    assembleRow w acc (assemble (asmRepTail v m) ++ rest) = assembleRow w (acc ++ List.replicate m v) rest := by
  unfold asmRepTail
  split_ifs with h0 h1
  · simp [h0, assemble]
  · subst h1
    simpa [assemble] using assembleRow_pix (by omega) v rest
  · have hlen : (BitVec.ofNat 6 m).toNat = m := (BitVec.toNat_ofNat m 6).trans (Nat.mod_eq_of_lt (by omega))
    have hrun := assembleRow_run (len := BitVec.ofNat 6 m) (acc := acc) (w := w) (by omega) (by omega) v rest
    rw [hlen] at hrun
    simpa [assemble] using hrun

end

/-! ### The obligations -/

/-- Settles O1: each decoder accepts the encoding of a well-formed instruction. -/
theorem decodeInvertsEncode : Obligations.DecodeInvertsEncode := by
  unfold Obligations.DecodeInvertsEncode
  intro i rest hw
  cases he : encode i with
  | stream code => exact decodeStream_encode hw he rest
  | ctrl w => exact decodeCommand_ok_iff.2 he

/-- Settles O2: each decoder accepts nothing but the encoding of a well-formed instruction. -/
theorem encodeInvertsDecode : Obligations.EncodeInvertsDecode :=
  ⟨fun _ _ _ => decodeStream_ok_iff.1, fun _ _ => decodeCommand_ok_iff.1⟩

/-- Settles O4: a word that is not rejected is a command, whose fields are in range, and a word with such fields is a command. -/
theorem reservedCommandWordsRejected : Obligations.ReservedCommandWordsRejected := by
  unfold Obligations.ReservedCommandWordsRejected
  intro w
  constructor
  · intro h
    by_contra hn
    obtain ⟨hr, hc⟩ := not_or.1 hn
    obtain ⟨i, hd⟩ := decodeCommand_of_fields (not_not.1 hr) (Nat.not_le.1 hc)
    cases h.symm.trans hd
  · intro h
    rcases decodeCommand_ok_or_reserved w with ⟨i, hd⟩ | hd
    · obtain ⟨hr, hc⟩ := fields_of_encode (decodeCommand_ok_iff.1 hd)
      rcases h with h | h
      · exact absurd hr h
      · exact absurd hc (Nat.not_lt.2 h)
    · exact hd

/-- Settles O60: the runs of 63, then what is left, fill the scanline exactly. -/
theorem repAssemblesToRepeatedValue : Obligations.RepAssemblesToRepeatedValue := by
  unfold Obligations.RepAssemblesToRepeatedValue
  intro v n rest _
  have hn : 63 * (n / 63) + n % 63 = n := Nat.div_add_mod n 63
  have hsplit : assemble (asmRep v n) ++ rest =
      assemble (List.replicate (n / 63) (.run 63 v)) ++ (assemble (asmRepTail v (n % 63)) ++ rest) := by
    simp [asmRep, assemble]
  have hfit : ([] ++ List.replicate (63 * (n / 63)) v).length + n % 63 ≤ n := by rw [List.nil_append, List.length_replicate, hn]
  rw [hsplit, assembleRow_runsOf63 _ v _ (by rw [List.length_nil]; omega), assembleRow_repTail (Nat.mod_lt n (by decide)) v _ hfit,
    List.nil_append, List.replicate_append_replicate, hn]
  exact assembleRow_full List.length_replicate.ge rest

/-- Settles O3, by the first byte's high bits. -/
theorem codeLengthFromFirstByte : Obligations.CodeLengthFromFirstByte := by
  unfold Obligations.CodeLengthFromFirstByte
  intro b v rest
  constructor
  · intro h
    exact decodeStream_marker b v rest ((isMarker_iff_mask b).2 h)
  · intro h
    have hb : isMarker b = false := Bool.eq_false_iff.2 (mt (isMarker_iff_mask b).1 h)
    exact ⟨literalOf b, (literalOf_cases b hb).1, decodeStream_literal b (v :: rest) hb⟩

/-- Settles O5: each word is the encoding of its instruction. -/
theorem specWordsDecode : Obligations.SpecWordsDecode := by
  unfold Obligations.SpecWordsDecode
  refine ⟨?_, ?_, ?_, ?_, ?_, ?_, ?_, ?_, ?_⟩
  iterate 4 exact decodeStream_ok_iff.2 ⟨rfl, _, rfl, rfl⟩
  all_goals exact decodeCommand_ok_iff.2 rfl

/-- Settles O6: the step performs the write, which runs the decoded command. -/
theorem stepRunsWrittenCommand : Obligations.StepRunsWrittenCommand := by
  unfold Obligations.StepRunsWrittenCommand
  intro s w i rest ha hd
  rw [step_perform s _ rest ha nofun]
  exact writeCtrl_of_decode (s := setAgenda rest s) hd

/-- Settles O7: in each case the step is the engine's micro-step, which runs the code it decodes. -/
theorem stepRunsStreamCode : Obligations.StepRunsStreamCode := by
  unfold Obligations.StepRunsStreamCode
  intro s i left hb hm hne hd
  refine ⟨fun ha => ?_, fun rest ha => ?_, fun rest ha => ?_⟩
  · exact (step_engine s hb ha).trans (microStep_of_decode hm hne hd)
  · exact (step_wait_busy ha hb).trans (microStep_of_decode hm hne hd)
  · rw [← fetchBytes_setAgenda rest s] at hd
    exact (step_tick_busy ha hb).trans (microStep_of_decode (s := setAgenda rest s) hm hne hd)

end Sys2Proof.Machine
end

section
/-! The byte source inside `next_run()` (R101 to R107, R122): which bytes are shown to the decoder, what each micro-step at a fetch point
and inside `refill()` is, and what an answered or failed read leaves. -/

namespace Sys2Proof.Machine

/-! ### The bytes at the cursor -/

section
variable {s : State} {b v : Byte}

theorem fetchBytes_of_code (hm : s.micro = .code) : fetchBytes s = windowBytes 2 s := by
  rw [fetchBytes, hm]

theorem fetchBytes_of_value {len : BitVec 6} {start : Word} (hm : s.micro = .value len start) :
    fetchBytes s = markerOf len :: windowBytes 1 s := by
  rw [fetchBytes, hm]

theorem windowBytes_of_empty (n : Nat) (he : s.inCursor = s.inFilled) : windowBytes n s = [] := by
  cases n with
  | zero => rfl
  | succ n => exact if_pos ((windowEmpty_iff s).2 he)

/-- The consumed marker stands before the byte at the cursor (R121, R122). -/
theorem fetchBytes_value {len : BitVec 6} {start : Word} (hm : s.micro = .value len start) (hne : s.inCursor ≠ s.inFilled)
    (hb : s.win.read s.inCursor.toNat = some b) : fetchBytes s = [markerOf len, b] := by
  rw [fetchBytes_of_value hm, windowBytes_succ 0 hne hb]
  rfl

/-! ### The micro-step at a fetch point -/

/-- `peek()` with no byte available (R101, R201). -/
theorem fetchCode_of_empty (he : s.inCursor = s.inFilled) : fetchCode s = .next (truncated s) :=
  if_pos ((windowEmpty_iff s).2 he)

theorem microStep_of_empty (hm : s.micro = .code ∨ ∃ len start, s.micro = .value len start) (he : s.inCursor = s.inFilled) :
    microStep s = .next (truncated s) := by
  rcases hm with hm | ⟨len, start, hm⟩ <;> rw [microStep, hm] <;> exact fetchCode_of_empty he

/-- A byte below 0xC0 where a code begins is a LIT (R120). -/
theorem microStep_literal (hm : s.micro = .code) (hne : s.inCursor ≠ s.inFilled)
    (hb : s.win.read s.inCursor.toNat = some b) (hlit : isMarker b = false) :
    microStep s = .next (takeValue b litLen s.inOffset s) := by
  have hd : decodeStream (fetchBytes s) = .ok (literalOf b, windowBytes 1 (consume s)) := by
    rw [fetchBytes_of_code hm, windowBytes_succ 1 hne hb, decodeStream_literal b _ hlit]
  rw [microStep_of_decode (.inl hm) hne hd]
  rcases (literalOf_cases b hlit).1 with h | h | h <;> rw [h] <;> rfl

/-- A marker where a code begins is consumed, whether or not its value byte is in the window with it (R121). -/
theorem microStep_marker (hm : s.micro = .code) (hne : s.inCursor ≠ s.inFilled)
    (hb : s.win.read s.inCursor.toNat = some b) (hmark : isMarker b = true) :
    microStep s = .next (takeMarker (markerLen b) s) := by
  have hbytes : fetchBytes s = b :: windowBytes 1 (consume s) := by
    rw [fetchBytes_of_code hm, windowBytes_succ 1 hne hb]
  cases hrest : windowBytes 1 (consume s) with
  | nil =>
    rw [microStep, hm]
    simp only [fetchCode, if_neg (mt (windowEmpty_iff s).1 hne), hbytes, hrest, decodeStream_marker_alone b hmark, hm]
  | cons v vs =>
    rw [hrest] at hbytes
    have hd := hbytes ▸ decodeStream_marker b v vs hmark
    rw [microStep_of_decode (.inl hm) hne hd]
    simp only [exec, execRun, runCode, hm]

/-- The byte at the cursor after a consumed marker is the run's value, whatever it is (R81, R121). -/
theorem microStep_value {len : BitVec 6} {start : Word} (hm : s.micro = .value len start) (hne : s.inCursor ≠ s.inFilled)
    (hb : s.win.read s.inCursor.toNat = some b) : microStep s = .next (takeValue b len start s) := by
  have hd : decodeStream (fetchBytes s) = .ok (.run len b, []) := by
    rw [fetchBytes_value hm hne hb, decodeStream_marker _ _ _ (isMarker_markerOf len), markerLen_markerOf]
  rw [microStep_of_decode (.inr ⟨len, start, hm⟩) hne hd]
  simp only [exec, execRun, runCode, hm]

/-- The last byte of a code at the end of the window: the refill comes before the run is latched (R102, R122). -/
theorem takeValue_at_window_end (len : BitVec 6) (start : Word) (hne : s.inCursor ≠ s.inFilled)
    (hend : s.inCursor + 1#9 = s.inFilled) :
    takeValue b len start s = goto (.refill (.latch b len start)) (consume s) := by
  rcases takeValue_cases b len start s with ⟨he, -⟩ | ⟨-, -, h⟩ | ⟨-, hne1, -⟩
  · exact absurd he hne
  · exact h
  · exact absurd hend hne1

/-- DECODE_RUN is complete once its run is latched (R185). -/
theorem latchRun_of_decodeRun (value : Byte) (len : BitVec 6) (start : Word) (hc : s.curCmd = some .decodeRun) :
    latchRun value len start s = complete (setRun value len s) := by
  simp only [latchRun, hc]

/-! ### The micro-steps of `refill()` -/

variable {k : Resume} {ds : List Draw}

theorem microStep_issueRead (hm : s.micro = .refill k) (hq : s.reqPending = false) : microStep s = .next (issueRead s) := by
  simp [microStep, hm, hq]

theorem microStep_answered {extra : Byte} (hm : s.micro = .refill k) (hq : s.reqPending = true)
    (hd : s.nextDraw = some (.bytes extra, ds)) : microStep s = .next (resume k (takeBytes extra (setDraws ds s))) := by
  simp [microStep, hm, hq, answerRead, hd]

theorem microStep_readFailed (hm : s.micro = .refill k) (hq : s.reqPending = true) (hd : s.nextDraw = some (.ioErr, ds)) :
    microStep s = .next (readFailed (setDraws ds s)) := by
  simp [microStep, hm, hq, answerRead, hd]

/-- `refill()` issues its read in one micro-step (R103). -/
theorem runSteps_issueRead (k : Resume) (hb : s.state = .busy) (ha : s.agenda = []) (hq : s.reqPending = false) :
    runSteps 1 (goto (.refill k) s) = .next (issueRead (goto (.refill k) s)) :=
  runSteps_step 0 ((step_engine (goto (.refill k) s) hb ha).trans (microStep_issueRead rfl hq))

/-- `refill()` with its read answered takes two micro-steps, and what it was called for follows (R102, R103). -/
theorem runSteps_answered {extra : Byte} (k : Resume) (hb : s.state = .busy) (ha : s.agenda = []) (hq : s.reqPending = false)
    (hd : s.nextDraw = some (.bytes extra, ds)) :
    runSteps 2 (goto (.refill k) s) = .next (resume k (takeBytes extra (setDraws ds (issueRead (goto (.refill k) s))))) :=
  (runSteps_add 1 1 (runSteps_issueRead k hb ha hq)).trans
    (runSteps_step 0 ((step_engine (issueRead (goto (.refill k) s)) hb ha).trans
      (microStep_answered (s := issueRead (goto (.refill k) s)) rfl rfl hd)))

/-- What `refill()` leaves before it goes on, if its read delivers `n` bytes (R103, R104). -/
theorem refilled_eq {extra : Byte} {n : Nat} (hn : delivered extra s.upcoming = n) :
    takeBytes extra (setDraws ds (issueRead (goto (.refill k) s))) = { s with
      win := s.win.writeAll 0 (s.upcoming.take n), inFilled := BitVec.ofNat 9 n, inCursor := 0, eos := s.eos || decide (n = 0)
      refillCount := s.refillCount + 1, micro := .refill k, reqPending := false
      stream := s.upcoming.drop n, draws := ds } := by
  simp only [takeBytes, setDraws_upcoming, issueRead_upcoming, goto_upcoming, hn]
  rfl

/-- The window after `refill()`: the stream's next bytes from index 0 on, and stale bytes above them (R29, R103). -/
theorem read_refilled (m : Memory) {l : List Byte} {n : Nat} (hn : n ≤ l.length) (i : Nat) :
    (m.writeAll 0 (l.take n)).read i = if i < n then l[i]? else m.read i := by
  rw [Memory.read_writeAll, List.length_take, Nat.min_eq_left hn, Nat.zero_add, Nat.sub_zero]
  split_ifs with h h' h'
  · exact List.getElem?_take_of_lt h'
  · exact absurd h.2 h'
  · exact absurd ⟨Nat.zero_le i, h'⟩ h
  · rfl

end

/-! ### The obligations -/

/-- A command other than START runs in READY (R190). -/
theorem whenReady_of_ready {s : State} (run : State → State) (hr : s.state = .ready) : whenReady run s = run s := by
  rw [whenReady, hr]

/-- Settles O8, by what the window shows the decoder at either kind of fetch point. -/
theorem fetchReadsAtCursor : Obligations.FetchReadsAtCursor := by
  unfold Obligations.FetchReadsAtCursor
  intro s b v hne hb
  refine ⟨fun hm hend => ?_, fun hm hne1 hv => ?_, fun len start hm => fetchBytes_value hm hne hb⟩
  · rw [fetchBytes_of_code hm, windowBytes_succ 1 hne hb, windowBytes_of_empty 1 (s := consume s) hend]
  · rw [fetchBytes_of_code hm, windowBytes_succ 1 hne hb, windowBytes_succ 0 (s := consume s) hne1 hv]
    rfl

/-- Settles O39: the step is the micro-step that takes IOERR. -/
theorem failedReadRaisesStreamIo : Obligations.FailedReadRaisesStreamIo := by
  unfold Obligations.FailedReadRaisesStreamIo
  intro s k ds hb hm hq ha hd
  exact (step_engine s hb ha).trans (microStep_readFailed hm hq hd)

/-- Settles O42: DECODE_RUN is accepted, and its first `peek()` finds no byte. -/
theorem decodeRunOnExhaustedStream : Obligations.DecodeRunOnExhaustedStream := by
  unfold Obligations.DecodeRunOnExhaustedStream
  intro s hr ha he
  exact ⟨decodeRunBody s, congrArg _ (whenReady_of_ready decodeRunBody hr),
    runSteps_step 0 ((step_engine (decodeRunBody s) rfl ha).trans (microStep_of_empty (.inl rfl) he))⟩

/-- Settles O47: the code's last byte leads to the refill, whose read is issued, and answered, before the run is latched. -/
theorem eagerRefillAtWindowEnd : Obligations.EagerRefillAtWindowEnd := by
  unfold Obligations.EagerRefillAtWindowEnd
  intro s b extra len start ds hb hc hq ha hread hcode hne hend hdraw n
  have htake : microStep s = .next (takeValue b len start s) := by
    rcases hcode with ⟨hm, hlit, rfl, rfl⟩ | hm
    · exact microStep_literal hm hne hread (Bool.eq_false_iff.2 (mt (isMarker_iff b).1 (Nat.not_le.2 hlit)))
    · exact microStep_value hm hne hread
  rw [takeValue_at_window_end len start hne hend] at htake
  have hstep := runSteps_step 0 ((step_engine s hb ha).trans htake)
  have hissued := runSteps_issueRead (s := consume s) (.latch b len start) hb ha hq
  have hlatched := runSteps_answered (s := consume s) (.latch b len start) hb ha hq hdraw
  have hn : delivered extra (consume s).upcoming = n := rfl
  have hwin (i : Nat) : (s.win.writeAll 0 (s.upcoming.take n)).read i = if i < n then s.upcoming[i]? else s.win.read i :=
    read_refilled s.win (Nat.min_le_right _ _) i
  clear_value n
  rw [refilled_eq hn, resume, latchRun_of_decodeRun b len start (by exact hc)] at hlatched
  refine ⟨?_, _, (runSteps_add 1 2 hstep).trans hlatched, fun i hi => ?_, fun i hi => ?_, ?_⟩
  · rw [runSteps_add 1 1 hstep, hissued]
    simp only [issueRead, goto, consume, ← hend]
    rfl
  · exact (hwin i).trans (if_pos hi)
  · exact (hwin i).trans (if_neg (Nat.not_lt.2 hi))
  · rw [hq]
    rfl

end Sys2Proof.Machine
end

section
/-! Runs of the engine over the bytes ahead, whatever the chunks they arrive in (R106): what a taken byte leaves, with the refill it may
need, and what `refill_scanline()` makes of the bytes (R140 to R142). -/

namespace Sys2Proof.Machine

/-! ### Runs -/

/-- Some number of steps leads from `s` to `t`. -/
def Reaches (s t : State) : Prop := ∃ n, runSteps n s = .next t

theorem Reaches.refl (s : State) : Reaches s s := ⟨0, rfl⟩

theorem Reaches.of_run {s t : State} (n : Nat) (h : runSteps n s = .next t) : Reaches s t := ⟨n, h⟩

section
variable {s t u : State}

theorem Reaches.trans (h : Reaches s t) (h' : Reaches t u) : Reaches s u := by
  obtain ⟨m, hm⟩ := h
  obtain ⟨n, hn⟩ := h'
  exact ⟨m + n, (runSteps_add m n hm).trans hn⟩

theorem Reaches.of_microStep (hb : s.state = .busy) (ha : s.agenda = []) (h : microStep s = .next t) : Reaches s t :=
  ⟨1, runSteps_step 0 ((step_engine s hb ha).trans h)⟩

/-! ### The bytes consumed -/

/-- The bytes `l` are next, and the reads they may need are answered (R104, R106). -/
structure Provided (l : List Byte) (s : State) : Prop where
  supplies : s.supplies l
  answers : s.answers l.length

/-- From `s` to `t` the engine has consumed the bytes `gone`, with at most one read for each of them; W and the host's actions are the
same. -/
structure Consumed (gone : List Byte) (s t : State) : Prop where
  latchedW : t.latchedW = s.latchedW
  agenda : t.agenda = s.agenda
  inOffset : t.inOffset = s.inOffset + BitVec.ofNat 32 gone.length
  byteAhead : ∀ i, t.byteAhead i = s.byteAhead (gone.length + i)
  answers : ∀ n, s.answers (gone.length + n) → t.answers n

/-- The command in progress, its row and column, and the tile buffer are the same. -/
structure SameTask (s t : State) : Prop where
  curCmd : t.curCmd = s.curCmd
  row : t.row = s.row
  col : t.col = s.col
  tile : t.tile = s.tile

theorem Consumed.refl (s : State) : Consumed [] s s where
  latchedW := rfl
  agenda := rfl
  inOffset := by simp
  byteAhead i := by simp
  answers n h := by simpa using h

theorem Consumed.trans {a b : List Byte} (h : Consumed a s t) (h' : Consumed b t u) : Consumed (a ++ b) s u where
  latchedW := h'.latchedW.trans h.latchedW
  agenda := h'.agenda.trans h.agenda
  inOffset := by rw [h'.inOffset, h.inOffset, List.length_append, BitVec.ofNat_add, BitVec.add_assoc]
  byteAhead i := by rw [h'.byteAhead, h.byteAhead, List.length_append, Nat.add_assoc]
  answers n hn := h'.answers n (h.answers _ (by rwa [List.length_append, Nat.add_assoc] at hn))

theorem SameTask.refl (s : State) : SameTask s s := ⟨rfl, rfl, rfl, rfl⟩

theorem SameTask.trans (h : SameTask s t) (h' : SameTask t u) : SameTask s u :=
  ⟨h'.curCmd.trans h.curCmd, h'.row.trans h.row, h'.col.trans h.col, h'.tile.trans h.tile⟩

theorem Consumed.width {gone : List Byte} (h : Consumed gone s t) : t.width = s.width := congrArg BitVec.toNat h.latchedW

theorem Consumed.provided {a b : List Byte} (h : Consumed a s t) (hp : Provided (a ++ b) s) : Provided b t where
  supplies i hi := by
    rw [h.byteAhead, hp.supplies _ (by rw [List.length_append]; omega), List.getElem?_append_right (Nat.le_add_right _ _),
      Nat.add_sub_cancel_left]
  answers := h.answers _ (by rw [← List.length_append]; exact hp.answers)

theorem Consumed.endsAfter {a b : List Byte} (h : Consumed a s t) (he : s.endsAfter (a ++ b)) : t.endsAfter b := by
  obtain ⟨hs, hend⟩ := he
  refine ⟨fun i hi => ?_, ?_⟩
  · rw [h.byteAhead, hs _ (by rw [List.length_append]; omega), List.getElem?_append_right (Nat.le_add_right _ _),
      Nat.add_sub_cancel_left]
  · rw [h.byteAhead, ← List.length_append]
    exact hend

theorem Provided.head {b : Byte} {l : List Byte} (h : Provided (b :: l) s) : s.byteAhead 0 = some b :=
  h.supplies 0 (Nat.zero_lt_succ _)

/-! ### One byte -/

/-- The byte ahead is the window's byte at the cursor (R28, R101). -/
theorem Running.read_of_byteAhead {b : Byte} (h : Running s) (hb : s.byteAhead 0 = some b) :
    s.inCursor ≠ s.inFilled ∧ s.win.read s.inCursor.toNat = some b := by
  rcases h.ready with hlt | ⟨he, hc, hf⟩
  · obtain ⟨b', hb'⟩ := Option.isSome_iff_exists.1 (h.winLive _ hlt)
    obtain ⟨h0, -⟩ := byteAhead_consume s b' hlt hb'
    exact ⟨fun he => absurd (congrArg BitVec.toNat he) hlt.ne, by rw [hb', ← h0, hb]⟩
  · rw [byteAhead_ended s (hc.trans hf.symm) he 0] at hb
    cases hb

/-- With no byte ahead the window is empty (R28). -/
theorem Running.empty_of_byteAhead (h : Running s) (hb : s.byteAhead 0 = none) : s.inCursor = s.inFilled := by
  rcases h.ready with hlt | ⟨-, hc, hf⟩
  · obtain ⟨b, hb'⟩ := Option.isSome_iff_exists.1 (h.winLive _ hlt)
    obtain ⟨h0, -⟩ := byteAhead_consume s b hlt hb'
    cases h0.symm.trans hb
  · exact hc.trans hf.symm

/-- The engine has consumed the byte `b`, and no part of the scanline or of the tile row has changed. -/
structure TookByte (b : Byte) (s t : State) : Prop extends Consumed [b] s t, SameTask s t where
  running : Running t
  scan : t.scan = s.scan
  slCursor : t.slCursor = s.slCursor

/-- A byte that leaves the window not empty (R102). -/
theorem Running.tookByte_inWindow {b : Byte} (h : Running s) (hb : s.byteAhead 0 = some b) (hne1 : s.inCursor + 1 ≠ s.inFilled) :
    TookByte b s (consume s) := by
  obtain ⟨hne, hread⟩ := h.read_of_byteAhead hb
  obtain ⟨-, hahead⟩ := byteAhead_consume s b (h.cursor_lt hne) hread
  exact {
    latchedW := rfl
    agenda := rfl
    inOffset := rfl
    byteAhead := fun i => by rw [← hahead, List.length_singleton, Nat.add_comm]
    answers := fun n hn => answers_mono (s := s) hn (Nat.le_add_left _ _)
    curCmd := rfl
    row := rfl
    col := rfl
    tile := rfl
    running := h.consume_running hne hne1
    scan := rfl
    slCursor := rfl }

/-- After an answered read the window is ready again, and the command goes on (R28, R103). -/
theorem Stored.takeBytes_running (h : Stored s) (he : s.eos = false) (hb : s.state = .busy) (hno : s.errCode = .none)
    (hc : s.curCmd ≠ none) (hw : legalWidth s.maxWidth s.latchedW = true) (extra : Byte) : Running (takeBytes extra s) :=
  { h.after_takeBytes he extra with
    busy := hb
    noError := hno
    command := hc
    noRequest := rfl
    legal := hw
    ready := takeBytes_windowReady extra s }

theorem Underway.refilled_running (h : Underway s) (he : s.eos = false) (extra : Byte) (ds : List Draw) (k : Resume) :
    Running (takeBytes extra (setDraws ds (issueRead (goto (.refill k) s)))) :=
  Stored.takeBytes_running (s := setDraws ds (issueRead (goto (.refill k) s))) { h with } (by simpa using he)
    (by simpa using h.busy) (by simpa using h.noError) (by simpa using h.command) (by simpa using h.legal) extra

/-- The byte that empties the window, with the refill after it (R102, R103, R106). -/
theorem Running.tookByte_refilled {b extra : Byte} {ds : List Draw} (h : Running s) (hb : s.byteAhead 0 = some b)
    (hend : s.inCursor + 1 = s.inFilled) (hd : s.nextDraw = some (.bytes extra, ds)) (k : Resume) :
    TookByte b s (takeBytes extra (setDraws ds (issueRead (goto (.refill k) (consume s))))) := by
  obtain ⟨hne, hread⟩ := h.read_of_byteAhead hb
  obtain ⟨-, hahead⟩ := byteAhead_consume s b (h.cursor_lt hne) hread
  exact {
    latchedW := by simp
    agenda := by simp
    inOffset := by simp
    byteAhead := fun i => by
      rw [List.length_singleton, Nat.add_comm, hahead]
      exact (byteAhead_takeBytes extra _ (by simpa using hend) (by simpa using h.notEnded hne) i).trans (by rfl)
    answers := fun n hn => by
      rw [List.length_singleton, Nat.add_comm] at hn
      obtain ⟨_, _, hd', hrest⟩ := answers_succ s n hn
      cases hd.symm.trans hd'
      exact hrest
    curCmd := by simp
    row := by simp
    col := by simp
    tile := by simp
    running := (h.consume_underway hne).refilled_running (h.notEnded hne) extra ds k
    scan := by simp
    slCursor := by simp }

/-- `advance()` over the byte ahead leads to what follows it, whether the byte empties the window or not (R102, R106). -/
theorem Running.afterConsume_reaches {b : Byte} (h : Running s) (ha : s.agenda = []) (hb : s.byteAhead 0 = some b)
    (hans : s.answers 1) (k : Resume) :
    ∃ t, Reaches (afterConsume k (resume k) (consume s)) (resume k t) ∧ TookByte b s t := by
  rcases afterConsume_cases k (resume k) (consume s) with ⟨hend, hu⟩ | ⟨hne1, hu⟩ <;> rw [hu]
  · obtain ⟨extra, ds, hd, -⟩ := answers_succ s 0 hans
    exact ⟨_, .of_run 2 (runSteps_answered (s := consume s) k h.busy ha h.noRequest hd), h.tookByte_refilled hb hend hd k⟩
  · exact ⟨consume s, .refl _, h.tookByte_inWindow hb hne1⟩

theorem Running.takeValue_reaches {b : Byte} (h : Running s) (ha : s.agenda = []) (hb : s.byteAhead 0 = some b)
    (hans : s.answers 1) (len : BitVec 6) (start : Word) :
    ∃ t, Reaches (takeValue b len start s) (latchRun b len start t) ∧ TookByte b s t := by
  rw [takeValue, if_neg (mt (windowEmpty_iff s).1 (h.read_of_byteAhead hb).1)]
  exact h.afterConsume_reaches ha hb hans (.latch b len start)

theorem Running.takeMarker_reaches {b : Byte} (h : Running s) (ha : s.agenda = []) (hb : s.byteAhead 0 = some b)
    (hans : s.answers 1) (len : BitVec 6) :
    ∃ t, Reaches (takeMarker len s) (goto (.value len s.inOffset) t) ∧ TookByte b s t := by
  rw [takeMarker, if_neg (mt (windowEmpty_iff s).1 (h.read_of_byteAhead hb).1)]
  exact h.afterConsume_reaches ha hb hans (.value len s.inOffset)

end

/-! ### Writing a run -/

/-- The bytes `bs` stand in `scan` from index `i` on. -/
def storeScanAll (i : Nat) (bs : List Byte) (s : State) : State := { s with scan := s.scan.writeAll i bs }

@[simp] theorem storeScanAll_scan (i : Nat) (bs : List Byte) (s : State) :
    (storeScanAll i bs s).scan = s.scan.writeAll i bs := rfl
@[simp] theorem storeScanAll_slCursor (i : Nat) (bs : List Byte) (s : State) :
    (storeScanAll i bs s).slCursor = s.slCursor := rfl
@[simp] theorem storeScanAll_runLength (i : Nat) (bs : List Byte) (s : State) :
    (storeScanAll i bs s).runLength = s.runLength := rfl

/-- The first bytes of a buffer are `px`. -/
def Memory.Begins (m : Memory) (px : List Byte) : Prop := ∀ i, i < px.length → m.read i = px[i]?

section
variable {s t : State} {acc bs : List Byte}

theorem Consumed.after_goto {gone : List Byte} (m : Micro) (h : Consumed gone s t) : Consumed gone s (goto m t) := { h with }
theorem Consumed.after_setScanCursor {gone : List Byte} (w : Word) (h : Consumed gone s t) :
    Consumed gone s (setScanCursor w t) := { h with }
theorem Consumed.after_setRun {gone : List Byte} (v : Byte) (l : BitVec 6) (h : Consumed gone s t) :
    Consumed gone s (setRun v l t) := { h with }
theorem Consumed.after_setRunLeft {gone : List Byte} (n : Nat) (h : Consumed gone s t) : Consumed gone s (setRunLeft n t) :=
  { h with }
theorem Consumed.after_storeScanAll {gone : List Byte} (i : Nat) (bs : List Byte) (h : Consumed gone s t) :
    Consumed gone s (storeScanAll i bs t) := { h with }

theorem SameTask.after_goto (m : Micro) (h : SameTask s t) : SameTask s (goto m t) := { h with }
theorem SameTask.after_setScanCursor (w : Word) (h : SameTask s t) : SameTask s (setScanCursor w t) := { h with }
theorem SameTask.after_setRun (v : Byte) (l : BitVec 6) (h : SameTask s t) : SameTask s (setRun v l t) := { h with }
theorem SameTask.after_setRunLeft (n : Nat) (h : SameTask s t) : SameTask s (setRunLeft n t) := { h with }
theorem SameTask.after_storeScanAll (i : Nat) (bs : List Byte) (h : SameTask s t) : SameTask s (storeScanAll i bs t) := { h with }

theorem Memory.Begins.append {m : Memory} (h : m.Begins acc) (bs : List Byte) :
    (m.writeAll acc.length bs).Begins (acc ++ bs) := by
  intro i hi
  rw [List.length_append] at hi
  rw [Memory.read_writeAll]
  by_cases hlt : i < acc.length
  · rw [if_neg (by omega), h i hlt, List.getElem?_append_left hlt]
  · rw [if_pos (by omega), List.getElem?_append_right (by omega)]

theorem Running.storeScanAll_running (h : Running s) {i : Nat} (hfit : i + bs.length ≤ s.width) :
    Running (storeScanAll i bs s) := by
  induction bs generalizing s i with
  | nil => exact h
  | cons b bs ih =>
    rw [List.length_cons] at hfit
    exact ih (s := storeScan i b s) (h.storeScan_running (by omega) b) (i := i + 1) (by rw [storeScan_width]; omega)

/-- The last byte of a run is written (R140). -/
theorem writeRunByte_last (hi : runIndex s < s.width) (h1 : s.runLeft = 1) :
    writeRunByte s = .next (runWritten (setRunLeft 0 (storeScan (runIndex s) s.runValue s))) := by
  simp only [writeRunByte, if_pos hi, h1, if_pos (Nat.le_refl 1)]

/-- A byte of a run is written, and others follow (R140). -/
theorem writeRunByte_more (hi : runIndex s < s.width) (h1 : 1 < s.runLeft) :
    writeRunByte s = .next (setRunLeft (s.runLeft - 1) (storeScan (runIndex s) s.runValue s)) := by
  simp only [writeRunByte, if_pos hi, if_neg (Nat.not_le.2 h1)]

theorem step_writeRun (hb : s.state = .busy) (ha : s.agenda = []) (hm : s.micro = .writeRun) : step s = writeRunByte s := by
  rw [step_engine s hb ha, microStep, hm]

theorem runIndex_lt (hpos : 0 < s.runLeft) (hlen : s.runLeft ≤ lenOf s.runLength)
    (hfit : s.slCursor.toNat + lenOf s.runLength ≤ s.width) : runIndex s < s.width := by
  unfold runIndex
  omega

/-- The bytes left of a run are written one a micro-step, and with the last one the run is written (R140). -/
theorem runSteps_writeRun (n : Nat) (hb : s.state = .busy) (ha : s.agenda = []) (hm : s.micro = .writeRun)
    (hleft : s.runLeft = n + 1) (hlen : s.runLeft ≤ lenOf s.runLength) (hfit : s.slCursor.toNat + lenOf s.runLength ≤ s.width) :
    runSteps (n + 1) s =
      .next (runWritten (setRunLeft 0 (storeScanAll (runIndex s) (List.replicate (n + 1) s.runValue) s))) := by
  have hi := runIndex_lt (by omega) hlen hfit
  induction n generalizing s with
  | zero => exact runSteps_step 0 ((step_writeRun hb ha hm).trans (writeRunByte_last hi hleft))
  | succ n ih =>
    have hmore : 1 < s.runLeft := by omega
    have hnext := runIndex_next hlen hmore s.runValue
    have hrest := ih (s := setRunLeft (s.runLeft - 1) (storeScan (runIndex s) s.runValue s)) hb ha hm
      (by simp [hleft]) (by simp; omega) hfit (by rw [hnext]; unfold runIndex at hi ⊢; simp; omega)
    rw [hnext] at hrest
    rw [runSteps_step _ ((step_writeRun hb ha hm).trans (writeRunByte_more hi hmore)), hrest]
    rfl

/-- The scanline cursor past a run that fits does not wrap (R34, R140). -/
theorem slCursor_add_runLength (hfit : s.slCursor.toNat + lenOf s.runLength ≤ s.width) :
    (s.slCursor + s.runLength.zeroExtend 32).toNat = s.slCursor.toNat + lenOf s.runLength := by
  have hwidth : s.width < 2 ^ 32 := s.latchedW.isLt
  have hlen := s.runLength.isLt
  unfold lenOf at hfit ⊢
  rw [BitVec.toNat_add, BitVec.toNat_setWidth]
  omega

end

/-! ### A scanline being assembled -/

/-- `refill_scanline()` has assembled the pixels `acc`, between two runs (R140). -/
structure Partway (acc : List Byte) (s : State) : Prop where
  running : Running s
  filling : Filling s
  agenda : s.agenda = []
  cursor : s.slCursor.toNat = acc.length
  inside : acc.length ≤ s.width
  holds : s.scan.Begins acc

section
variable {s t : State} {acc : List Byte}

theorem Partway.scanLoop_more (h : Partway acc s) (hlt : acc.length < s.width) : scanLoop s = goto .code s :=
  if_pos (by rw [h.cursor]; exact hlt)

theorem Partway.scanLoop_full (h : Partway acc s) (hge : s.width ≤ acc.length) :
    scanLoop s = scanlineDone (setScanCursor 0 s) :=
  if_neg (by rw [h.cursor]; exact Nat.not_lt.2 hge)

theorem SameTask.filling (h : SameTask s t) (hf : Filling s) : Filling t := by
  unfold Filling
  rw [h.curCmd, h.row, h.col]
  exact hf

theorem Partway.tookByte {b : Byte} (h : Partway acc s) (hb : TookByte b s t) : Partway acc t :=
  { running := hb.running
    filling := hb.toSameTask.filling h.filling
    agenda := hb.agenda.trans h.agenda
    cursor := by rw [hb.slCursor, h.cursor]
    inside := by rw [hb.toConsumed.width]; exact h.inside
    holds := fun i hi => by rw [hb.scan]; exact h.holds i hi }

theorem latchRun_of_filling (hf : Filling s) (value : Byte) (len : BitVec 6) (start : Word) :
    latchRun value len start s = assembleRun start (setRun value len s) := by
  rcases hf with hc | ⟨hc, -, -⟩ <;> simp only [latchRun, hc]

/-- A written run moves the cursor past it, and the loop goes on (R140). -/
theorem Partway.runWritten_eq {bs : List Byte} (h : Partway acc s) (hr : Running t) (hc : Consumed [] s t) (ht : SameTask s t)
    (hcur : t.slCursor = s.slCursor) (hlen : lenOf t.runLength = bs.length) (hfit : acc.length + bs.length ≤ s.width)
    (hbegins : t.scan.Begins (acc ++ bs)) :
    ∃ u, runWritten t = scanLoop u ∧ Partway (acc ++ bs) u ∧ Consumed [] s u ∧ SameTask s u := by
  have hfit' : acc.length + bs.length ≤ t.width := by rw [hc.width]; exact hfit
  have hsum := slCursor_add_runLength (s := t) (by rw [hcur, h.cursor, hlen]; exact hfit')
  refine ⟨setScanCursor (t.slCursor + t.runLength.zeroExtend 32) t, rfl, ?_, hc.after_setScanCursor _, ht.after_setScanCursor _⟩
  exact {
    running := { hr with }
    filling := ht.filling h.filling
    agenda := hc.agenda.trans h.agenda
    cursor := by rw [setScanCursor_slCursor, hsum, hcur, h.cursor, hlen, List.length_append]
    inside := by rw [List.length_append]; exact hfit'
    holds := hbegins }

/-- A latched run that fits is written, and the loop goes on (R140, R142). -/
theorem Partway.latchRun_reaches (h : Partway acc s) {value : Byte} {len : BitVec 6} (hfit : acc.length + lenOf len ≤ s.width)
    (start : Word) :
    ∃ t, Reaches (latchRun value len start s) (scanLoop t) ∧ Partway (acc ++ List.replicate (lenOf len) value) t ∧
      Consumed [] s t ∧ SameTask s t := by
  have hrun : Running (setRun value len s) := { h.running with }
  have hc := (Consumed.refl s).after_setRun value len
  have ht := (SameTask.refl s).after_setRun value len
  rw [← List.length_replicate (n := lenOf len) (a := value)] at hfit
  rw [latchRun_of_filling h.filling]
  rcases assembleRun_cases start (setRun value len s) with ⟨hover, -⟩ | ⟨-, h0, hu⟩ | ⟨hle, hpos, hu⟩
  · rw [List.length_replicate] at hfit
    simp only [setRun_width, setRun_slCursor, setRun_runLength, h.cursor] at hover
    omega
  · rw [setRun_runLength] at h0
    have hbegins : s.scan.Begins (acc ++ List.replicate (lenOf len) value) := by simpa [h0] using h.holds
    obtain ⟨t, hw, hp, hct, htt⟩ := h.runWritten_eq (t := setRunLeft 0 (setRun value len s)) { hrun with }
      (hc.after_setRunLeft 0) (ht.after_setRunLeft 0) rfl List.length_replicate.symm hfit hbegins
    exact ⟨t, by rw [hu, hw]; exact .refl _, hp, hct, htt⟩
  · rw [setRun_runLength] at hpos
    obtain ⟨n, hn⟩ := Nat.exists_eq_succ_of_ne_zero hpos.ne'
    have hwrite := runSteps_writeRun (s := goto .writeRun (setRunLeft (lenOf len) (setRun value len s))) n hrun.busy h.agenda rfl
      hn (Nat.le_refl _) hle
    have hindex : runIndex (goto .writeRun (setRunLeft (lenOf len) (setRun value len s))) = acc.length := by
      simp [runIndex, h.cursor]
    rw [hindex, ← Nat.succ_eq_add_one, ← hn] at hwrite
    have hall : Running (storeScanAll acc.length (List.replicate (lenOf len) value) (setRun value len s)) :=
      hrun.storeScanAll_running hfit
    obtain ⟨t, hw, hp, hct, htt⟩ := h.runWritten_eq
      (t := setRunLeft 0 (storeScanAll acc.length (List.replicate (lenOf len) value)
        (goto .writeRun (setRunLeft (lenOf len) (setRun value len s)))))
      { hall with } ((((hc.after_setRunLeft _).after_goto _).after_storeScanAll _ _).after_setRunLeft _)
      ((((ht.after_setRunLeft _).after_goto _).after_storeScanAll _ _).after_setRunLeft _) (by simp) (by simp) hfit
      (by simpa using h.holds.append (List.replicate (lenOf len) value))
    exact ⟨t, by rw [hu, ← hw]; exact .of_run _ hwrite, hp, hct, htt⟩

theorem Running.after_goto (h : Running s) (m : Micro) : Running (goto m s) := { h with }
theorem Running.after_setScanCursor (h : Running s) (w : Word) : Running (setScanCursor w s) := { h with }

/-- A byte below 0xC0 is one pixel (R120, R140). -/
theorem Partway.literal_reaches {b : Byte} {rest : List Byte} (h : Partway acc s) (hlt : acc.length < s.width)
    (hp : Provided (b :: rest) s) (hlit : isMarker b = false) :
    ∃ t, Reaches (scanLoop s) (scanLoop t) ∧ Partway (acc ++ [b]) t ∧ Consumed [b] s t ∧ SameTask s t := by
  have hrun := h.running.after_goto .code
  obtain ⟨hne, hread⟩ := hrun.read_of_byteAhead hp.head
  obtain ⟨t, ht, hbyte⟩ := hrun.takeValue_reaches h.agenda hp.head (answers_mono hp.answers (Nat.le_add_left _ _)) litLen s.inOffset
  have hpart := h.tookByte { hbyte with }
  obtain ⟨u, hu, hpu, hcu, htu⟩ := hpart.latchRun_reaches (len := litLen) (value := b)
    (by rw [hbyte.toConsumed.width]; exact hlt) s.inOffset
  rw [h.scanLoop_more hlt]
  exact ⟨u, ((Reaches.of_microStep hrun.busy h.agenda (microStep_literal rfl hne hread hlit)).trans ht).trans hu, hpu,
    (((Consumed.refl s).after_goto .code).trans hbyte.toConsumed).trans hcu,
    (((SameTask.refl s).after_goto .code).trans hbyte.toSameTask).trans htu⟩

/-- A marker is consumed, and its value byte wanted next (R121, R140). -/
theorem Partway.marker_reaches {b : Byte} {rest : List Byte} (h : Partway acc s) (hlt : acc.length < s.width)
    (hp : Provided (b :: rest) s) (hmark : isMarker b = true) :
    ∃ t, Reaches (scanLoop s) (goto (.value (markerLen b) s.inOffset) t) ∧ Partway acc t ∧ Consumed [b] s t ∧ SameTask s t := by
  have hrun := h.running.after_goto .code
  obtain ⟨hne, hread⟩ := hrun.read_of_byteAhead hp.head
  obtain ⟨t, ht, hbyte⟩ := hrun.takeMarker_reaches h.agenda hp.head (answers_mono hp.answers (Nat.le_add_left _ _)) (markerLen b)
  rw [h.scanLoop_more hlt]
  exact ⟨t, (Reaches.of_microStep hrun.busy h.agenda (microStep_marker rfl hne hread hmark)).trans ht,
    h.tookByte { hbyte with }, ((Consumed.refl s).after_goto .code).trans hbyte.toConsumed,
    ((SameTask.refl s).after_goto .code).trans hbyte.toSameTask⟩

/-- A value byte is consumed, and its run is latched (R121, R122). -/
theorem Partway.value_reaches {v : Byte} {rest : List Byte} (h : Partway acc s) (hp : Provided (v :: rest) s) (len : BitVec 6)
    (start : Word) :
    ∃ t, Reaches (goto (.value len start) s) (latchRun v len start t) ∧ Partway acc t ∧ Consumed [v] s t ∧ SameTask s t := by
  have hrun := h.running.after_goto (.value len start)
  obtain ⟨hne, hread⟩ := hrun.read_of_byteAhead hp.head
  obtain ⟨t, ht, hbyte⟩ := hrun.takeValue_reaches h.agenda hp.head (answers_mono hp.answers (Nat.le_add_left _ _)) len start
  exact ⟨t, (Reaches.of_microStep hrun.busy h.agenda (microStep_value rfl hne hread)).trans ht, h.tookByte { hbyte with },
    ((Consumed.refl s).after_goto _).trans hbyte.toConsumed, ((SameTask.refl s).after_goto _).trans hbyte.toSameTask⟩

/-- A marker and its value byte are consumed, and the run is latched, its code at the offset of the marker (R121, R122). -/
theorem Partway.run_reaches {b v : Byte} {rest : List Byte} (h : Partway acc s) (hlt : acc.length < s.width)
    (hp : Provided (b :: v :: rest) s) (hmark : isMarker b = true) :
    ∃ t, Reaches (scanLoop s) (latchRun v (markerLen b) s.inOffset t) ∧ Partway acc t ∧ Consumed [b, v] s t ∧ SameTask s t := by
  obtain ⟨t, ht, hpt, hct, htt⟩ := h.marker_reaches hlt hp hmark
  obtain ⟨u, hu, hpu, hcu, htu⟩ := hpt.value_reaches (hct.provided (b := v :: rest) hp) (markerLen b) s.inOffset
  exact ⟨u, ht.trans hu, hpu, hct.trans hcu, htt.trans htu⟩

end

/-! ### A scanline from the bytes ahead -/

/-- From `x` the command ends in the error `e` at the stream offset `gone.length` bytes after that of `s` (R206). -/
def FailsAfter (gone : List Byte) (e : ErrCode) (s x : State) : Prop :=
  ∃ t, Reaches x t ∧ t.state = .error ∧ t.errCode = e ∧ t.errOffset = s.inOffset + BitVec.ofNat 32 gone.length

/-- From `x` the command comes to what the bytes `l` ahead of `s` assemble to: the scanline in `scan` and the bytes left ahead, or the
error and its offset (R140 to R142, R201, R202). -/
def RowOutcome (s : State) (l : List Byte) (x : State) (a : Assembled) : Prop :=
  match a with
  | .row px rest => ∃ gone t, l = gone ++ rest ∧ Reaches x (scanlineDone t) ∧ Running t ∧ Consumed gone s t ∧ SameTask s t ∧
      t.slCursor = 0 ∧ px.length = s.width ∧ t.scan.Begins px
  | .truncated => s.endsAfter l → FailsAfter l .truncatedStream s x
  | .overrun rest => ∃ gone, l = gone ++ rest ∧ FailsAfter gone .runOverrun s x

section
variable {s t x y : State} {acc : List Byte}

theorem FailsAfter.of_consumed {a b : List Byte} {e : ErrCode} (hc : Consumed a s t) (hr : Reaches x y)
    (h : FailsAfter b e t y) : FailsAfter (a ++ b) e s x := by
  obtain ⟨u, hu, hst, he, hoff⟩ := h
  refine ⟨u, hr.trans hu, hst, he, ?_⟩
  rw [hoff, hc.inOffset, List.length_append, BitVec.ofNat_add, BitVec.add_assoc]

/-- Bytes consumed before, and steps taken before, do not change what the command comes to. -/
theorem RowOutcome.of_consumed {a l : List Byte} {r : Assembled} (hc : Consumed a s t) (ht : SameTask s t) (hr : Reaches x y)
    (h : RowOutcome t l y r) : RowOutcome s (a ++ l) x r := by
  cases r with
  | row px rest =>
    obtain ⟨gone, u, hl, hu, hrun, hcu, htu, h0, hlen, hbegins⟩ := h
    exact ⟨a ++ gone, u, by rw [hl, List.append_assoc], hr.trans hu, hrun, hc.trans hcu, ht.trans htu, h0,
      by rw [hlen, hc.width], hbegins⟩
  | truncated => exact fun hend => (h (hc.endsAfter hend)).of_consumed hc hr
  | overrun rest =>
    obtain ⟨gone, hl, hf⟩ := h
    exact ⟨a ++ gone, by rw [hl, List.append_assoc], hf.of_consumed hc hr⟩

/-- With no byte ahead where `next_run()` wants one, TRUNCATED_STREAM is raised there (R101, R201). -/
theorem Running.failsAfter_nil {m : Micro} (h : Running s) (ha : s.agenda = []) (hm : m = .code ∨ ∃ len start, m = .value len start)
    (hend : s.byteAhead 0 = none) : FailsAfter [] .truncatedStream s (goto m s) := by
  have hempty : s.inCursor = s.inFilled := h.empty_of_byteAhead hend
  exact ⟨_, .of_microStep h.busy ha (microStep_of_empty (s := goto m s) hm hempty), rfl, rfl, by simp [truncated]⟩

/-- A run that would pass W fails at its start offset (R141, R202). -/
theorem Partway.latchRun_overrun (h : Partway acc s) (value : Byte) {len : BitVec 6} (hover : s.width < acc.length + lenOf len)
    (start : Word) : latchRun value len start s = raise .runOverrun start (setRun value len s) := by
  rw [latchRun_of_filling h.filling]
  exact if_pos ((overruns_iff _ _).2 (by simpa [h.cursor] using hover))

/-- A full scanline needs no byte (R140). -/
theorem Partway.full_outcome (h : Partway acc s) (hge : s.width ≤ acc.length) (l : List Byte) :
    RowOutcome s l (scanLoop s) (.row acc l) := by
  rw [h.scanLoop_full hge]
  exact ⟨[], setScanCursor 0 s, rfl, .refl _, { h.running with }, (Consumed.refl s).after_setScanCursor 0,
    (SameTask.refl s).after_setScanCursor 0, rfl, Nat.le_antisymm h.inside hge, h.holds⟩

/-- `refill_scanline()` with `acc` assembled comes to what the bytes ahead assemble to (R83, R140 to R142). The cases are those of
`assembleRow`: without a byte left, the scanline full or not; with one, the scanline full, a literal, a marker alone, a run that
overruns, and a run that fits. -/
theorem Partway.scanLoop_outcome {w : Nat} {l : List Byte} (hw : s.width = w) (h : Partway acc s) (hp : Provided l s) :
    RowOutcome s l (scanLoop s) (assembleRow w acc l) := by
  fun_induction assembleRow w acc l generalizing s with
  | case1 acc hge => exact h.full_outcome (hw.trans_le hge) []
  | case2 acc hlt =>
    rw [h.scanLoop_more (by omega)]
    exact fun hend => h.running.failsAfter_nil h.agenda (.inl rfl) hend.2
  | case3 acc b rest hge => exact h.full_outcome (hw.trans_le hge) (b :: rest)
  | case4 acc b rest hlt hlit ih =>
    obtain ⟨t, ht, hpt, hct, htt⟩ := h.literal_reaches (by omega) hp
      (Bool.eq_false_iff.2 (mt (isMarker_iff b).1 (Nat.not_le.2 hlit)))
    exact (ih (hct.width.trans hw) hpt (hct.provided hp)).of_consumed hct htt ht
  | case5 acc b hlt hmark =>
    obtain ⟨t, ht, hpt, hct, -⟩ := h.marker_reaches (by omega) hp ((isMarker_iff b).2 (Nat.not_lt.1 hmark))
    intro hend
    have hnone : t.byteAhead 0 = none := (hct.endsAfter (b := []) hend).2
    exact (hpt.running.failsAfter_nil hpt.agenda (.inr ⟨_, _, rfl⟩) hnone).of_consumed hct ht
  | case6 acc b hlt hmark v rest hover =>
    have hm := (isMarker_iff b).2 (Nat.not_lt.1 hmark)
    obtain ⟨t, ht, hpt, hct, -⟩ := h.run_reaches (by omega) hp hm
    rw [hpt.latchRun_overrun v (by rw [lenOf, markerLen_toNat b hm, hct.width, hw]; exact hover)] at ht
    exact ⟨[], rfl, _, ht, rfl, rfl, by simp⟩
  | case7 acc b hlt hmark v rest hfit ih =>
    have hm := (isMarker_iff b).2 (Nat.not_lt.1 hmark)
    have hlen : lenOf (markerLen b) = b.toNat - 0xC0 := markerLen_toNat b hm
    obtain ⟨t, ht, hpt, hct, htt⟩ := h.run_reaches (by omega) hp hm
    obtain ⟨u, hu, hpu, hcu, htu⟩ := hpt.latchRun_reaches (value := v) (len := markerLen b)
      (by rw [hlen, hct.width, hw]; exact Nat.not_lt.1 hfit) s.inOffset
    rw [hlen] at hpu
    have hc : Consumed [b, v] s u := hct.trans hcu
    exact (ih (hc.width.trans hw) hpu (hc.provided hp)).of_consumed hc (htt.trans htu) (ht.trans hu)

end

end Sys2Proof.Machine
end

section
/-! PACK_ROW over the bytes ahead (R143, R160 to R164, R184): the pixels of a scanline read and packed column by column, eight scanlines
one after another, and from these that the chunks of the stream cannot be told from what comes out (R106). -/

namespace Sys2Proof.Machine

/-! ### The tile buffer -/

/-- The pixel row within its tile that a tile buffer index belongs to (R69). -/
def tileRow (a : Nat) : Nat := a % 32 / 4

/-- The tile column that a tile buffer index belongs to (R69). -/
def tileCol (a : Nat) : Nat := a / 32

/-- The 8 pixels of a scanline in tile column `c` (R143, R163). -/
def columnPixels (px : List Byte) (c : Nat) : List Byte := (px.drop (8 * c)).take 8

/-- The byte the scanline `px` gives the tile buffer at the index `a` of its pixel row (R69, R160, R163). -/
def tileByte (px : List Byte) (a : Nat) : Byte := planeByte (columnPixels px (tileCol a)) (a % 4)

theorem tileRow_lt (a : Nat) : tileRow a < 8 := by
  unfold tileRow
  omega

/-- Below 4W an index is in a column of the tile row (R69, R163). -/
theorem tileCol_lt {a w : Nat} (hw : w % 8 = 0) (ha : a < 4 * w) : tileCol a < w / 8 := by
  unfold tileCol
  omega

/-- The bytes `bs` stand in `tile` from index `i` on. -/
def storeTileAll (i : Nat) (bs : List Byte) (s : State) : State := { s with tile := s.tile.writeAll i bs }

@[simp] theorem storeTileAll_tile (i : Nat) (bs : List Byte) (s : State) :
    (storeTileAll i bs s).tile = s.tile.writeAll i bs := rfl
@[simp] theorem storeTileAll_slCursor (i : Nat) (bs : List Byte) (s : State) :
    (storeTileAll i bs s).slCursor = s.slCursor := rfl
@[simp] theorem storeTileAll_scan (i : Nat) (bs : List Byte) (s : State) : (storeTileAll i bs s).scan = s.scan := rfl
@[simp] theorem storeTileAll_curCmd (i : Nat) (bs : List Byte) (s : State) : (storeTileAll i bs s).curCmd = s.curCmd := rfl
@[simp] theorem storeTileAll_row (i : Nat) (bs : List Byte) (s : State) : (storeTileAll i bs s).row = s.row := rfl
@[simp] theorem storeTileAll_col (i : Nat) (bs : List Byte) (s : State) : (storeTileAll i bs s).col = s.col := rfl

theorem storeTileAll_cons (i : Nat) (b : Byte) (bs : List Byte) (s : State) :
    storeTileAll i (b :: bs) s = storeTileAll (i + 1) bs (storeTile i b s) := rfl

theorem goto_goto_storeTile (m m' : Micro) (i : Nat) (b : Byte) (s : State) :
    goto m (goto m' (storeTile i b s)) = storeTile i b (goto m s) := rfl

/-- The four plane bytes of a column, at their indices (R69, R163). -/
theorem read_planes (m : Memory) (px : List Byte) {c r : Nat} (hr : r < 8) (a : Nat) :
    (m.writeAll (tileIndex c r 0) ((List.range' 0 4).map (planeByte (columnPixels px c)))).read a =
      if tileRow a = r ∧ tileCol a = c then some (tileByte px a) else m.read a := by
  have hiff : (tileIndex c r 0 ≤ a ∧ a < tileIndex c r 0 + 4) ↔ (tileRow a = r ∧ tileCol a = c) := by
    unfold tileIndex tileRow tileCol
    omega
  rw [Memory.read_writeAll, List.length_map, List.length_range']
  by_cases h : tileRow a = r ∧ tileCol a = c
  · have hplane : a - tileIndex c r 0 = a % 4 := by
      obtain ⟨hlo, hhi⟩ := hiff.2 h
      unfold tileIndex at hlo hhi ⊢
      omega
    rw [if_pos (hiff.2 h), if_pos h, hplane, List.getElem?_map, List.getElem?_range' (Nat.mod_lt a (by decide)), tileByte, h.2]
    simp
  · rw [if_neg (mt hiff.1 h), if_neg h]

/-! ### Reading pixels and writing planes -/

section
variable {s t : State} {px : List Byte}

/-- The byte at the scanline's pixel `j` from the cursor on is read next, where `j` pixels have been read (R143). -/
theorem step_pixels {j : Nat} (hb : s.state = .busy) (ha : s.agenda = []) (hm : s.micro = .pixels (px.take j)) (hj : j < 8)
    (hlen : px.length = 8) (hfit : s.slCursor.toNat + 8 ≤ s.width)
    (hread : ∀ b, b < 8 → s.scan.read (s.slCursor.toNat + b) = px[b]?) :
    step s = .next (if j = 7 then goto (.plane 0 px) (setScanCursor (s.slCursor + 8) s)
      else goto (.pixels (px.take (j + 1))) s) := by
  have hj' : j < px.length := by omega
  have hlenj : (px.take j).length = j := by rw [List.length_take]; omega
  have hi : s.slCursor.toNat + j < s.width := by omega
  have hbyte : s.scan.read (s.slCursor.toNat + j) = some px[j] := by rw [hread j hj, List.getElem?_eq_getElem hj']
  have htake : px.take j ++ [px[j]] = px.take (j + 1) := List.take_append_getElem hj'
  rw [step_engine s hb ha, microStep, hm]
  simp only [readPixel, hlenj, if_pos hi, hbyte, htake]
  split
  · next h7 => rw [h7, List.take_of_length_le hlen.le]
  · rfl

/-- The pixels left of eight are read one a micro-step, and with the eighth the cursor is moved (R143). -/
theorem runSteps_pixels (n : Nat) {j : Nat} (hb : s.state = .busy) (ha : s.agenda = []) (hm : s.micro = .pixels (px.take j))
    (hj : j + n + 1 = 8) (hlen : px.length = 8) (hfit : s.slCursor.toNat + 8 ≤ s.width)
    (hread : ∀ b, b < 8 → s.scan.read (s.slCursor.toNat + b) = px[b]?) :
    runSteps (n + 1) s = .next (goto (.plane 0 px) (setScanCursor (s.slCursor + 8) s)) := by
  induction n generalizing s j with
  | zero =>
    have hstep := step_pixels hb ha hm (by omega) hlen hfit hread
    rw [if_pos (by omega)] at hstep
    exact runSteps_step 0 hstep
  | succ n ih =>
    have hstep := step_pixels hb ha hm (by omega) hlen hfit hread
    rw [if_neg (by omega)] at hstep
    rw [runSteps_step _ hstep]
    exact ih (s := goto (.pixels (px.take (j + 1))) s) hb ha rfl (by omega) hfit hread

/-- A plane byte is written inside the tile buffer, and after the fourth the column is packed (R163). -/
theorem step_plane {p : Nat} (hb : s.state = .busy) (ha : s.agenda = []) (hm : s.micro = .plane p px) (hp : p < 4)
    (hfit : tileIndex s.col s.row 3 < 4 * s.width) :
    step s = .next (if p = 3 then nextColumn (storeTile (tileIndex s.col s.row p) (planeByte px p) s)
      else goto (.plane (p + 1) px) (storeTile (tileIndex s.col s.row p) (planeByte px p) s)) := by
  have hi : tileIndex s.col s.row p < 4 * s.width := by unfold tileIndex at hfit ⊢; omega
  rw [step_engine s hb ha, microStep, hm]
  simp only [writePlane, if_pos hi, Config.planes]
  by_cases h3 : p = 3
  · rw [if_pos h3, if_neg (by omega)]
  · rw [if_neg h3, if_pos (by omega)]

/-- The planes left of four are written one a micro-step, and with the last one the column is packed (R163). -/
theorem runSteps_planes (n : Nat) {p : Nat} (hb : s.state = .busy) (ha : s.agenda = []) (hm : s.micro = .plane p px)
    (hp : p + n + 1 = 4) (hfit : tileIndex s.col s.row 3 < 4 * s.width) :
    runSteps (n + 1) s = .next (nextColumn
      (storeTileAll (tileIndex s.col s.row p) ((List.range' p (n + 1)).map (planeByte px)) (goto (.plane 3 px) s))) := by
  induction n generalizing s p with
  | zero =>
    have h3 : p = 3 := by omega
    subst h3
    rw [goto_of_micro hm]
    exact runSteps_step 0 (step_plane hb ha hm (by omega) hfit)
  | succ n ih =>
    have hstep := step_plane hb ha hm (by omega) hfit
    rw [if_neg (by omega)] at hstep
    have hrest := ih (s := goto (.plane (p + 1) px) (storeTile (tileIndex s.col s.row p) (planeByte px p) s)) (p := p + 1)
      (by simpa using hb) (by simpa using ha) rfl (by omega) (by simpa using hfit)
    rw [goto_goto_storeTile, goto_row, goto_col, storeTile_row, storeTile_col] at hrest
    rw [runSteps_step _ hstep, hrest, List.range'_succ, List.map_cons, storeTileAll_cons]
    rfl

theorem Running.storeTileAll_running {bs : List Byte} (h : Running s) {i : Nat} (hfit : i + bs.length ≤ 4 * s.width) :
    Running (storeTileAll i bs s) := by
  induction bs generalizing s i with
  | nil => exact h
  | cons b bs ih =>
    rw [List.length_cons] at hfit
    exact ih (s := storeTile i b s) (h.storeTile_running (by omega) b) (i := i + 1) (by rw [storeTile_width]; omega)

theorem Consumed.after_storeTileAll {gone : List Byte} (i : Nat) (bs : List Byte) (h : Consumed gone s t) :
    Consumed gone s (storeTileAll i bs t) := { h with }
theorem Consumed.after_setTilePos {gone : List Byte} (r c : Nat) (h : Consumed gone s t) :
    Consumed gone s (setTilePos r c t) := { h with }

end

/-! ### A scanline being packed -/

/-- PACK_ROW has the scanline `px` in `scan` and packs it (R143, R163). -/
structure Packing (px : List Byte) (s : State) : Prop where
  running : Running s
  command : s.curCmd = some .packRow
  agenda : s.agenda = []
  rowBound : s.row < 8
  length : px.length = s.width
  holds : s.scan.Begins px

section
variable {s t : State} {px : List Byte}

/-- The eight pixels of a column are read (R143). -/
theorem Packing.pixels_reach (h : Packing px s) (hcol : s.col < s.width / 8) (hcur : s.slCursor.toNat = 8 * s.col) :
    Reaches (goto (.pixels []) s) (goto (.plane 0 (columnPixels px s.col)) (setScanCursor (s.slCursor + 8) s)) := by
  have hlen : (columnPixels px s.col).length = 8 := by
    rw [columnPixels, List.length_take, List.length_drop, h.length]
    omega
  have hread : ∀ b, b < 8 → s.scan.read (s.slCursor.toNat + b) = (columnPixels px s.col)[b]? := fun b hb => by
    rw [h.holds _ (by rw [h.length]; omega), columnPixels, List.getElem?_take_of_lt hb, List.getElem?_drop, hcur]
  exact .of_run _ (runSteps_pixels 7 (s := goto (.pixels []) s) (j := 0) h.running.busy h.agenda rfl rfl hlen
    (by rw [goto_slCursor, goto_width]; omega) hread)

/-- The cursor past eight pixels of a column does not wrap (R34, R143). -/
theorem slCursor_add_eight (hcol : s.col < s.width / 8) (hcur : s.slCursor.toNat = 8 * s.col) :
    (s.slCursor + 8).toNat = 8 * (s.col + 1) := by
  have hwidth : s.width < 2 ^ 32 := s.latchedW.isLt
  have h8 : (8 : Word).toNat = 8 := rfl
  rw [BitVec.toNat_add, h8]
  omega

/-- A column in `next_8_scanlines()`: its eight pixels are read and its four plane bytes written, and nothing else (R143, R163). -/
theorem Packing.column_reaches (h : Packing px s) (hcol : s.col < s.width / 8) (hcur : s.slCursor.toNat = 8 * s.col) :
    ∃ t, Reaches (goto (.pixels []) s) (nextColumn t) ∧ Packing px t ∧ Consumed [] s t ∧ t.row = s.row ∧ t.col = s.col ∧
      t.slCursor.toNat = 8 * (s.col + 1) ∧
      ∀ a, t.tile.read a = if tileRow a = s.row ∧ tileCol a = s.col then some (tileByte px a) else s.tile.read a := by
  have hrow := h.rowBound
  have hpixels := h.pixels_reach hcol hcur
  have hend := slCursor_add_eight hcol hcur
  have hbytes := read_planes s.tile px (c := s.col) hrow
  have hfit : tileIndex s.col s.row 3 < 4 * s.width := by unfold tileIndex; omega
  generalize columnPixels px s.col = cp at hpixels hbytes
  have hplanes := runSteps_planes 3 (s := goto (.plane 0 cp) (setScanCursor (s.slCursor + 8) s)) h.running.busy h.agenda rfl rfl
    hfit
  have hrun := ((h.running.after_setScanCursor (s.slCursor + 8)).after_goto (.plane 0 cp)).after_goto (.plane 3 cp)
  have hc := (((Consumed.refl s).after_setScanCursor (s.slCursor + 8)).after_goto (.plane 0 cp)).after_goto (.plane 3 cp)
  have hc' := hc.after_storeTileAll (tileIndex s.col s.row 0) ((List.range' 0 4).map (planeByte cp))
  refine ⟨_, hpixels.trans (.of_run _ hplanes), ?_, hc', by simp, by simp, by simpa using hend, hbytes⟩
  exact {
    running := hrun.storeTileAll_running (by
      rw [List.length_map, List.length_range', hc.width]
      unfold tileIndex at hfit ⊢
      simp only [goto_col, goto_row, setScanCursor_col, setScanCursor_row]
      omega)
    command := by simpa using h.command
    agenda := hc'.agenda.trans h.agenda
    rowBound := by simpa using hrow
    length := h.length.trans hc'.width.symm
    holds := by simpa using h.holds }

/-- After a column but the last, the pixels of the next column are read: the scanline is not consumed (R143, R163). -/
theorem nextColumn_sameRow (hcol : s.col + 1 < s.width / 8) (hcur : s.slCursor.toNat = 8 * (s.col + 1)) :
    nextColumn s = goto (.pixels []) (setTilePos s.row (s.col + 1) s) := by
  have hne : s.slCursor ≠ s.latchedW := fun he => by
    have hfull : s.slCursor.toNat = s.width := congrArg BitVec.toNat he
    omega
  exact (if_pos hcol).trans (if_neg (mt (scanConsumed_iff _).1 hne))

theorem Packing.nextCol (h : Packing px s) (c : Nat) : Packing px (setTilePos s.row c s) where
  running := { h.running with }
  command := h.command
  agenda := h.agenda
  rowBound := h.rowBound
  length := h.length
  holds := h.holds

/-- PACK_ROW has packed the last column of a scanline, which is consumed (R143, R163). -/
structure RowEnd (s : State) : Prop where
  running : Running s
  command : s.curCmd = some .packRow
  agenda : s.agenda = []
  lastCol : s.col + 1 = s.width / 8
  consumed : s.slCursor = s.latchedW

/-- The columns left of a scanline are packed one after another (R143, R163). -/
theorem Packing.columns_reach (n : Nat) (h : Packing px s) (hcol : s.col + n + 1 = s.width / 8)
    (hcur : s.slCursor.toNat = 8 * s.col) :
    ∃ t, Reaches (goto (.pixels []) s) (nextColumn t) ∧ RowEnd t ∧ Consumed [] s t ∧ t.row = s.row ∧
      ∀ a, t.tile.read a = if tileRow a = s.row ∧ s.col ≤ tileCol a ∧ tileCol a < s.width / 8 then some (tileByte px a)
        else s.tile.read a := by
  induction n generalizing s with
  | zero =>
    obtain ⟨t, ht, hpt, hct, hrow, hcol', hcur', htile⟩ := h.column_reaches (by omega) hcur
    obtain ⟨-, hmod, -⟩ := h.running.width_legal
    have hcons : t.slCursor = t.latchedW := by
      refine BitVec.eq_of_toNat_eq (hcur'.trans ?_)
      change _ = t.width
      rw [hct.width]
      omega
    refine ⟨t, ht, ⟨hpt.running, hpt.command, hpt.agenda, by rw [hcol', hct.width, ← hcol], hcons⟩, hct, hrow, fun a => ?_⟩
    have hiff : (tileRow a = s.row ∧ tileCol a = s.col) ↔
        (tileRow a = s.row ∧ s.col ≤ tileCol a ∧ tileCol a < s.width / 8) := by omega
    rw [htile a]
    simp only [hiff]
  | succ n ih =>
    obtain ⟨t, ht, hpt, hct, hrow, hcol', hcur', htile⟩ := h.column_reaches (by omega) hcur
    have hwidth := hct.width
    have hnext := nextColumn_sameRow (s := t) (by omega) (by omega)
    obtain ⟨u, hu, hend, hcu, hrow', htile'⟩ := ih (hpt.nextCol (t.col + 1))
      (by simp only [setTilePos_col, setTilePos_width]; omega) (by simp only [setTilePos_slCursor, setTilePos_col]; omega)
    simp only [setTilePos_row, setTilePos_col, setTilePos_width, setTilePos_tile] at hrow' htile'
    rw [hnext] at ht
    refine ⟨u, ht.trans hu, hend, (hct.after_setTilePos _ _).trans hcu, hrow'.trans hrow, fun a => ?_⟩
    rw [htile' a, htile a, hrow, hcol', hwidth]
    by_cases hlater : tileRow a = s.row ∧ s.col + 1 ≤ tileCol a ∧ tileCol a < s.width / 8
    · rw [if_pos hlater, if_pos (by omega)]
    · rw [if_neg hlater]
      by_cases hthis : tileRow a = s.row ∧ tileCol a = s.col
      · rw [if_pos hthis, if_pos (by omega)]
      · rw [if_neg hthis, if_neg (by omega)]

end

/-! ### Scanlines one after another -/

/-- What a scanline `px` and what comes after it come to together. -/
def AssembledRows.cons (px : List Byte) (a : AssembledRows) : AssembledRows :=
  match a with
  | .rows pxs rest => .rows (px :: pxs) rest
  | .truncated => .truncated
  | .overrun rest => .overrun rest

section
variable {w : Nat} {l rest px : List Byte}

theorem assembleRows_truncated (n : Nat) (h : assembleRow w [] l = .truncated) : assembleRows w (n + 1) l = .truncated := by
  simp [assembleRows, h]

theorem assembleRows_overrun (n : Nat) (h : assembleRow w [] l = .overrun rest) : assembleRows w (n + 1) l = .overrun rest := by
  simp [assembleRows, h]

theorem assembleRows_row (n : Nat) (h : assembleRow w [] l = .row px rest) :
    assembleRows w (n + 1) l = (assembleRows w n rest).cons px := by
  simp only [assembleRows, h]
  cases assembleRows w n rest <;> rfl

end

/-- From `x` PACK_ROW comes to what the bytes `l` ahead of `s` assemble to: the scanlines packed into the pixel rows from `first` on and
the bytes left ahead, or the error and its offset (R163, R184, R201, R202). -/
def RowsOutcome (first : Nat) (s : State) (l : List Byte) (x : State) (a : AssembledRows) : Prop :=
  match a with
  | .rows pxs rest => ∃ gone t, l = gone ++ rest ∧ Reaches x (complete t) ∧ Running t ∧ Consumed gone s t ∧
      t.slCursor = t.latchedW ∧
      ∀ a, t.tile.read a = if first ≤ tileRow a ∧ tileCol a < s.width / 8
        then (pxs[tileRow a - first]?).map fun px => tileByte px a else s.tile.read a
  | .truncated => s.endsAfter l → FailsAfter l .truncatedStream s x
  | .overrun rest => ∃ gone, l = gone ++ rest ∧ FailsAfter gone .runOverrun s x

/-- PACK_ROW is about to fill a scanline, the one before it consumed (R143, R163). -/
structure RowStart (s : State) : Prop where
  running : Running s
  command : s.curCmd = some .packRow
  agenda : s.agenda = []
  rowBound : s.row < 8
  firstCol : s.col = 0
  consumed : s.slCursor = s.latchedW

section
variable {s t x y : State} {l : List Byte} {first : Nat}

/-- Bytes consumed before, and steps taken before, do not change what PACK_ROW comes to. -/
theorem RowsOutcome.of_consumed {b : List Byte} {r : AssembledRows} (hc : Consumed b s t) (ht : t.tile = s.tile)
    (hr : Reaches x y) (h : RowsOutcome first t l y r) : RowsOutcome first s (b ++ l) x r := by
  cases r with
  | rows pxs rest =>
    obtain ⟨gone, u, hl, hu, hrun, hcu, hcur, htile⟩ := h
    rw [hc.width, ht] at htile
    exact ⟨b ++ gone, u, by rw [hl, List.append_assoc], hr.trans hu, hrun, hc.trans hcu, hcur, htile⟩
  | truncated => exact fun hend => (h (hc.endsAfter hend)).of_consumed hc hr
  | overrun rest =>
    obtain ⟨gone, hl, hf⟩ := h
    exact ⟨b ++ gone, by rw [hl, List.append_assoc], hf.of_consumed hc hr⟩

theorem RowStart.nextPixels_eq (h : RowStart s) : nextPixels s = scanLoop (setScanCursor 0 s) := by
  rcases nextPixels_cases s with ⟨-, hu⟩ | ⟨hne, -⟩
  · exact hu
  · exact absurd h.consumed hne

theorem RowStart.partway (h : RowStart s) : Partway [] (setScanCursor 0 s) where
  running := h.running.after_setScanCursor 0
  filling := .inr ⟨h.command, h.rowBound, h.firstCol⟩
  agenda := h.agenda
  cursor := rfl
  inside := Nat.zero_le _
  holds := nofun

/-- `refill_scanline()` for a row of PACK_ROW (R140, R143). -/
theorem RowStart.rowOutcome (h : RowStart s) (hp : Provided l s) :
    RowOutcome s l (nextPixels s) (assembleRow s.width [] l) := by
  have hc := (Consumed.refl s).after_setScanCursor 0
  rw [h.nextPixels_eq]
  exact (h.partway.scanLoop_outcome rfl (hc.provided (b := l) hp)).of_consumed hc
    ((SameTask.refl s).after_setScanCursor 0) (.refl _)

/-- An assembled scanline is packed, column after column (R143, R163). -/
theorem RowStart.columns_reach {px : List Byte} {gone : List Byte} (h : RowStart s) (hrun : Running t) (hc : Consumed gone s t)
    (ht : SameTask s t) (h0 : t.slCursor = 0) (hlen : px.length = s.width) (hbegins : t.scan.Begins px) :
    ∃ u, Reaches (scanlineDone t) (nextColumn u) ∧ RowEnd u ∧ Consumed gone s u ∧ u.row = s.row ∧
      ∀ a, u.tile.read a = if tileRow a = s.row ∧ tileCol a < s.width / 8 then some (tileByte px a) else s.tile.read a := by
  have hcmd : t.curCmd = some .packRow := ht.curCmd.trans h.command
  have hdone : scanlineDone t = goto (.pixels []) t := by simp only [scanlineDone, hcmd]
  have hcol : t.col = 0 := ht.col.trans h.firstCol
  obtain ⟨hpos, hmod, -⟩ := hrun.width_legal
  have hpacking : Packing px t :=
    ⟨hrun, hcmd, hc.agenda.trans h.agenda, by rw [ht.row]; exact h.rowBound, by rw [hlen, hc.width], hbegins⟩
  obtain ⟨u, hu, hend, hcu, hrow, htile⟩ := hpacking.columns_reach (t.width / 8 - 1) (by omega) (by rw [h0, hcol]; rfl)
  refine ⟨u, by rw [hdone]; exact hu, hend, by simpa using hc.trans hcu, hrow.trans ht.row, fun a => ?_⟩
  rw [htile a, ht.row, ht.tile, hcol, hc.width]
  simp

/-- A scanline packed into the row `first`, and what comes of the bytes after it, make up the outcome from the row `first` on. -/
theorem RowsOutcome.cons {px gone rest : List Byte} {r : AssembledRows} (hc : Consumed gone s t) (hr : Reaches x y)
    (htile : ∀ a, t.tile.read a = if tileRow a = first ∧ tileCol a < s.width / 8 then some (tileByte px a) else s.tile.read a)
    (h : RowsOutcome (first + 1) t rest y r) :
    RowsOutcome first s (gone ++ rest) x (r.cons px) := by
  cases r with
  | rows pxs rest =>
    obtain ⟨gone', u, hl, hu, hrun, hcu, hcur, htile'⟩ := h
    refine ⟨gone ++ gone', u, by rw [hl, List.append_assoc], hr.trans hu, hrun, hc.trans hcu, hcur, fun a => ?_⟩
    rw [htile' a, htile a, hc.width]
    by_cases hcol : tileCol a < s.width / 8
    · rcases Nat.lt_trichotomy first (tileRow a) with hlt | heq | hgt
      · have hk : tileRow a - first = tileRow a - (first + 1) + 1 := by omega
        rw [if_pos ⟨hlt, hcol⟩, if_pos ⟨hlt.le, hcol⟩, hk, List.getElem?_cons_succ]
      · rw [if_neg (by omega), if_pos ⟨heq.symm, hcol⟩, if_pos ⟨heq.le, hcol⟩, ← heq, Nat.sub_self]
        rfl
      · rw [if_neg (by omega), if_neg (by omega), if_neg (by omega)]
    · rw [if_neg (by omega), if_neg (by omega), if_neg (by omega)]
  | truncated => exact fun hend => (h (hc.endsAfter hend)).of_consumed hc hr
  | overrun rest =>
    obtain ⟨gone', hl, hf⟩ := h
    exact ⟨gone ++ gone', by rw [hl, List.append_assoc], hf.of_consumed hc hr⟩

/-- One scanline of PACK_ROW, filled and packed, with what comes of the bytes after it (R163). -/
theorem RowStart.rowsOutcome {n : Nat} (h : RowStart s) (hp : Provided l s)
    (hnext : ∀ t rest, RowEnd t → t.row = s.row → t.width = s.width → Provided rest t →
      RowsOutcome (s.row + 1) t rest (nextColumn t) (assembleRows s.width n rest)) :
    RowsOutcome s.row s l (nextPixels s) (assembleRows s.width (n + 1) l) := by
  have hrow := h.rowOutcome hp
  cases ha : assembleRow s.width [] l with
  | truncated => rw [ha] at hrow; rw [assembleRows_truncated n ha]; exact hrow
  | overrun rest => rw [ha] at hrow; rw [assembleRows_overrun n ha]; exact hrow
  | row px rest =>
    rw [ha] at hrow
    rw [assembleRows_row n ha]
    obtain ⟨gone, t, rfl, ht, hrun, hc, htask, h0, hlen, hbegins⟩ := hrow
    obtain ⟨u, hu, hend, hcu, hrowu, htile⟩ := h.columns_reach hrun hc htask h0 hlen hbegins
    exact (hnext u rest hend hrowu hcu.width (hcu.provided hp)).cons hcu (ht.trans hu) htile

/-- After the eighth scanline the command is complete (R163, R184). -/
theorem RowEnd.nextColumn_lastRow (h : RowEnd s) (hrow : 8 ≤ s.row + 1) : nextColumn s = complete s :=
  (if_neg (Nat.not_lt.2 h.lastCol.ge)).trans (if_neg (Nat.not_lt.2 hrow))

/-- After a scanline but the eighth the next one follows (R163). -/
theorem RowEnd.nextColumn_nextRow (h : RowEnd s) (hrow : s.row + 1 < 8) :
    nextColumn s = nextPixels (setTilePos (s.row + 1) 0 s) :=
  (if_neg (Nat.not_lt.2 h.lastCol.ge)).trans (if_pos hrow)

/-- After a packed row PACK_ROW goes on with the scanlines left, or is complete (R163, R184). -/
theorem RowEnd.outcome (n : Nat) (h : RowEnd s) (hrow : s.row + 1 + n = 8) (hp : Provided l s) :
    RowsOutcome (s.row + 1) s l (nextColumn s) (assembleRows s.width n l) := by
  induction n generalizing s l with
  | zero =>
    rw [h.nextColumn_lastRow (by omega)]
    refine ⟨[], s, rfl, .refl _, h.running, .refl s, h.consumed, fun a => ?_⟩
    have := tileRow_lt a
    rw [if_neg (by omega)]
  | succ n ih =>
    have hstart : RowStart (setTilePos (s.row + 1) 0 s) :=
      ⟨{ h.running with }, h.command, h.agenda, by rw [setTilePos_row]; omega, rfl, h.consumed⟩
    have hc := (Consumed.refl s).after_setTilePos (s.row + 1) 0
    rw [h.nextColumn_nextRow (by omega)]
    refine (hstart.rowsOutcome (hc.provided (b := l) hp) fun t rest hend hrowt hwidth hpt => ?_).of_consumed hc rfl (.refl _)
    have hrest := ih hend (by rw [hrowt, setTilePos_row]; omega) hpt
    rwa [hrowt, hwidth] at hrest

/-- PACK_ROW from READY with the scanline consumed comes to what eight scanlines from the bytes ahead come to (R163, R184). -/
theorem packRow_outcome (h : s.Inv) (hr : s.state = .ready) (ha : s.agenda = []) (hcons : s.slCursor = s.latchedW)
    (hp : Provided l s) : RowsOutcome 0 s l (packRowBody s) (assembleRows s.width 8 l) := by
  have hc : Consumed [] s (setTilePos 0 0 (accept .packRow s)) := Consumed.after_setTilePos 0 0 { Consumed.refl s with }
  have hrun : Running (setTilePos 0 0 (accept .packRow s)) := { h.accept_running hr .packRow with }
  have hstart : RowStart (setTilePos 0 0 (accept .packRow s)) := ⟨hrun, rfl, ha, Nat.zero_lt_succ _, rfl, hcons⟩
  refine (hstart.rowsOutcome (hc.provided (b := l) hp) fun t rest hend hrowt hwidth hpt => ?_).of_consumed hc rfl (.refl _)
  have hrest := hend.outcome 7 (by rw [hrowt, setTilePos_row]) hpt
  rwa [hrowt, hwidth] at hrest

end

/-! ### The obligation -/

theorem execPackRow_of_ready {s : State} (hr : s.state = .ready) : exec .packRow s = .next (packRowBody s) :=
  congrArg _ (whenReady_of_ready packRowBody hr)

/-- The same error after the same bytes from the same stream offset is recorded at the same offset (R206). -/
theorem FailsAfter.same {gone : List Byte} {e : ErrCode} {s s' x x' : State} (h : FailsAfter gone e s x)
    (h' : FailsAfter gone e s' x') (hoff : s.inOffset = s'.inOffset) :
    ∃ n n' u u', runSteps n x = .next u ∧ runSteps n' x' = .next u' ∧ u.state = .error ∧ u'.state = .error ∧
      u.errCode = u'.errCode ∧ u.errOffset = u'.errOffset := by
  obtain ⟨u, ⟨n, hn⟩, hst, he, ho⟩ := h
  obtain ⟨u', ⟨n', hn'⟩, hst', he', ho'⟩ := h'
  exact ⟨n, n', u, u', hn, hn', hst, hst', he.trans he'.symm, by rw [ho, ho', hoff]⟩

/-- Settles O58: from either block PACK_ROW comes to what the same bytes assemble to, which says all that is compared. -/
theorem chunkingIsUnobservable : Obligations.ChunkingIsUnobservable := by
  unfold Obligations.ChunkingIsUnobservable
  intro s s' l hs hs' hr hr' ha ha' hahead hsup hans hans' hend hw hoff hcons hcons'
  have hsup' : s'.supplies l := fun i hi => (hahead i).symm.trans (hsup i hi)
  have hwidth : s'.width = s.width := congrArg BitVec.toNat hw.symm
  have hout := packRow_outcome hs hr ha hcons ⟨hsup, hans⟩
  have hout' := packRow_outcome hs' hr' ha' hcons' ⟨hsup', hans'⟩
  rw [hwidth] at hout'
  obtain ⟨-, hmod, -⟩ := (legalWidth_iff _ _).1 (hs.latched (.inl hr))
  cases hrows : assembleRows s.width 8 l with
  | rows pxs rest =>
    rw [hrows] at hout hout'
    obtain ⟨gone, t, hl, ⟨n, hn⟩, hrun, hc, -, htile⟩ := hout
    obtain ⟨gone', t', hl', ⟨n', hn'⟩, hrun', hc', -, htile'⟩ := hout'
    obtain rfl : gone = gone' := List.append_cancel_right (hl.symm.trans hl')
    refine ⟨_, _, n, n', complete t, complete t', execPackRow_of_ready hr, execPackRow_of_ready hr', hn, hn', nofun, rfl,
      hrun.noError.trans hrun'.noError.symm, fun _ => ⟨?_, fun i => ?_, fun a hlt => ?_⟩, nofun⟩
    · exact hc.inOffset.trans (hoff ▸ hc'.inOffset.symm)
    · exact (hc.byteAhead i).trans ((hahead _).trans (hc'.byteAhead i).symm)
    · have hcol : tileCol a < s.width / 8 := tileCol_lt hmod hlt
      exact ((htile a).trans (if_pos ⟨Nat.zero_le _, hcol⟩)).trans
        ((htile' a).trans (if_pos ⟨Nat.zero_le _, hwidth ▸ hcol⟩)).symm
  | truncated =>
    rw [hrows] at hout hout'
    have hend' : s'.endsAfter l := ⟨hsup', (hahead _).symm.trans (hend hrows).2⟩
    obtain ⟨n, n', u, u', hn, hn', hst, hst', he, ho⟩ := (hout (hend hrows)).same (hout' hend') hoff
    exact ⟨_, _, n, n', u, u', execPackRow_of_ready hr, execPackRow_of_ready hr', hn, hn', by simp [hst], hst.trans hst'.symm, he,
      fun h => (nomatch hst.symm.trans h), fun _ => ho⟩
  | overrun rest =>
    rw [hrows] at hout hout'
    obtain ⟨gone, hl, hf⟩ := hout
    obtain ⟨gone', hl', hf'⟩ := hout'
    obtain rfl : gone = gone' := List.append_cancel_right (hl.symm.trans hl')
    obtain ⟨n, n', u, u', hn, hn', hst, hst', he, ho⟩ := hf.same hf' hoff
    exact ⟨_, _, n, n', u, u', execPackRow_of_ready hr, execPackRow_of_ready hr', hn, hn', by simp [hst], hst.trans hst'.symm, he,
      fun h => (nomatch hst.symm.trans h), fun _ => ho⟩

end Sys2Proof.Machine
end

section
/-! The two stream codes inside `next_run()` (R120 to R122): what taking a code's bytes leaves, by the caller and by whether the window is
emptied, and the steps a code takes when its last byte, or its marker, is the window's last. -/

namespace Sys2Proof.Machine

/-! ### Taking a byte inside the window, or its last -/

section
variable {s : State} {b : Byte} {k : Resume}

theorem afterConsume_in_window (go : State → State) (h : s.inCursor ≠ s.inFilled) : afterConsume k go s = go s :=
  if_neg (mt (windowEmpty_iff s).1 h)

theorem afterConsume_at_window_end (go : State → State) (h : s.inCursor = s.inFilled) :
    afterConsume k go s = goto (.refill k) s :=
  if_pos ((windowEmpty_iff s).2 h)

theorem takeValue_of_available (value : Byte) (len : BitVec 6) (start : Word) (hne : s.inCursor ≠ s.inFilled) :
    takeValue value len start s = afterConsume (.latch value len start) (latchRun value len start) (consume s) :=
  if_neg (mt (windowEmpty_iff s).1 hne)

theorem takeMarker_of_available (len : BitVec 6) (hne : s.inCursor ≠ s.inFilled) :
    takeMarker len s = afterConsume (.value len s.inOffset) (goto (.value len s.inOffset)) (consume s) :=
  if_neg (mt (windowEmpty_iff s).1 hne)

/-- The last byte of a code with more bytes after it: the run is latched at once (R102, R122). -/
theorem takeValue_in_window (value : Byte) (len : BitVec 6) (start : Word) (hne : s.inCursor ≠ s.inFilled)
    (hne1 : s.inCursor + 1#9 ≠ s.inFilled) : takeValue value len start s = latchRun value len start (consume s) := by
  rw [takeValue_of_available value len start hne, afterConsume_in_window (s := consume s) _ hne1]

/-- A marker with more bytes after it: its value byte is wanted at once (R102, R121). -/
theorem takeMarker_in_window (len : BitVec 6) (hne : s.inCursor ≠ s.inFilled) (hne1 : s.inCursor + 1#9 ≠ s.inFilled) :
    takeMarker len s = goto (.value len s.inOffset) (consume s) := by
  rw [takeMarker_of_available len hne, afterConsume_in_window (s := consume s) _ hne1]

/-- A marker at the end of the window: the refill comes before the value byte is wanted (R102, R122). -/
theorem takeMarker_at_window_end (len : BitVec 6) (hne : s.inCursor ≠ s.inFilled) (hend : s.inCursor + 1#9 = s.inFilled) :
    takeMarker len s = goto (.refill (.value len s.inOffset)) (consume s) := by
  rw [takeMarker_of_available len hne, afterConsume_at_window_end (s := consume s) _ hend]

/-! A byte from 0xC0 on is a run marker, one below it is not (R83). -/

theorem isMarker_of_le (h : 0xC0 ≤ b.toNat) : isMarker b = true := (isMarker_iff b).2 h

theorem isMarker_of_lt (h : b.toNat < 0xC0) : isMarker b = false := Bool.eq_false_iff.2 (mt (isMarker_iff b).1 (Nat.not_le.2 h))

/-- LEN of a marker as the number it exceeds 0xC0 by (R82, R83). -/
theorem markerLen_eq_ofNat (h : 0xC0 ≤ b.toNat) : markerLen b = BitVec.ofNat 6 (b.toNat - 0xC0) := by
  apply BitVec.eq_of_toNat_eq
  rw [markerLen_toNat b (isMarker_of_le h), BitVec.toNat_ofNat, Nat.mod_eq_of_lt]
  have := b.isLt
  omega

/-! ### The codes as instructions -/

/-- A LIT, of any tag, takes its byte (R120). -/
theorem exec_literal {v : Byte} {i : Instr} (hi : i = .lit00 v ∨ i = .lit01 v ∨ i = .lit10 v) (s : State) :
    exec i s = .next (takeValue v litLen s.inOffset s) := by
  rcases hi with rfl | rfl | rfl <;> rfl

/-- A RUN where a code begins takes its marker (R121). -/
theorem exec_run_of_code (len : BitVec 6) (v : Byte) (hm : s.micro = .code) : exec (.run len v) s = .next (takeMarker len s) := by
  simp only [exec, execRun, runCode, hm]

/-- A RUN whose marker is consumed takes its value byte (R121). -/
theorem exec_run_of_value {l : BitVec 6} {start : Word} (len : BitVec 6) (v : Byte) (hm : s.micro = .value l start) :
    exec (.run len v) s = .next (takeValue v len start s) := by
  simp only [exec, execRun, runCode, hm]

/-! ### The caller `refill_scanline()` -/

/-- Inside `refill_scanline()` a latched run is the next to be written (R140). -/
theorem latchRun_of_scanline (value : Byte) (len : BitVec 6) (start : Word)
    (hc : s.curCmd = some .fillScanline ∨ s.curCmd = some .packRow) :
    latchRun value len start s = assembleRun start (setRun value len s) := by
  rcases hc with hc | hc <;> simp only [latchRun, hc]

theorem assembleRun_overrun (start : Word) (h : s.width < s.slCursor.toNat + lenOf s.runLength) :
    assembleRun start s = raise .runOverrun start s :=
  if_pos ((overruns_iff s s.runLength).2 h)

theorem assembleRun_begins (start : Word) (hpos : 0 < lenOf s.runLength) (hfit : s.slCursor.toNat + lenOf s.runLength ≤ s.width) :
    assembleRun start s = goto .writeRun (setRunLeft (lenOf s.runLength) s) := by
  rw [assembleRun, if_neg (mt (overruns_iff s s.runLength).1 (Nat.not_lt.2 hfit)), if_neg hpos.ne']

/-- A zero-length run leaves the cursor, and the loop goes on to the next run (R142). -/
theorem assembleRun_zero (start : Word) (h0 : s.runLength = 0#6) (hlt : s.slCursor.toNat < s.width) :
    assembleRun start s = goto .code (setRunLeft 0 s) := by
  have hlen : lenOf s.runLength = 0 := by rw [h0]; rfl
  have hcur : s.slCursor + s.runLength.zeroExtend 32 = s.slCursor := by rw [h0]; exact BitVec.add_zero s.slCursor
  have hfit : s.slCursor.toNat + lenOf s.runLength ≤ s.width := by omega
  rw [assembleRun, if_neg (mt (overruns_iff s s.runLength).1 (Nat.not_lt.2 hfit)), if_pos hlen, runWritten,
    setRunLeft_slCursor, setRunLeft_runLength, hcur]
  exact if_pos hlt

end

/-! ### Obligations about one code -/

/-- Settles O43: the literal is taken inside the window, and latching its run completes DECODE_RUN. -/
theorem literalLatchesRun : Obligations.LiteralLatchesRun := by
  unfold Obligations.LiteralLatchesRun
  intro s v i hi hc _ hne hne1
  rw [exec_literal hi, takeValue_in_window v litLen _ hne hne1, latchRun_of_decodeRun (s := consume s) v litLen _ hc]
  rfl

/-- Settles O44: the marker, then the value byte, is taken inside the window. -/
theorem runLatchesRun : Obligations.RunLatchesRun := by
  unfold Obligations.RunLatchesRun
  intro s len v hne hne1
  refine ⟨fun hm => ?_, fun start hc hm => ?_⟩
  · rw [exec_run_of_code len v hm, takeMarker_in_window len hne hne1]
    rfl
  · rw [exec_run_of_value len v hm, takeValue_in_window v len start hne hne1, latchRun_of_decodeRun (s := consume s) v len start hc]
    rfl

/-- Settles O45: with the cursor below W a run of one byte fits. -/
theorem literalInScanline : Obligations.LiteralInScanline := by
  unfold Obligations.LiteralInScanline
  intro s v i hi hc _ hlt hne hne1
  rw [exec_literal hi, takeValue_in_window v litLen _ hne hne1, latchRun_of_scanline (s := consume s) v litLen _ hc,
    assembleRun_begins (s := setRun v litLen (consume s)) _ Nat.zero_lt_one hlt]
  rfl

/-- Settles O46: the value byte is taken inside the window, and the latched run overruns, is empty, or begins to be written. -/
theorem runInScanline : Obligations.RunInScanline := by
  unfold Obligations.RunInScanline
  intro s len v start hc hm hlt hne hne1
  rw [exec_run_of_value len v hm, takeValue_in_window v len start hne hne1, latchRun_of_scanline (s := consume s) v len start hc]
  refine ⟨fun hover => ?_, fun h0 => ?_, fun hpos hfit => ?_⟩
  · rw [assembleRun_overrun (s := setRun v len (consume s)) start hover]
    rfl
  · subst h0
    rw [assembleRun_zero (s := setRun v 0#6 (consume s)) start rfl hlt]
    rfl
  · rw [assembleRun_begins (s := setRun v len (consume s)) start hpos hfit]
    rfl

end Sys2Proof.Machine
end

section
/-! A code whose bytes do not lie in one window (R102, R103, R121, R122): the steps from its last byte, or its marker, over the refill. -/

namespace Sys2Proof.Machine

section
variable {s : State} {b : Byte} {ds : List Draw}

/-- A marker that is the window's last byte leads to the refill in one step (R102, R121). -/
theorem runSteps_marker_at_window_end (hb : s.state = .busy) (ha : s.agenda = []) (hm : s.micro = .code)
    (hne : s.inCursor ≠ s.inFilled) (hend : s.inCursor + 1#9 = s.inFilled) (hread : s.win.read s.inCursor.toNat = some b)
    (hmark : isMarker b = true) : runSteps 1 s = .next (goto (.refill (.value (markerLen b) s.inOffset)) (consume s)) := by
  have hstep := (step_engine s hb ha).trans (microStep_marker hm hne hread hmark)
  rw [takeMarker_at_window_end (markerLen b) hne hend] at hstep
  exact runSteps_step 0 hstep

/-- A value byte is taken in one step (R121). -/
theorem runSteps_value {len : BitVec 6} {start : Word} (hb : s.state = .busy) (ha : s.agenda = []) (hm : s.micro = .value len start)
    (hne : s.inCursor ≠ s.inFilled) (hread : s.win.read s.inCursor.toNat = some b) :
    runSteps 1 s = .next (takeValue b len start s) :=
  runSteps_step 0 ((step_engine s hb ha).trans (microStep_value hm hne hread))

/-- The marker `s` is at, its window's last byte, has been consumed, and the refill after it has delivered `n` bytes (R102, R103, R121). -/
def markerRefilled (n : Nat) (len : BitVec 6) (ds : List Draw) (s : State) : State :=
  { s with
    win := s.win.writeAll 0 (s.upcoming.take n), inFilled := BitVec.ofNat 9 n, inCursor := 0, eos := s.eos || decide (n = 0)
    inOffset := s.inOffset + 1, refillCount := s.refillCount + 1, micro := .value len s.inOffset
    stream := s.upcoming.drop n, draws := ds }

/-- With its refill answered the value byte is wanted from the new window, two steps later (R103, R121). -/
theorem runSteps_marker_refilled {extra : Byte} {n : Nat} (hb : s.state = .busy) (ha : s.agenda = []) (hq : s.reqPending = false)
    (hm : s.micro = .code) (hne : s.inCursor ≠ s.inFilled) (hend : s.inCursor + 1#9 = s.inFilled)
    (hread : s.win.read s.inCursor.toNat = some b) (hmark : isMarker b = true) (hd : s.nextDraw = some (.bytes extra, ds))
    (hn : delivered extra s.upcoming = n) : runSteps 3 s = .next (markerRefilled n (markerLen b) ds s) := by
  rw [runSteps_add 1 2 (runSteps_marker_at_window_end hb ha hm hne hend hread hmark),
    runSteps_answered (s := consume s) _ hb ha hq hd, refilled_eq (s := consume s) hn, markerRefilled, hq]
  rfl

/-- The size of a window that one read has filled, as its register shows it (R25, R104). -/
theorem toNat_ofNat_delivered (extra : Byte) (bytes : List Byte) :
    (BitVec.ofNat 9 (delivered extra bytes)).toNat = delivered extra bytes := by
  obtain ⟨-, hcap, -⟩ := delivered_bounds extra bytes
  simp only [Config.winCap] at hcap
  rw [BitVec.toNat_ofNat, Nat.mod_eq_of_lt (by omega)]

/-- Taking the value byte empties the new window exactly if it came alone (R102). -/
theorem markerRefilled_cursor_next {n : Nat} (len : BitVec 6) (h : (BitVec.ofNat 9 n).toNat = n) :
    (markerRefilled n len ds s).inCursor + 1#9 = (markerRefilled n len ds s).inFilled ↔ n = 1 := by
  show 0#9 + 1#9 = BitVec.ofNat 9 n ↔ n = 1
  rw [← BitVec.toNat_inj, h]
  exact eq_comm

/-- The value byte is taken from index 0 of the new window (R103, R121). -/
theorem runSteps_value_of_markerRefilled {n : Nat} {bs : List Byte} (len : BitVec 6) (hb : s.state = .busy) (ha : s.agenda = [])
    (h : (BitVec.ofNat 9 n).toNat = n) (hpos : n ≠ 0) (hle : n ≤ s.upcoming.length) (hup : s.upcoming = b :: bs) :
    runSteps 1 (markerRefilled n len ds s) = .next (takeValue b len s.inOffset (markerRefilled n len ds s)) ∧
      (markerRefilled n len ds s).inCursor ≠ (markerRefilled n len ds s).inFilled := by
  have hne : (markerRefilled n len ds s).inCursor ≠ (markerRefilled n len ds s).inFilled := fun he =>
    hpos (h.symm.trans (congrArg BitVec.toNat he).symm)
  have hread : (markerRefilled n len ds s).win.read 0 = some b := by
    rw [markerRefilled, read_refilled s.win hle, if_pos (Nat.pos_of_ne_zero hpos), hup]
    rfl
  exact ⟨runSteps_value hb ha rfl hne hread, hne⟩

/-- `refill()` whose read fails takes two micro-steps, and what it was called for does not follow (R103, R204). -/
theorem runSteps_readFailed (k : Resume) (hb : s.state = .busy) (ha : s.agenda = []) (hq : s.reqPending = false)
    (hd : s.nextDraw = some (.ioErr, ds)) :
    runSteps 2 (goto (.refill k) s) = .next (readFailed (setDraws ds (issueRead (goto (.refill k) s)))) :=
  (runSteps_add 1 1 (runSteps_issueRead k hb ha hq)).trans
    (runSteps_step 0 ((step_engine (issueRead (goto (.refill k) s)) hb ha).trans
      (microStep_readFailed (s := issueRead (goto (.refill k) s)) rfl rfl hd)))

end

/-! ### The obligations -/

/-- Settles O49: the literal leads to the refill, whose failed read ends the command before the run is latched. -/
theorem failedRefillLatchesNothing : Obligations.FailedRefillLatchesNothing := by
  unfold Obligations.FailedRefillLatchesNothing
  intro s b ds hb hm hq ha hread hlit hne hend hd
  have hstep := (step_engine s hb ha).trans (microStep_literal hm hne hread (isMarker_of_lt hlit))
  rw [takeValue_at_window_end litLen s.inOffset hne hend] at hstep
  rw [runSteps_step 2 hstep, runSteps_readFailed (s := consume s) _ hb ha hq hd]
  simp only [readFailed, raise, setDraws, issueRead, goto, consume, ← hend, hq]
  rfl

/-- Settles O50: the refill after the marker delivers nothing, and the `peek()` for the value byte finds no byte. -/
theorem missingValueByteTruncates : Obligations.MissingValueByteTruncates := by
  unfold Obligations.MissingValueByteTruncates
  intro s b extra ds hb hm hq ha hread hmark hne hend hup hd
  obtain ⟨-, -, hzero⟩ := delivered_bounds extra s.upcoming
  have hwant := runSteps_marker_refilled hb ha hq hm hne hend hread (isMarker_of_le hmark) hd (hzero.2 hup)
  have htrunc := runSteps_step 0 ((step_engine (markerRefilled 0 (markerLen b) ds s) hb ha).trans
    (microStep_of_empty (.inr ⟨_, _, rfl⟩) rfl))
  rw [runSteps_add 3 1 hwant, htrunc]
  simp [truncated, raise, markerRefilled, Memory.writeAll, hup, ((upcoming_eq_nil s).1 hup).1]

/-- Settles O48: the refill after the marker shows the value byte at index 0, and taking it empties the new window exactly if it came
alone. -/
theorem runAcrossWindows : Obligations.RunAcrossWindows := by
  unfold Obligations.RunAcrossWindows
  intro s b v extra st ds hb hc hm hq ha hread hmark hne hend hup hd n len
  have hwant := runSteps_marker_refilled (n := n) hb ha hq hm hne hend hread (isMarker_of_le hmark) hd rfl
  rw [show markerLen b = len from markerLen_eq_ofNat hmark] at hwant
  have hfilled : (BitVec.ofNat 9 n).toNat = n := toNat_ofNat_delivered extra s.upcoming
  obtain ⟨hle, -, hzero⟩ : n ≤ s.upcoming.length ∧ _ ∧ (n = 0 ↔ s.upcoming = []) := delivered_bounds extra s.upcoming
  have hpos : n ≠ 0 := fun h0 => by simpa [hup] using hzero.1 h0
  have hwin (i : Nat) : (markerRefilled n len ds s).win.read i = if i < n then s.upcoming[i]? else s.win.read i :=
    read_refilled s.win hle i
  clear_value n len
  have hnext := markerRefilled_cursor_next (s := s) (ds := ds) len hfilled
  obtain ⟨hvalue, hw⟩ := runSteps_value_of_markerRefilled (ds := ds) len hb ha hfilled hpos hle hup
  rw [← runSteps_add 3 1 hwant] at hvalue
  have hoff : s.inOffset + 1 + 1 = s.inOffset + 2#32 := BitVec.add_assoc _ _ _
  refine ⟨markerRefilled n len ds s, hwant, fun i hi => (hwin i).trans (if_pos hi),
    fun i hi => (hwin i).trans (if_neg (Nat.not_lt.2 hi)), by simp [markerRefilled, hpos], fun hmore => ?_, fun halone => ?_⟩
  · rw [hvalue, takeValue_in_window v len _ hw (mt hnext.1 hmore),
      latchRun_of_decodeRun (s := consume (markerRefilled n len ds s)) v len _ hc, ← hoff]
    rfl
  · rw [takeValue_at_window_end len _ hw (hnext.2 halone)] at hvalue
    refine ⟨by rw [hvalue, ← hoff]; rfl, fun extra' ds' hd' => ?_⟩
    have hlatched := runSteps_answered (s := consume (markerRefilled n len ds s)) (.latch v len s.inOffset) hb ha hq hd'
    rw [resume, latchRun_of_decodeRun v len s.inOffset (by exact hc)] at hlatched
    exact ⟨_, (runSteps_add 4 2 hvalue).trans hlatched, rfl, rfl, rfl, rfl, hoff, BitVec.add_assoc _ _ _,
      toNat_ofNat_delivered extra' _⟩

end Sys2Proof.Machine
end

section
/-! DECODE_RUN on the bytes ahead (R102, R106, R120 to R122, R185): whichever windows a code's bytes come in, the run is latched and
nothing but the byte source has moved. -/

namespace Sys2Proof.Machine

/-! ### What taking bytes changes -/

/-- `t` is `s` but for the byte source, the environment's answers and the engine's position: what taking bytes of a code may change
(R24 to R32, R102). -/
def SourceMoved (s t : State) : Prop :=
  t = { s with
    win := t.win, inFilled := t.inFilled, inCursor := t.inCursor, eos := t.eos, inOffset := t.inOffset
    refillCount := t.refillCount, micro := t.micro, stream := t.stream, draws := t.draws }

/-- From `s` to `t` the engine has taken the bytes `gone` of a code, inside its command, and only the byte source has moved. -/
structure Took (gone : List Byte) (s t : State) : Prop extends Consumed gone s t where
  running : Running t
  moved : SourceMoved s t

section
variable {s t u : State}

theorem SourceMoved.trans (h : SourceMoved s t) (h' : SourceMoved t u) : SourceMoved s u := by
  unfold SourceMoved at h h' ⊢
  rw [h', h]

theorem SourceMoved.curCmd (h : SourceMoved s t) : t.curCmd = s.curCmd := by
  unfold SourceMoved at h; rw [h]

theorem Took.trans {a b : List Byte} (h : Took a s t) (h' : Took b t u) : Took (a ++ b) s u :=
  { h.toConsumed.trans h'.toConsumed with running := h'.running, moved := h.moved.trans h'.moved }

theorem Took.after_goto {gone : List Byte} (m : Micro) (h : Took gone s t) : Took gone s (goto m t) :=
  { h.toConsumed.after_goto m with running := h.running.after_goto m, moved := congrArg (goto m) h.moved }

/-- What `refill()` leaves is as it was but for the byte source (R103). -/
theorem refilled_sourceMoved (hq : s.reqPending = false) (extra : Byte) (ds : List Draw) (k : Resume) :
    SourceMoved s (takeBytes extra (setDraws ds (issueRead (goto (.refill k) (consume s))))) := by
  rw [SourceMoved, hq]
  rfl

/-- `advance()` over the byte ahead leads to what follows it, and only the byte source has moved (R102, R106). -/
theorem Running.afterConsume_took {b : Byte} (h : Running s) (ha : s.agenda = []) (hb : s.byteAhead 0 = some b)
    (hans : s.answers 1) (k : Resume) :
    ∃ t, Reaches (afterConsume k (resume k) (consume s)) (resume k t) ∧ Took [b] s t := by
  rcases afterConsume_cases k (resume k) (consume s) with ⟨hend, hu⟩ | ⟨hne1, hu⟩ <;> rw [hu]
  · obtain ⟨extra, ds, hd, -⟩ := answers_succ s 0 hans
    exact ⟨_, .of_run 2 (runSteps_answered (s := consume s) k h.busy ha h.noRequest hd),
      { h.tookByte_refilled hb hend hd k with moved := refilled_sourceMoved h.noRequest extra ds k }⟩
  · exact ⟨consume s, .refl _, { h.tookByte_inWindow hb hne1 with moved := rfl }⟩

theorem Running.takeValue_took {b : Byte} (h : Running s) (ha : s.agenda = []) (hb : s.byteAhead 0 = some b)
    (hans : s.answers 1) (len : BitVec 6) (start : Word) :
    ∃ t, Reaches (takeValue b len start s) (latchRun b len start t) ∧ Took [b] s t := by
  rw [takeValue_of_available b len start (h.read_of_byteAhead hb).1]
  exact h.afterConsume_took ha hb hans (.latch b len start)

/-- A byte below 0xC0 where a code begins is taken, and its run latched (R120). -/
theorem Running.literal_took {b : Byte} (h : Running s) (ha : s.agenda = []) (hm : s.micro = .code) (hb : s.byteAhead 0 = some b)
    (hans : s.answers 1) (hlit : isMarker b = false) :
    ∃ t, Reaches s (latchRun b litLen s.inOffset t) ∧ Took [b] s t := by
  obtain ⟨hne, hread⟩ := h.read_of_byteAhead hb
  obtain ⟨t, ht, htook⟩ := h.takeValue_took ha hb hans litLen s.inOffset
  exact ⟨t, (Reaches.of_microStep h.busy ha (microStep_literal hm hne hread hlit)).trans ht, htook⟩

/-- A marker where a code begins is taken, and its value byte wanted next (R121). -/
theorem Running.marker_took {b : Byte} (h : Running s) (ha : s.agenda = []) (hm : s.micro = .code) (hb : s.byteAhead 0 = some b)
    (hans : s.answers 1) (hmark : isMarker b = true) :
    ∃ t, Reaches s (goto (.value (markerLen b) s.inOffset) t) ∧ Took [b] s t := by
  obtain ⟨hne, hread⟩ := h.read_of_byteAhead hb
  obtain ⟨t, ht, htook⟩ := h.afterConsume_took ha hb hans (.value (markerLen b) s.inOffset)
  have hstep := microStep_marker hm hne hread hmark
  rw [takeMarker_of_available (markerLen b) hne] at hstep
  exact ⟨t, (Reaches.of_microStep h.busy ha hstep).trans ht, htook⟩

/-- A wanted value byte is taken, and its run latched (R121, R122). -/
theorem Running.value_took {v : Byte} {len : BitVec 6} {start : Word} (h : Running s) (ha : s.agenda = [])
    (hm : s.micro = .value len start) (hv : s.byteAhead 0 = some v) (hans : s.answers 1) :
    ∃ t, Reaches s (latchRun v len start t) ∧ Took [v] s t := by
  obtain ⟨hne, hread⟩ := h.read_of_byteAhead hv
  obtain ⟨t, ht, htook⟩ := h.takeValue_took ha hv hans len start
  exact ⟨t, (Reaches.of_microStep h.busy ha (microStep_value hm hne hread)).trans ht, htook⟩

/-- A marker and its value byte are taken, and the run latched (R121, R122). -/
theorem Running.run_took {b v : Byte} (h : Running s) (ha : s.agenda = []) (hm : s.micro = .code) (hb : s.byteAhead 0 = some b)
    (hv : s.byteAhead 1 = some v) (hans : s.answers 2) (hmark : isMarker b = true) :
    ∃ t, Reaches s (latchRun v (markerLen b) s.inOffset t) ∧ Took [b, v] s t := by
  obtain ⟨t, ht, htook⟩ := h.marker_took ha hm hb (answers_mono hans (Nat.le_succ 1)) hmark
  have hwant := htook.after_goto (.value (markerLen b) s.inOffset)
  obtain ⟨u, hu, htook'⟩ := hwant.running.value_took (hwant.agenda.trans ha) rfl ((hwant.byteAhead 0).trans hv) (hwant.answers 1 hans)
  exact ⟨u, ht.trans hu, hwant.trans htook'⟩

/-- DECODE_RUN runs in READY (R185, R190). -/
theorem exec_decodeRun_of_ready (hr : s.state = .ready) : exec .decodeRun s = .next (decodeRunBody s) :=
  congrArg _ (whenReady_of_ready decodeRunBody hr)

theorem State.Inv.decodeRunBody_running (h : s.Inv) (hr : s.state = .ready) : Running (decodeRunBody s) :=
  (h.accept_running hr .decodeRun).after_goto .code

/-- DECODE_RUN that has come to its run completes with it, and only the byte source has moved (R185). -/
theorem State.Inv.decodeRun_completes {gone : List Byte} {value : Byte} {len : BitVec 6} {start : Word} (h : s.Inv)
    (hr : s.state = .ready) (hreach : Reaches (decodeRunBody s) (latchRun value len start t)) (ht : Took gone (decodeRunBody s) t) :
    ∃ t n u, exec .decodeRun s = .next t ∧ runSteps n t = .next u ∧ (∀ i, u.byteAhead i = s.byteAhead (i + gone.length)) ∧
      u = { s with
        win := u.win, inFilled := u.inFilled, inCursor := u.inCursor, eos := u.eos
        inOffset := s.inOffset + BitVec.ofNat 32 gone.length, refillCount := u.refillCount, runValue := value, runLength := len
        stream := u.stream, draws := u.draws } := by
  obtain ⟨n, hn⟩ := hreach
  rw [latchRun_of_decodeRun value len start (ht.moved.curCmd)] at hn
  have hcmd : s.curCmd = none := h.command.2 (by simp [hr])
  have hmicro : s.micro = .quiet := h.quiet.2 (by simp [hr])
  have hoff : s.inOffset + BitVec.ofNat 32 gone.length = t.inOffset := ht.inOffset.symm
  refine ⟨decodeRunBody s, n, complete (setRun value len t), exec_decodeRun_of_ready hr, hn, fun i => ?_, ?_⟩
  · rw [Nat.add_comm]
    exact ht.byteAhead i
  · rw [hoff, hr, hcmd, hmicro]
    exact congrArg (fun x => complete (setRun value len x)) ht.moved

end

/-! ### The obligations -/

/-- Settles O40: inside the window the literal is taken and its run latched in one step; from the bytes ahead the literal is taken, with
the refill it may need, and its run latched. -/
theorem decodeRunCompletesOnLiteral : Obligations.DecodeRunCompletesOnLiteral := by
  unfold Obligations.DecodeRunCompletesOnLiteral
  refine ⟨fun s b hr ha hread hlit hne hne1 => ⟨decodeRunBody s, exec_decodeRun_of_ready hr, rfl, ?_⟩,
    fun s b h hr ha hb hlit hans => ?_⟩
  · have hstep := microStep_literal (s := decodeRunBody s) rfl hne hread (isMarker_of_lt hlit)
    rw [takeValue_in_window (s := decodeRunBody s) b litLen _ hne hne1,
      latchRun_of_decodeRun (s := consume (decodeRunBody s)) b litLen _ rfl] at hstep
    rw [runSteps_step 0 ((step_engine (decodeRunBody s) rfl ha).trans hstep), hr]
    rfl
  · obtain ⟨t, hreach, ht⟩ := (h.decodeRunBody_running hr).literal_took ha rfl hb hans (isMarker_of_lt hlit)
    exact h.decodeRun_completes hr hreach ht

/-- Settles O41: inside the window the marker is taken in one step and the value byte in the next; from the bytes ahead both are taken,
with the refills they may need, and the run latched. -/
theorem decodeRunCompletesOnRun : Obligations.DecodeRunCompletesOnRun := by
  unfold Obligations.DecodeRunCompletesOnRun
  refine ⟨fun s b v hr ha hread hmark hreadv hne hne1 hne2 => ⟨decodeRunBody s, exec_decodeRun_of_ready hr, rfl, ?_⟩,
    fun s b v h hr ha hb hmark hv hans => ?_⟩
  · have hmarker := microStep_marker (s := decodeRunBody s) rfl hne hread (isMarker_of_le hmark)
    rw [takeMarker_in_window (s := decodeRunBody s) _ hne hne1] at hmarker
    have hvalue := runSteps_value (s := goto (.value (markerLen b) s.inOffset) (consume (decodeRunBody s))) rfl ha rfl hne1 hreadv
    have hnext : s.inCursor + 1#9 + 1#9 = s.inCursor + 2#9 := BitVec.add_assoc _ _ _
    have hoff : s.inOffset + 1#32 + 1#32 = s.inOffset + 2#32 := BitVec.add_assoc _ _ _
    rw [takeValue_in_window v (markerLen b) s.inOffset hne1 (by rw [← hnext] at hne2; exact hne2),
      latchRun_of_decodeRun v (markerLen b) s.inOffset (by rfl)] at hvalue
    rw [runSteps_step 1 ((step_engine (decodeRunBody s) rfl ha).trans hmarker), ← markerLen_eq_ofNat hmark, ← hnext, ← hoff, hr]
    exact hvalue
  · obtain ⟨t, hreach, ht⟩ := (h.decodeRunBody_running hr).run_took ha rfl hb hv hans (isMarker_of_le hmark)
    rw [← markerLen_eq_ofNat hmark]
    exact h.decodeRun_completes hr hreach ht

end Sys2Proof.Machine
end

section
/-! The engine on its own (R45, R64, R180, R219): with nothing left for the host to do, what every micro-step keeps holds after any run.
From this, what an accepted command leaves as it was, however it ends. -/

namespace Sys2Proof.Machine

/-! ### What every step keeps -/

section
variable {s t u : State}

/-- What every step keeps holds after any run. -/
theorem Reaches.keeps {P : State → Prop} (hstep : ∀ u v, P u → step u = .next v → P v) (h : Reaches s t) (hs : P s) : P t := by
  obtain ⟨n, hn⟩ := h
  induction n generalizing s with
  | zero => obtain rfl := Host.Outcome.next.inj hn; exact hs
  | succ n ih =>
    rw [runSteps_succ] at hn
    cases hv : step s with
    | next v => rw [hv] at hn; exact ih (hstep s v hs hv) hn
    | fault f => rw [hv] at hn; cases hn
    | refused r => rw [hv] at hn; cases hn

/-- With nothing left for the host to do, a step is the engine's (R21, R72). -/
theorem step_of_noAgenda (ha : s.agenda = []) : step s = engineTick s := by
  rw [step, hostStep, ha]

/-- With nothing left for the host to do, a step is the engine's micro-step, or nothing outside BUSY (R210, R219). -/
theorem step_alone (ha : s.agenda = []) (h : step s = .next t) :
    (s.state ≠ .busy ∧ t = s) ∨ (s.state = .busy ∧ microStep s = .next t) := by
  rw [step_of_noAgenda ha] at h
  rcases engineTick_cases s with ⟨hb, he⟩ | ⟨hb, he⟩ <;> rw [he] at h
  · exact .inr ⟨hb, h⟩
  · exact .inl ⟨hb, (Host.Outcome.next.inj h).symm⟩

/-! ### What the engine cannot change -/

/-- `t` is `s` but for what the engine's micro-steps can change: the widths, the sticky flag, the parameter, the cycles of the stream and
of the answers, and the host's side are the same (R38, R40, R43, R64). -/
def EngineMoved (s t : State) : Prop :=
  t = { s with
    state := t.state, errCode := t.errCode, errOffset := t.errOffset
    win := t.win, inFilled := t.inFilled, inCursor := t.inCursor, eos := t.eos
    inOffset := t.inOffset, refillCount := t.refillCount, scan := t.scan, slCursor := t.slCursor
    runValue := t.runValue, runLength := t.runLength, tile := t.tile, row := t.row, col := t.col, runLeft := t.runLeft
    curCmd := t.curCmd, micro := t.micro, reqPending := t.reqPending, stream := t.stream, draws := t.draws }

theorem EngineMoved.trans (h : EngineMoved s t) (h' : EngineMoved t u) : EngineMoved s u := by
  unfold EngineMoved at h h' ⊢
  rw [h', h]

theorem EngineMoved.width (h : EngineMoved s t) : t.width = s.width := by
  unfold EngineMoved at h
  rw [h]
  rfl

theorem EngineMoved.agenda (h : EngineMoved s t) : t.agenda = s.agenda := by
  unfold EngineMoved at h
  rw [h]

theorem EngineSide.moved (h : EngineSide s t) : EngineMoved s t := by
  unfold EngineSide at h
  rw [h]
  rfl

theorem MicroAccess.moved (h : MicroAccess s t) : EngineMoved s t := by
  cases h <;> rfl

theorem microStep_moved (h : microStep s = .next t) : EngineMoved s t := by
  obtain ⟨u, ha, he⟩ := microStep_effect h
  exact ha.moved.trans he.moved

/-- With nothing left for the host to do, a run from the invariant goes on (R61). -/
theorem State.Inv.runSteps_goesOn (h : s.Inv) (ha : s.agenda = []) (n : Nat) : ∃ t, runSteps n s = .next t := by
  induction n generalizing s with
  | zero => exact ⟨s, rfl⟩
  | succ n ih =>
    obtain ⟨t, ht⟩ := h.engineTick_goesOn
    have hstep := (step_of_noAgenda ha).trans ht
    have hagenda : t.agenda = [] := by
      rcases step_alone ha hstep with ⟨-, rfl⟩ | ⟨-, hm⟩
      · exact ha
      · exact (microStep_moved hm).agenda.trans ha
    rw [runSteps_step n hstep]
    exact ih (everyStepKeepsInvariant s t h hstep) hagenda

/-! ### The loop control of the assembler and the packer -/

/-- `t` is `s` but for the engine state, the scanline cursor and the engine's position in the command: what the loop control between two
runs of a scanline, and before the pixels of a column, can change (R140, R143). -/
def LoopMoved (s t : State) : Prop :=
  t = { s with state := t.state, slCursor := t.slCursor, curCmd := t.curCmd, micro := t.micro }

theorem scanlineDone_loopMoved (s : State) : LoopMoved s (scanlineDone s) := by
  rcases scanlineDone_cases s with ⟨-, h⟩ | ⟨-, h⟩ | ⟨-, h⟩ <;> rw [h] <;> rfl

theorem scanLoop_loopMoved (s : State) : LoopMoved s (scanLoop s) := by
  rcases scanLoop_cases s with ⟨-, h⟩ | ⟨-, h⟩ <;> rw [h]
  · rfl
  · exact scanlineDone_loopMoved (setScanCursor 0 s)

theorem runWritten_loopMoved (s : State) : LoopMoved s (runWritten s) :=
  scanLoop_loopMoved (setScanCursor (s.slCursor + s.runLength.zeroExtend 32) s)

theorem nextPixels_loopMoved (s : State) : LoopMoved s (nextPixels s) := by
  rcases nextPixels_cases s with ⟨-, h⟩ | ⟨-, h⟩ <;> rw [h]
  · exact scanLoop_loopMoved (setScanCursor 0 s)
  · rfl

theorem LoopMoved.errOffset (h : LoopMoved s t) : t.errOffset = s.errOffset := by
  unfold LoopMoved at h
  rw [h]

/-! ### Micro-steps that leave the tile row alone -/

/-- From `s` to `t` the tile buffer and the position in the tile row are the same, and an error offset is recorded with an error only
(R163, R206). -/
structure TileRowKept (s t : State) : Prop where
  tile : t.tile = s.tile
  row : t.row = s.row
  col : t.col = s.col
  errOffset : t.state = .error ∨ t.errOffset = s.errOffset

theorem LoopMoved.tileRowKept (h : LoopMoved s t) : TileRowKept s t := by
  unfold LoopMoved at h
  rw [h]
  exact ⟨rfl, rfl, rfl, .inr rfl⟩

theorem raise_tileRowKept (e : ErrCode) (off : Word) (s : State) : TileRowKept s (raise e off s) := ⟨rfl, rfl, rfl, .inl rfl⟩

theorem goto_tileRowKept (m : Micro) (s : State) : TileRowKept s (goto m s) := ⟨rfl, rfl, rfl, .inr rfl⟩

theorem assembleRun_tileRowKept (start : Word) (s : State) : TileRowKept s (assembleRun start s) := by
  rcases assembleRun_cases start s with ⟨-, h⟩ | ⟨-, -, h⟩ | ⟨-, -, h⟩ <;> rw [h]
  · exact raise_tileRowKept .runOverrun start s
  · exact { (runWritten_loopMoved (setRunLeft 0 s)).tileRowKept with }
  · exact ⟨rfl, rfl, rfl, .inr rfl⟩

theorem latchRun_tileRowKept (value : Byte) (len : BitVec 6) (start : Word) (s : State) :
    TileRowKept s (latchRun value len start s) := by
  rcases latchRun_cases value len start s with ⟨-, h⟩ | ⟨-, h⟩ | ⟨-, h⟩ <;> rw [h]
  · exact ⟨rfl, rfl, rfl, .inr rfl⟩
  · exact { assembleRun_tileRowKept start (setRun value len s) with }
  · exact ⟨rfl, rfl, rfl, .inr rfl⟩

theorem resume_tileRowKept (k : Resume) (s : State) : TileRowKept s (resume k s) := by
  cases k with
  | primed => exact ⟨rfl, rfl, rfl, .inr rfl⟩
  | value len start => exact goto_tileRowKept (.value len start) s
  | latch value len start => exact latchRun_tileRowKept value len start s

theorem takeValue_tileRowKept (value : Byte) (len : BitVec 6) (start : Word) (s : State) :
    TileRowKept s (takeValue value len start s) := by
  rcases takeValue_cases value len start s with ⟨-, h⟩ | ⟨-, -, h⟩ | ⟨-, -, h⟩ <;> rw [h]
  · exact raise_tileRowKept .truncatedStream s.inOffset s
  · exact ⟨rfl, rfl, rfl, .inr rfl⟩
  · exact { latchRun_tileRowKept value len start (consume s) with }

theorem takeMarker_tileRowKept (len : BitVec 6) (s : State) : TileRowKept s (takeMarker len s) := by
  rcases takeMarker_cases len s with ⟨-, h⟩ | ⟨-, -, h⟩ | ⟨-, -, h⟩ <;> rw [h]
  · exact raise_tileRowKept .truncatedStream s.inOffset s
  · exact ⟨rfl, rfl, rfl, .inr rfl⟩
  · exact ⟨rfl, rfl, rfl, .inr rfl⟩

theorem fetchCode_tileRowKept (h : fetchCode s = .next t) : TileRowKept s t := by
  rcases fetchCode_takes h with rfl | ⟨value, len, start, rfl⟩ | ⟨len, rfl⟩
  · exact raise_tileRowKept .truncatedStream s.inOffset s
  · exact takeValue_tileRowKept value len start s
  · exact takeMarker_tileRowKept len s

theorem answerRead_tileRowKept (k : Resume) (s : State) : TileRowKept s (answerRead k s) := by
  rcases answerRead_cases k s with ⟨-, h⟩ | ⟨rest, -, h⟩ | ⟨extra, rest, -, h⟩ <;> rw [h]
  · exact ⟨rfl, rfl, rfl, .inr rfl⟩
  · exact ⟨rfl, rfl, rfl, .inl rfl⟩
  · exact { resume_tileRowKept k (takeBytes extra (setDraws rest s)) with }

/-- A micro-step that neither reads a pixel nor writes a plane byte leaves the tile row alone (R143, R163). -/
theorem microStep_tileRowKept_of_micro (hp : ∀ px, s.micro ≠ .pixels px) (hq : ∀ p px, s.micro ≠ .plane p px) (h : microStep s = .next t) :
    TileRowKept s t := by
  unfold microStep at h
  generalize s.micro = m at h hp hq
  cases m with
  | quiet => obtain rfl := Host.Outcome.next.inj h; exact ⟨rfl, rfl, rfl, .inr rfl⟩
  | code => exact fetchCode_tileRowKept h
  | value len start => exact fetchCode_tileRowKept h
  | refill k =>
    simp only at h
    split at h <;> obtain rfl := Host.Outcome.next.inj h
    · exact answerRead_tileRowKept k s
    · exact ⟨rfl, rfl, rfl, .inr rfl⟩
  | writeRun =>
    obtain ⟨-, ⟨-, rfl⟩ | ⟨-, rfl⟩⟩ := writeRunByte_next h
    · exact { (runWritten_loopMoved (setRunLeft (s.runLeft - 1) (storeScan (runIndex s) s.runValue s))).tileRowKept with }
    · exact ⟨rfl, rfl, rfl, .inr rfl⟩
  | pixels px => exact absurd rfl (hp px)
  | plane p px => exact absurd rfl (hq p px)

theorem nextColumn_errOffset (s : State) : (nextColumn s).errOffset = s.errOffset := by
  rcases nextColumn_cases s with ⟨-, h⟩ | ⟨-, -, h⟩ | ⟨-, -, h⟩ <;> rw [h]
  · exact (nextPixels_loopMoved (setTilePos s.row (s.col + 1) s)).errOffset
  · exact (nextPixels_loopMoved (setTilePos (s.row + 1) 0 s)).errOffset
  · rfl

/-- A micro-step records an error offset with an error only (R206). -/
theorem microStep_errOffset (h : microStep s = .next t) : t.state = .error ∨ t.errOffset = s.errOffset := by
  by_cases hp : ∃ px, s.micro = .pixels px
  · obtain ⟨px, hm⟩ := hp
    rw [microStep, hm] at h
    obtain ⟨-, _, -, ⟨-, rfl⟩ | ⟨-, rfl⟩⟩ := readPixel_next h <;> exact .inr rfl
  by_cases hq : ∃ p px, s.micro = .plane p px
  · obtain ⟨p, px, hm⟩ := hq
    rw [microStep, hm] at h
    obtain ⟨-, ⟨-, rfl⟩ | ⟨-, rfl⟩⟩ := writePlane_next h
    · exact .inr rfl
    · exact .inr (nextColumn_errOffset _)
  exact (microStep_tileRowKept_of_micro (fun px hm => hp ⟨px, hm⟩) (fun p px hm => hq ⟨p, px, hm⟩) h).errOffset

/-- The command in progress is the same after a micro-step, or it has ended (R45, R180). -/
theorem microStep_curCmd (h : microStep s = .next t) : t.curCmd = s.curCmd ∨ t.curCmd = none := by
  obtain ⟨u, hu, hc⟩ := microStep_access h
  have hcmd : u.curCmd = s.curCmd := by cases hu <;> rfl
  rcases hc.outcome with ⟨-, hsame⟩ | ⟨-, hnone⟩ | ⟨-, hnone, -⟩
  · exact .inl (hsame.trans hcmd)
  · exact .inr hnone
  · exact .inr hnone

/-- Only PACK_ROW reads pixels and writes plane bytes (R143, R163). -/
theorem State.Inv.microStep_tileRowKept (h : s.Inv) (hc : s.curCmd ≠ some .packRow) (ht : microStep s = .next t) :
    TileRowKept s t := by
  have hp := h.position
  rw [MicroOk] at hp
  refine microStep_tileRowKept_of_micro (fun px hm => ?_) (fun p px hm => ?_) ht <;> rw [hm] at hp
  · obtain ⟨-, hcmd, -⟩ := hp
    exact hc hcmd
  · obtain ⟨-, hcmd, -⟩ := hp
    exact hc hcmd

/-! ### A command on its own -/

/-- From `s` to `t` the engine has run on its own: the invariant holds, nothing outside the engine and the live parts of `scan` and `tile`
has changed, and an error offset is recorded with an error only (R61, R64, R206). -/
structure EngineRan (s t : State) : Prop where
  inv : t.Inv
  agenda : t.agenda = []
  moved : EngineMoved s t
  scan : ∀ i, s.width ≤ i → t.scan.read i = s.scan.read i
  tile : ∀ i, 4 * s.width ≤ i → t.tile.read i = s.tile.read i
  errOffset : t.state = .error ∨ t.errOffset = s.errOffset

theorem EngineRan.step (h : EngineRan s t) (hs : step t = .next u) : EngineRan s u := by
  have hinv := everyStepKeepsInvariant t u h.inv hs
  rcases step_alone h.agenda hs with ⟨-, rfl⟩ | ⟨hb, hm⟩
  · exact h
  · obtain ⟨v, ha, he⟩ := microStep_effect hm
    have hmoved := microStep_moved hm
    have hlive : ChangesInLivePart t u := ha.changesInLivePart.of_sides rfl he
    have hwidth := h.moved.width
    have hoff : t.errOffset = s.errOffset := h.errOffset.resolve_left (by simp [hb])
    exact {
      inv := hinv
      agenda := hmoved.agenda.trans h.agenda
      moved := h.moved.trans hmoved
      scan := fun i hi => (hlive.scan i (hwidth.trans_le hi)).trans (h.scan i hi)
      tile := fun i hi => (hlive.tile i (by rw [hwidth]; exact hi)).trans (h.tile i hi)
      errOffset := hoff ▸ microStep_errOffset hm }

theorem EngineRan.reaches (h : EngineRan s t) (hr : Reaches t u) : EngineRan s u :=
  hr.keeps (fun _ _ hv hs => hv.step hs) h

theorem ReadyBody.errOffset {v : Word} (h : ReadyBody s v t) : t.errOffset = s.errOffset := by
  cases h with
  | packRow => exact (nextPixels_loopMoved (setTilePos 0 0 (accept .packRow s))).errOffset
  | decodeRun => rfl
  | fillScanline => exact (scanLoop_loopMoved (setScanCursor 0 (accept .fillScanline s))).errOffset

/-- The acceptance of a command (R180, R184 to R186). -/
theorem ReadyBody.engineRan {v : Word} (h : ReadyBody s v t) (hs : s.Inv) (hr : s.state = .ready) (ha : s.agenda = []) :
    EngineRan s t where
  inv := h.inv hs hr
  agenda := h.engineSide.moved.agenda.trans ha
  moved := h.engineSide.moved
  scan _ _ := by rw [h.engineSide.sameBuffers.scan]
  tile _ _ := by rw [h.engineSide.sameBuffers.tile]
  errOffset := .inr h.errOffset

/-- Outside BUSY no command and no read is left, and the rest is as the engine's run has left it (R45, R104). -/
theorem EngineRan.ended (h : EngineRan s u) (hs : s.Inv) (hr : s.state = .ready) (hu : u.state ≠ .busy) :
    u = { s with
      state := u.state, errCode := u.errCode, errOffset := u.errOffset
      win := u.win, inFilled := u.inFilled, inCursor := u.inCursor, eos := u.eos
      inOffset := u.inOffset, refillCount := u.refillCount, scan := u.scan, slCursor := u.slCursor
      runValue := u.runValue, runLength := u.runLength, tile := u.tile, row := u.row, col := u.col, runLeft := u.runLeft
      curCmd := none, micro := .quiet, stream := u.stream, draws := u.draws } := by
  have hreq : u.reqPending = s.reqPending := (h.inv.noRequest hu).trans (hs.noRequest (by simp [hr])).symm
  have hmoved := h.moved
  unfold EngineMoved at hmoved
  rw [h.inv.command.2 hu, h.inv.quiet.2 hu, hreq] at hmoved
  exact hmoved

/-- From `s` to `t` the engine has run on its own, and not for PACK_ROW: the tile row is the same (R163). -/
structure AssemblerRan (s t : State) : Prop extends EngineRan s t where
  command : t.curCmd ≠ some .packRow
  sameTile : t.tile = s.tile
  row : t.row = s.row
  col : t.col = s.col

theorem AssemblerRan.step (h : AssemblerRan s t) (hs : step t = .next u) : AssemblerRan s u := by
  have hran := h.toEngineRan.step hs
  rcases step_alone h.agenda hs with ⟨-, rfl⟩ | ⟨-, hm⟩
  · exact h
  · have hkept := h.inv.microStep_tileRowKept h.command hm
    exact { hran with
      command := (microStep_curCmd hm).elim (fun hc => hc ▸ h.command) fun hc => by simp [hc]
      sameTile := hkept.tile.trans h.sameTile
      row := hkept.row.trans h.row
      col := hkept.col.trans h.col }

theorem AssemblerRan.reaches (h : AssemblerRan s t) (hr : Reaches t u) : AssemblerRan s u :=
  hr.keeps (fun _ _ hv hs => hv.step hs) h

end

end Sys2Proof.Machine
end

section
/-! FILL_SCANLINE on the bytes ahead (R140 to R144, R186): a run written byte by byte, and the scanline or the error that the bytes come
to, whatever the chunks they arrive in. -/

namespace Sys2Proof.Machine

section
variable {s u : State} {l : List Byte}

/-! ### What follows a written run -/

/-- A written run leaves the cursor past it, or at 0 if the scanline is full (R140). -/
theorem runWritten_slCursor (hfit : s.slCursor.toNat + lenOf s.runLength ≤ s.width) :
    (runWritten s).slCursor.toNat =
      if s.slCursor.toNat + lenOf s.runLength < s.width then s.slCursor.toNat + lenOf s.runLength else 0 := by
  have hsum := slCursor_add_runLength hfit
  rcases scanLoop_cases (setScanCursor (s.slCursor + s.runLength.zeroExtend 32) s) with ⟨hlt, h⟩ | ⟨hge, h⟩
  · rw [setScanCursor_slCursor, setScanCursor_width, hsum] at hlt
    rw [runWritten, h, if_pos hlt]
    exact hsum
  · rw [setScanCursor_slCursor, setScanCursor_width, hsum] at hge
    rw [runWritten, h, if_neg (Nat.not_lt.2 hge)]
    rcases scanlineDone_cases (setScanCursor 0 (setScanCursor (s.slCursor + s.runLength.zeroExtend 32) s))
      with ⟨-, hd⟩ | ⟨-, hd⟩ | ⟨-, hd⟩ <;> rw [hd] <;> rfl

/-- What a buffer holds after equal bytes are written one after another (R11). -/
theorem Memory.read_writeAll_replicate (m : Memory) (a n : Nat) (b : Byte) (i : Nat) :
    (m.writeAll a (List.replicate n b)).read i = if a ≤ i ∧ i < a + n then some b else m.read i := by
  rw [Memory.read_writeAll, List.length_replicate]
  by_cases h : a ≤ i ∧ i < a + n
  · rw [if_pos h, if_pos h, List.getElem?_replicate, if_pos (by omega)]
  · rw [if_neg h, if_neg h]

/-! ### FILL_SCANLINE -/

theorem exec_fillScanline_of_ready (hr : s.state = .ready) : exec .fillScanline s = .next (fillScanlineBody s) :=
  congrArg _ (whenReady_of_ready fillScanlineBody hr)

theorem State.Inv.fillScanline_partway (h : s.Inv) (hr : s.state = .ready) (ha : s.agenda = []) :
    Partway [] (setScanCursor 0 (accept .fillScanline s)) where
  running := (h.accept_running hr .fillScanline).after_setScanCursor 0
  filling := .inl rfl
  agenda := ha
  cursor := rfl
  inside := Nat.zero_le _
  holds := nofun

theorem State.Inv.width_pos (h : s.Inv) (hr : s.state = .ready) : 0 < s.width :=
  (h.accept_running hr .fillScanline).width_legal.1

/-- FILL_SCANLINE begins with the first code of the scanline (R140, R186). -/
theorem State.Inv.fillScanlineBody_eq (h : s.Inv) (hr : s.state = .ready) :
    fillScanlineBody s = goto .code (setScanCursor 0 (accept .fillScanline s)) :=
  if_pos (h.width_pos hr)

/-- FILL_SCANLINE comes to what the bytes ahead assemble to (R140 to R142, R186). -/
theorem State.Inv.fillScanline_outcome (h : s.Inv) (hr : s.state = .ready) (ha : s.agenda = []) (hp : Provided l s) :
    RowOutcome (accept .fillScanline s) l (fillScanlineBody s) (assembleRow s.width [] l) := by
  have hc := (Consumed.refl (accept .fillScanline s)).after_setScanCursor 0
  exact ((h.fillScanline_partway hr ha).scanLoop_outcome rfl (hc.provided (b := l) ⟨hp.supplies, hp.answers⟩)).of_consumed hc
    ((SameTask.refl _).after_setScanCursor 0) (.refl _)

/-- However it ends, FILL_SCANLINE leaves the tile row alone (R186). -/
theorem State.Inv.fillScanline_ran (h : s.Inv) (hr : s.state = .ready) (ha : s.agenda = [])
    (hreach : Reaches (fillScanlineBody s) u) : AssemblerRan s u := by
  have hran := ReadyBody.fillScanline.engineRan h hr ha
  have hbody := h.fillScanlineBody_eq hr
  refine AssemblerRan.reaches { hran with command := ?_, sameTile := ?_, row := ?_, col := ?_ } hreach <;> rw [hbody]
  · simp
  · rfl
  · rfl
  · rfl

/-- Outside BUSY nothing is left of the command, and the rest is as the run without the Tile Packer has left it (R45, R186). -/
theorem AssemblerRan.ended (h : AssemblerRan s u) (hs : s.Inv) (hr : s.state = .ready) (hu : u.state ≠ .busy) :
    u = { s with
      state := u.state, errCode := u.errCode, errOffset := u.errOffset
      win := u.win, inFilled := u.inFilled, inCursor := u.inCursor, eos := u.eos
      inOffset := u.inOffset, refillCount := u.refillCount, scan := u.scan, slCursor := u.slCursor
      runValue := u.runValue, runLength := u.runLength, runLeft := u.runLeft
      curCmd := none, micro := .quiet, stream := u.stream, draws := u.draws } := by
  have hended := h.toEngineRan.ended hs hr hu
  rw [h.sameTile, h.row, h.col] at hended
  exact hended

/-- The bytes consumed, counted by what is left of them. -/
theorem length_sub_of_append {gone rest : List Byte} (h : l = gone ++ rest) : l.length - rest.length = gone.length := by
  rw [h, List.length_append, Nat.add_sub_cancel]

end

/-! ### The obligations -/

/-- Settles O51: the bytes are written one a micro-step, and the last one leads to the loop test. -/
theorem runBytesAreWritten : Obligations.RunBytesAreWritten := by
  unfold Obligations.RunBytesAreWritten
  intro s hb _ hm ha hpos hleft hfit
  obtain ⟨n, hn⟩ := Nat.exists_eq_succ_of_ne_zero hpos.ne'
  have hlen : lenOf s.runLength = n + 1 := hleft.symm.trans hn
  have hindex : runIndex s = s.slCursor.toNat := by rw [runIndex, hlen, hn, Nat.sub_self, Nat.add_zero]
  have hrun := runSteps_writeRun n hb ha hm hn hleft.le hfit
  rw [hindex, ← hlen] at hrun
  have hloop := runWritten_loopMoved
    (setRunLeft 0 (storeScanAll s.slCursor.toNat (List.replicate (lenOf s.runLength) s.runValue) s))
  refine ⟨_, hrun, fun a => ?_, runWritten_slCursor hfit, ?_⟩
  · rw [(runWritten_engineSide _).sameBuffers.scan]
    exact Memory.read_writeAll_replicate _ _ _ _ a
  · unfold LoopMoved at hloop
    rw [hloop]
    rfl

/-- Settles O56: what the bytes ahead assemble to is what FILL_SCANLINE comes to, and its run has left the rest alone. -/
theorem fillScanlineRefinesBytes : Obligations.FillScanlineRefinesBytes := by
  unfold Obligations.FillScanlineRefinesBytes
  intro s l h hr ha hsup hans hend
  have hout := h.fillScanline_outcome hr ha ⟨hsup, hans⟩
  have hbody := h.fillScanlineBody_eq hr
  refine ⟨_, exec_fillScanline_of_ready hr, by rw [hbody]; rfl, by rw [hbody]; rfl, ?_⟩
  change RowOutcome _ _ _ (assembleRow s.latchedW.toNat [] l) at hout
  cases hrow : assembleRow s.latchedW.toNat [] l with
  | row px rest =>
    rw [hrow] at hout
    obtain ⟨gone, t, hl, hreach, hrun, hc, ht, h0, hlen, hbegins⟩ := hout
    have hdone : scanlineDone t = complete t := by
      have hcmd : t.curCmd = some .fillScanline := ht.curCmd
      simp only [scanlineDone, hcmd]
    rw [hdone] at hreach
    have hran := h.fillScanline_ran hr ha hreach
    obtain ⟨n, hn⟩ := hreach
    have hgone := length_sub_of_append hl
    refine ⟨n, complete t, hn, hran.ended h hr nofun, hran.scan, rfl, hrun.noError, hran.errOffset.resolve_left nofun, h0,
      fun x hx => hbegins x (hlen.symm ▸ hx), fun i => ?_, ?_⟩
    · rw [hgone]; exact hc.byteAhead i
    · rw [hgone]; exact hc.inOffset
  | truncated =>
    rw [hrow] at hout
    obtain ⟨u, hreach, hst, he, hoff⟩ := hout (hend hrow)
    have hran := h.fillScanline_ran hr ha hreach
    obtain ⟨n, hn⟩ := hreach
    exact ⟨n, u, hn, hran.ended h hr (by simp [hst]), hran.scan, hst, he, hoff⟩
  | overrun rest =>
    rw [hrow] at hout
    obtain ⟨gone, hl, u, hreach, hst, he, hoff⟩ := hout
    have hran := h.fillScanline_ran hr ha hreach
    obtain ⟨n, hn⟩ := hreach
    exact ⟨n, u, hn, hran.ended h hr (by simp [hst]), hran.scan, hst, he, by rw [length_sub_of_append hl]; exact hoff⟩

end Sys2Proof.Machine
end

section
/-! PACK_ROW on the bytes ahead (R143, R160 to R164, R184): eight pixels read, the bits of the packed bytes, and the tile row or the error
that the bytes come to, after a scanline carried over from FILL_SCANLINE or without one. -/

namespace Sys2Proof.Machine

/-! ### The bits of a plane byte -/

section
variable {p : Nat}

theorem getLsbD_pixelBit_shifted (x : Byte) {k i : Nat} (hi : i < 8) :
    (pixelBit x p <<< k).getLsbD i = (decide (i = k) && x.getLsbD p) := by
  simp only [pixelBit, BitVec.getLsbD_shiftLeft, BitVec.getLsbD_and, BitVec.getLsbD_ushiftRight, BitVec.getLsbD_one]
  by_cases h : i = k
  · subst h
    simp [hi]
  · by_cases hlt : i < k
    · simp [h, hlt]
    · have hne : i - k ≠ 0 := by omega
      simp [h, hne]

/-- The pixels from position `k` on set no bit of an earlier one (R160). -/
theorem getLsbD_planeFrom_before (px : List Byte) {k j : Nat} (hj : j < k) (hk : k + px.length ≤ 8) :
    (planeFrom px p k).getLsbD (7 - j) = false := by
  induction px generalizing k with
  | nil => exact BitVec.getLsbD_zero
  | cons y rest ih =>
    rw [List.length_cons] at hk
    have hne : 7 - j ≠ 7 - k := by omega
    rw [planeFrom, BitVec.getLsbD_or, getLsbD_pixelBit_shifted y (by omega), ih (by omega) (by omega)]
    simp [hne]

/-- The pixel `j` places after position `k` sets the bit of its own position (R160). -/
theorem getLsbD_planeFrom {px : List Byte} {x : Byte} {k j : Nat} (hk : k + px.length ≤ 8) (hx : px[j]? = some x) :
    (planeFrom px p k).getLsbD (7 - (k + j)) = x.getLsbD p := by
  induction px generalizing k j with
  | nil => cases hx
  | cons y rest ih =>
    rw [List.length_cons] at hk
    rw [planeFrom, BitVec.getLsbD_or, getLsbD_pixelBit_shifted y (by omega)]
    cases j with
    | zero =>
      obtain rfl : y = x := by simpa using hx
      rw [Nat.add_zero, getLsbD_planeFrom_before rest (Nat.lt_succ_self k) (by omega)]
      simp
    | succ j =>
      rw [List.getElem?_cons_succ] at hx
      have hlt : j < rest.length := (List.getElem?_eq_some_iff.1 hx).1
      have hne : 7 - (k + (j + 1)) ≠ 7 - k := by omega
      have hrest := ih (k := k + 1) (by omega) hx
      rw [show k + 1 + j = k + (j + 1) by omega] at hrest
      rw [hrest]
      simp [hne]

/-- Bit `7 - b` of the byte at `c*32 + r*4 + p` is bit `p` of pixel `8c + b` of the scanline packed there (R160, R163). -/
theorem getLsbD_tileByte {px : List Byte} {c r b : Nat} (hc : c < px.length / 8) (hr : r < 8) (hp : p < 4) (hb : b < 8) :
    ∃ x, px[8 * c + b]? = some x ∧ (tileByte px (c * 32 + r * 4 + p)).getLsbD (7 - b) = x.getLsbD p := by
  have hlt : 8 * c + b < px.length := by omega
  have hcol : tileCol (c * 32 + r * 4 + p) = c := by unfold tileCol; omega
  have hplane : (c * 32 + r * 4 + p) % 4 = p := by omega
  have hx : (columnPixels px c)[b]? = some px[8 * c + b] := by
    rw [columnPixels, List.getElem?_take_of_lt hb, List.getElem?_drop, List.getElem?_eq_getElem hlt]
  have hlen : 0 + (columnPixels px c).length ≤ 8 := by rw [columnPixels, List.length_take]; omega
  refine ⟨px[8 * c + b], List.getElem?_eq_getElem hlt, ?_⟩
  rw [tileByte, hcol, hplane, planeByte, ← getLsbD_planeFrom hlen hx, Nat.zero_add]

end

/-! ### The lengths of assembled scanlines -/

section
variable {w : Nat} {l px rest : List Byte} {pxs cs : List (List Byte)}

/-- An assembled scanline has W pixels (R140). -/
theorem assembleRow_length {acc : List Byte} (hacc : acc.length ≤ w) (h : assembleRow w acc l = .row px rest) : px.length = w := by
  fun_induction assembleRow w acc l with
  | case1 acc hge => cases h; omega
  | case2 acc hlt => cases h
  | case3 acc b rest' hge => cases h; omega
  | case4 acc b rest' hlt hlit ih => exact ih (by rw [List.length_append, List.length_singleton]; omega) h
  | case5 acc b hlt hmark => cases h
  | case6 acc b hlt hmark v rest' hover => cases h
  | case7 acc b hlt hmark v rest' hfit ih => exact ih (by rw [List.length_append, List.length_replicate]; omega) h

/-- As many scanlines are assembled as are wanted, each of W pixels (R140, R163). -/
theorem assembleRows_lengths {n : Nat} (h : assembleRows w n l = .rows pxs rest) :
    pxs.length = n ∧ ∀ px ∈ pxs, px.length = w := by
  induction n generalizing l pxs with
  | zero => cases h; exact ⟨rfl, nofun⟩
  | succ n ih =>
    cases hrow : assembleRow w [] l with
    | truncated => rw [assembleRows_truncated n hrow] at h; cases h
    | overrun rest' => rw [assembleRows_overrun n hrow] at h; cases h
    | row px rest' =>
      rw [assembleRows_row n hrow] at h
      cases hrest : assembleRows w n rest' with
      | truncated => rw [hrest] at h; cases h
      | overrun rest'' => rw [hrest] at h; cases h
      | rows pxs' rest'' =>
        rw [hrest] at h
        cases h
        obtain ⟨hlen, hall⟩ := ih hrest
        exact ⟨congrArg Nat.succ hlen, List.forall_mem_cons.2 ⟨assembleRow_length (Nat.zero_le _) hrow, hall⟩⟩

/-- Scanlines that are there before the bytes (R143). -/
theorem AssembledRows.foldr_cons_rows (cs pxs : List (List Byte)) (rest : List Byte) :
    cs.foldr AssembledRows.cons (.rows pxs rest) = .rows (cs ++ pxs) rest := by
  induction cs with
  | nil => rfl
  | cons px cs ih => rw [List.foldr_cons, ih]; rfl

theorem AssembledRows.foldr_cons_truncated (cs : List (List Byte)) :
    cs.foldr AssembledRows.cons .truncated = .truncated := by
  induction cs with
  | nil => rfl
  | cons px cs ih => rw [List.foldr_cons, ih]; rfl

theorem AssembledRows.foldr_cons_overrun (cs : List (List Byte)) (rest : List Byte) :
    cs.foldr AssembledRows.cons (.overrun rest) = .overrun rest := by
  induction cs with
  | nil => rfl
  | cons px cs ih => rw [List.foldr_cons, ih]; rfl

end

/-! ### A scanline carried over from FILL_SCANLINE -/

section
variable {s u : State} {l : List Byte}

theorem scanline_eq_map (h : ScanFull s) : s.scanline = (List.range s.width).map fun i => (s.scan.read i).getD 0 := by
  rw [State.scanline, ← List.filterMap_eq_map']
  refine List.filterMap_congr fun i hi => ?_
  obtain ⟨b, hb⟩ := Option.isSome_iff_exists.1 (h i (List.mem_range.1 hi))
  rw [hb]
  rfl

theorem scanline_length (h : ScanFull s) : s.scanline.length = s.width := by
  rw [scanline_eq_map h, List.length_map, List.length_range]

/-- A full scanline is what `scan` begins with (R33, R140). -/
theorem scan_begins_scanline (h : ScanFull s) : s.scan.Begins s.scanline := by
  intro i hi
  rw [scanline_length h] at hi
  obtain ⟨b, hb⟩ := Option.isSome_iff_exists.1 (h i hi)
  rw [scanline_eq_map h, List.getElem?_map, List.getElem?_range hi, hb]
  simp [hb]

/-- The scanline FILL_SCANLINE has left, if the cursor is at 0 (R35, R143). -/
def State.carried (s : State) : List (List Byte) := if s.slCursor = 0#32 then [s.scanline] else []

theorem State.carried_of_zero (h0 : s.slCursor = 0#32) : s.carried = [s.scanline] := if_pos h0

theorem State.carried_of_ne (h0 : s.slCursor ≠ 0#32) : s.carried = [] := if_neg h0

/-- W is not 0, so a scanline at cursor 0 is not consumed (R35, R39). -/
theorem State.Inv.ne_latchedW_of_zero (h : s.Inv) (hr : s.state = .ready) (h0 : s.slCursor = 0#32) : s.slCursor ≠ s.latchedW := by
  intro hcons
  have hpos : 0 < s.latchedW.toNat := h.width_pos hr
  rw [← hcons, h0] at hpos
  exact Nat.lt_irrefl _ hpos

/-- At READY a scanline with the cursor at 0 is assembled (R35). -/
theorem State.Inv.scanFull_of_zero (h : s.Inv) (hr : s.state = .ready) (h0 : s.slCursor = 0#32) : ScanFull s := by
  obtain ⟨-, hfull⟩ := (h.boundary hr).2.resolve_left (h.ne_latchedW_of_zero hr h0)
  exact hfull

theorem State.Inv.carried_lengths (h : s.Inv) (hr : s.state = .ready) :
    s.carried.length ≤ 8 ∧ ∀ px ∈ s.carried, px.length = s.width := by
  by_cases h0 : s.slCursor = 0#32
  · rw [State.carried_of_zero h0]
    exact ⟨by simp, by simpa using scanline_length (h.scanFull_of_zero hr h0)⟩
  · rw [State.carried_of_ne h0]
    exact ⟨Nat.zero_le _, nofun⟩

/-- PACK_ROW on a scanline carried over packs it first, and comes to what seven more from the bytes ahead come to (R143, R163, R184). -/
theorem State.Inv.packRow_outcome_of_zero (h : s.Inv) (hr : s.state = .ready) (ha : s.agenda = []) (h0 : s.slCursor = 0#32)
    (hp : Provided l s) : RowsOutcome 0 s l (packRowBody s) ((assembleRows s.width 7 l).cons s.scanline) := by
  have hc : Consumed [] s (setTilePos 0 0 (accept .packRow s)) := Consumed.after_setTilePos 0 0 { Consumed.refl s with }
  have hrun : Running (setTilePos 0 0 (accept .packRow s)) := { h.accept_running hr .packRow with }
  have hfull := h.scanFull_of_zero hr h0
  obtain ⟨hpos, hmod, -⟩ := (h.accept_running hr .packRow).width_legal
  have hpacking : Packing s.scanline (setTilePos 0 0 (accept .packRow s)) :=
    ⟨hrun, rfl, ha, Nat.zero_lt_succ _, scanline_length hfull, scan_begins_scanline hfull⟩
  have hbody : packRowBody s = goto (.pixels []) (setTilePos 0 0 (accept .packRow s)) :=
    if_neg (mt (scanConsumed_iff _).1 (h.ne_latchedW_of_zero hr h0))
  have hcols : 0 + (s.width / 8 - 1) + 1 = s.width / 8 := by rw [accept_width] at hpos hmod; omega
  obtain ⟨t, hreach, hend, hct, hrow, htile⟩ := hpacking.columns_reach (s.width / 8 - 1) hcols (congrArg BitVec.toNat h0)
  have hct' : Consumed [] s t := hc.trans hct
  have hrest := hend.outcome 7 (by rw [hrow, setTilePos_row]) (hct'.provided (b := l) hp)
  rw [hrow, hct'.width] at hrest
  rw [← hbody] at hreach
  refine RowsOutcome.cons hct' hreach (fun a => ?_) hrest
  rw [htile a]
  simp

/-- PACK_ROW from READY comes to the scanline carried over, if any, and what the others of the eight come to (R143, R163, R184). -/
theorem State.Inv.packRow_outcome_carried (h : s.Inv) (hr : s.state = .ready) (ha : s.agenda = []) (hp : Provided l s) :
    RowsOutcome 0 s l (packRowBody s)
      (s.carried.foldr AssembledRows.cons (assembleRows s.width (8 - s.carried.length) l)) := by
  by_cases h0 : s.slCursor = 0#32
  · rw [State.carried_of_zero h0]
    exact h.packRow_outcome_of_zero hr ha h0 hp
  · rw [State.carried_of_ne h0]
    exact packRow_outcome h hr ha ((h.boundary hr).2.resolve_right fun ⟨hz, _⟩ => h0 hz) hp

/-! ### PACK_ROW -/

/-- PACK_ROW is accepted (R180, R184). -/
theorem State.Inv.packRowBody_accepted (h : s.Inv) (hr : s.state = .ready) :
    (packRowBody s).state = .busy ∧ (packRowBody s).curCmd = some .packRow := by
  have hmore : refillScanline (setTilePos 0 0 (accept .packRow s)) =
      goto .code (setScanCursor 0 (setTilePos 0 0 (accept .packRow s))) := if_pos (h.width_pos hr)
  rcases nextPixels_cases (setTilePos 0 0 (accept .packRow s)) with ⟨-, hb⟩ | ⟨-, hb⟩
  · rw [packRowBody, hb, hmore]
    exact ⟨rfl, rfl⟩
  · rw [packRowBody, hb]
    exact ⟨rfl, rfl⟩

/-- However it ends, PACK_ROW changes nothing outside the engine and the live parts of `scan` and `tile` (R61, R64). -/
theorem State.Inv.packRow_ran (h : s.Inv) (hr : s.state = .ready) (ha : s.agenda = []) (hreach : Reaches (packRowBody s) u) :
    EngineRan s u :=
  (ReadyBody.packRow.engineRan h hr ha).reaches hreach

/-- Eight packed scanlines, bit by bit (R160, R163). -/
theorem tileRow_bits {rows : List (List Byte)} {m m' : Memory} {w : Nat} (hlen : rows.length = 8)
    (hall : ∀ px ∈ rows, px.length = w)
    (htile : ∀ a, m'.read a = if 0 ≤ tileRow a ∧ tileCol a < w / 8
      then (rows[tileRow a - 0]?).map fun px => tileByte px a else m.read a)
    {c r p b : Nat} (hc : c < w / 8) (hr : r < 8) (hp : p < 4) (hb : b < 8) :
    ∃ row x byte, rows[r]? = some row ∧ row[8 * c + b]? = some x ∧ m'.read (c * 32 + r * 4 + p) = some byte ∧
      byte.getLsbD (7 - b) = x.getLsbD p := by
  have hget : rows[r]? = some rows[r] := List.getElem?_eq_getElem (hlen.symm ▸ hr)
  have hrow : tileRow (c * 32 + r * 4 + p) = r := by unfold tileRow; omega
  have hcol : tileCol (c * 32 + r * 4 + p) = c := by unfold tileCol; omega
  have hlenr := hall _ (List.mem_of_getElem? hget)
  obtain ⟨x, hx, hbit⟩ := getLsbD_tileByte (hlenr.symm ▸ hc) hr hp hb
  refine ⟨rows[r], x, _, hget, hx, ?_, hbit⟩
  rw [htile, hrow, hcol, if_pos ⟨Nat.zero_le _, hc⟩, Nat.sub_zero, hget]
  rfl

end

/-! ### The obligations -/

/-- Settles O52: the pixels are read one a micro-step, and the cursor is moved with the eighth. -/
theorem eightPixelsAreRead : Obligations.EightPixelsAreRead := by
  unfold Obligations.EightPixelsAreRead
  intro s px hb hm ha hfit hlen hread
  exact runSteps_pixels 7 (j := 0) hb ha hm rfl hlen hfit hread

/-- Settles O57: the scanline carried over and what the bytes ahead assemble to are what PACK_ROW comes to, and its run has left the rest
alone. -/
theorem packRowPacksTileRow : Obligations.PackRowPacksTileRow := by
  unfold Obligations.PackRowPacksTileRow
  intro s l h hr ha hsup hans carried hend
  have hout : RowsOutcome 0 s l (packRowBody s)
      (carried.foldr AssembledRows.cons (assembleRows s.latchedW.toNat (8 - carried.length) l)) :=
    h.packRow_outcome_carried hr ha ⟨hsup, hans⟩
  obtain ⟨hclen, hcall⟩ : carried.length ≤ 8 ∧ ∀ px ∈ carried, px.length = s.latchedW.toNat := h.carried_lengths hr
  clear_value carried
  obtain ⟨hbusy, hcmd⟩ := h.packRowBody_accepted hr
  refine ⟨_, execPackRow_of_ready hr, hbusy, hcmd, ?_⟩
  cases hrows : assembleRows s.latchedW.toNat (8 - carried.length) l with
  | rows pxs rest =>
    rw [hrows, AssembledRows.foldr_cons_rows] at hout
    obtain ⟨gone, t, hl, hreach, hrun, hc, hcur, htile⟩ := hout
    obtain ⟨hplen, hpall⟩ := assembleRows_lengths hrows
    have hlen : (carried ++ pxs).length = 8 := by rw [List.length_append, hplen]; omega
    have hall : ∀ px ∈ carried ++ pxs, px.length = s.latchedW.toNat := List.forall_mem_append.2 ⟨hcall, hpall⟩
    have hran := h.packRow_ran hr ha hreach
    obtain ⟨n, hn⟩ := hreach
    have hgone := length_sub_of_append hl
    refine ⟨n, complete t, hn, hran.ended h hr nofun, hran.tile, hran.scan, rfl, hrun.noError, hran.errOffset.resolve_left nofun,
      hcur.trans hc.latchedW, fun i => ?_, ?_, fun c r p b => tileRow_bits hlen hall htile⟩
    · rw [hgone]; exact hc.byteAhead i
    · rw [hgone]; exact hc.inOffset
  | truncated =>
    rw [hrows, AssembledRows.foldr_cons_truncated] at hout
    obtain ⟨u, hreach, hst, he, hoff⟩ := hout (hend hrows)
    have hran := h.packRow_ran hr ha hreach
    obtain ⟨n, hn⟩ := hreach
    exact ⟨n, u, hn, hran.ended h hr (by simp [hst]), hran.tile, hran.scan, hst, he, hoff⟩
  | overrun rest =>
    rw [hrows, AssembledRows.foldr_cons_overrun] at hout
    obtain ⟨gone, hl, u, hreach, hst, he, hoff⟩ := hout
    have hran := h.packRow_ran hr ha hreach
    obtain ⟨n, hn⟩ := hreach
    exact ⟨n, u, hn, hran.ended h hr (by simp [hst]), hran.tile, hran.scan, hst, he, by rw [length_sub_of_append hl]; exact hoff⟩

end Sys2Proof.Machine
end

section
/-! FILL_SCANLINE on a stream of zero-length runs without end (R142, R189): run after run is consumed, and nothing is assembled. -/

namespace Sys2Proof.Machine

/-! ### The bytes ahead -/

section
variable {s t : State} {m : Memory} {j : Nat}

/-- Before a byte ahead there is no gap (R104). -/
theorem byteAhead_before {b : Byte} {i : Nat} (h : s.byteAhead i = some b) (hj : j ≤ i) : ∃ v, s.byteAhead j = some v := by
  rw [← pendingTo_getElem (i + 1) i s (Nat.lt_succ_self i)] at h
  have hlt : i < (s.pendingTo (i + 1)).length := (List.getElem?_eq_some_iff.1 h).1
  rw [← pendingTo_getElem (i + 1) j s (Nat.lt_succ_of_le hj)]
  exact ⟨_, List.getElem?_eq_getElem (Nat.lt_of_le_of_lt hj hlt)⟩

/-- After the byte at the cursor the bytes ahead move up by one place (R102, R106). -/
theorem Running.byteAhead_consumed {b : Byte} (h : Running s) (hb : s.byteAhead 0 = some b) (i : Nat) :
    (consume s).byteAhead i = s.byteAhead (i + 1) := by
  obtain ⟨hne, hread⟩ := h.read_of_byteAhead hb
  obtain ⟨-, hahead⟩ := byteAhead_consume s b (h.cursor_lt hne) hread
  exact (hahead i).symm

/-! ### Every micro-step stays inside the zero-length runs -/

/-- FILL_SCANLINE has assembled nothing over the contents `m` of `scan`, the byte `j` places ahead and every other one after it is the marker
of a zero-length run, and every read is answered (R142, R189). -/
structure ZeroRunsAhead (m : Memory) (j : Nat) (s : State) : Prop where
  agenda : s.agenda = []
  busy : s.state = .busy
  command : s.curCmd = some .fillScanline
  cursor : s.slCursor = 0#32
  scan : s.scan = m
  widthPos : 0 < s.width
  answers : ∀ n, s.answers n
  markers : ∀ i, s.byteAhead (2 * i + j) = some 0xC0#8

/-- The engine's position where every run has length 0, with the next marker `j` bytes ahead (R122, R142). -/
def ZeroRunAt (j : Nat) : Micro → Prop
  | .code => j = 0
  | .value len _ => len = 0#6 ∧ j = 1
  | .refill (.value len _) => len = 0#6 ∧ j = 1
  | .refill (.latch _ len _) => len = 0#6 ∧ j = 0
  | _ => False

/-- FILL_SCANLINE is inside a row of zero-length runs without end. -/
def InZeroRuns (m : Memory) (s : State) : Prop := s.Inv ∧ ∃ j, ZeroRunAt j s.micro ∧ ZeroRunsAhead m j s

theorem ZeroRunsAhead.inZeroRuns_goto {k : Micro} (h : ZeroRunsAhead m j s) (hk : ZeroRunAt j k) (hinv : (goto k s).Inv) :
    InZeroRuns m (goto k s) :=
  ⟨hinv, j, hk, { h with }⟩

/-- A marker is consumed, and the next one is the second byte ahead (R121). -/
theorem ZeroRunsAhead.marker_consumed (h : ZeroRunsAhead m 0 s) (hrun : Running s) : ZeroRunsAhead m 1 (consume s) :=
  { h with markers := fun i => (hrun.byteAhead_consumed (h.markers 0) _).trans (h.markers (i + 1)) }

/-- A value byte is consumed, and the next marker is the first byte ahead (R121). -/
theorem ZeroRunsAhead.value_consumed {v : Byte} (h : ZeroRunsAhead m 1 s) (hrun : Running s) (hv : s.byteAhead 0 = some v) :
    ZeroRunsAhead m 0 (consume s) :=
  { h with markers := fun i => (hrun.byteAhead_consumed hv _).trans (h.markers i) }

/-- A latched zero-length run leaves the cursor, and the next code follows (R142). -/
theorem ZeroRunsAhead.latchRun_inZeroRuns {value : Byte} {start : Word} (h : ZeroRunsAhead m 0 s)
    (hinv : (latchRun value 0#6 start s).Inv) : InZeroRuns m (latchRun value 0#6 start s) := by
  have hlatch : latchRun value 0#6 start s = goto .code (setRunLeft 0 (setRun value 0#6 s)) := by
    rw [latchRun_of_scanline value 0#6 start (.inl h.command)]
    exact assembleRun_zero start rfl (by rw [setRun_slCursor, h.cursor]; exact h.widthPos)
  have hahead : ZeroRunsAhead m 0 (setRunLeft 0 (setRun value 0#6 s)) := { h with }
  rw [hlatch] at hinv ⊢
  exact hahead.inZeroRuns_goto rfl hinv

/-- A read is answered, and the bytes ahead are the same (R103, R106). -/
theorem ZeroRunsAhead.refilled (h : ZeroRunsAhead m j s) (hr : AtRefill s) :
    ∃ extra ds, s.nextDraw = some (.bytes extra, ds) ∧ ZeroRunsAhead m j (takeBytes extra (setDraws ds s)) := by
  obtain ⟨hempty, hnotEnded⟩ := hr
  obtain ⟨extra, ds, hd, -⟩ := answers_succ s 0 (h.answers 1)
  have hans (n : Nat) : (setDraws ds s).answers n := by
    obtain ⟨_, _, hd', hrest⟩ := answers_succ s n (h.answers (n + 1))
    cases hd.symm.trans hd'
    exact hrest
  exact ⟨extra, ds, hd, { h with
    answers := hans
    markers := fun i => (byteAhead_takeBytes extra (setDraws ds s) hempty hnotEnded _).trans (h.markers i) }⟩

/-- Where a code begins, its marker is taken (R121, R122). -/
theorem ZeroRunsAhead.code_step (h : ZeroRunsAhead m 0 s) (hs : s.Inv) (hm : s.micro = .code) (ht : microStep s = .next t) :
    InZeroRuns m t := by
  have hinv := microStep_inv hs h.busy ht
  have hrun := hs.running h.busy (by simp [hm])
  have hnext := h.marker_consumed hrun
  obtain ⟨hne, hread⟩ := hrun.read_of_byteAhead (h.markers 0)
  rw [microStep_marker hm hne hread (by decide), show markerLen 0xC0#8 = 0#6 by decide] at ht
  obtain rfl := Host.Outcome.next.inj ht
  rcases takeMarker_cases 0#6 s with ⟨he, -⟩ | ⟨-, -, hu⟩ | ⟨-, -, hu⟩
  · exact absurd he hne
  · rw [hu] at hinv ⊢
    exact hnext.inZeroRuns_goto ⟨rfl, rfl⟩ hinv
  · rw [hu] at hinv ⊢
    exact hnext.inZeroRuns_goto ⟨rfl, rfl⟩ hinv

/-- Where a value byte is wanted, the next byte is taken, whatever it is, and the run of length 0 latched (R121, R142). -/
theorem ZeroRunsAhead.value_step {start : Word} (h : ZeroRunsAhead m 1 s) (hs : s.Inv) (hm : s.micro = .value 0#6 start)
    (ht : microStep s = .next t) : InZeroRuns m t := by
  have hinv := microStep_inv hs h.busy ht
  have hrun := hs.running h.busy (by simp [hm])
  obtain ⟨v, hv⟩ := byteAhead_before (h.markers 0) (Nat.zero_le _)
  have hnext := h.value_consumed hrun hv
  obtain ⟨hne, hread⟩ := hrun.read_of_byteAhead hv
  rw [microStep_value hm hne hread] at ht
  obtain rfl := Host.Outcome.next.inj ht
  rcases takeValue_cases v 0#6 start s with ⟨he, -⟩ | ⟨-, -, hu⟩ | ⟨-, -, hu⟩
  · exact absurd he hne
  · rw [hu] at hinv ⊢
    exact hnext.inZeroRuns_goto ⟨rfl, rfl⟩ hinv
  · rw [hu] at hinv ⊢
    exact hnext.latchRun_inZeroRuns hinv

/-- Inside a refill the read is issued, or its answer leads back to the runs (R103). -/
theorem ZeroRunsAhead.refill_step {k : Resume} (h : ZeroRunsAhead m j s) (hs : s.Inv) (hm : s.micro = .refill k)
    (hj : ZeroRunAt j (.refill k)) (ht : microStep s = .next t) : InZeroRuns m t := by
  have hinv := microStep_inv hs h.busy ht
  cases hq : s.reqPending with
  | false =>
    rw [microStep_issueRead hm hq] at ht
    obtain rfl := Host.Outcome.next.inj ht
    exact ⟨hinv, j, by rw [issueRead_micro, hm]; exact hj, { h with }⟩
  | true =>
    obtain ⟨hat, -⟩ := (microOk_refill hm).1 hs.position
    obtain ⟨extra, ds, hd, hnext⟩ := h.refilled hat
    rw [microStep_answered hm hq hd] at ht
    obtain rfl := Host.Outcome.next.inj ht
    cases k with
    | primed => exact hj.elim
    | value len start => exact hnext.inZeroRuns_goto hj hinv
    | latch value len start =>
      obtain ⟨rfl, rfl⟩ := hj
      exact hnext.latchRun_inZeroRuns hinv

theorem InZeroRuns.step (h : InZeroRuns m s) (hst : step s = .next t) : InZeroRuns m t := by
  obtain ⟨hs, j, hj, hz⟩ := h
  rw [step_engine s hz.busy hz.agenda] at hst
  cases hm : s.micro with
  | code => rw [hm] at hj; obtain rfl := hj; exact hz.code_step hs hm hst
  | value len start => rw [hm] at hj; obtain ⟨rfl, rfl⟩ := hj; exact hz.value_step hs hm hst
  | refill k => rw [hm] at hj; exact hz.refill_step hs hm hj hst
  | quiet => rw [hm] at hj; exact hj.elim
  | writeRun => rw [hm] at hj; exact hj.elim
  | pixels px => rw [hm] at hj; exact hj.elim
  | plane p px => rw [hm] at hj; exact hj.elim

/-! ### Run after run is consumed -/

/-- A zero-length run is consumed, and the scanline is as empty as before (R140, R142). -/
theorem Partway.zeroRun_reaches (h : Partway [] s) (hz : ∀ i, s.byteAhead (2 * i) = some 0xC0#8) (hans : s.answers 2) :
    ∃ v t, Reaches (scanLoop s) (scanLoop t) ∧ Partway [] t ∧ Consumed [0xC0#8, v] s t := by
  obtain ⟨v, hv⟩ := byteAhead_before (hz 1) (Nat.le_succ 1)
  have hp : Provided [0xC0#8, v] s := ⟨fun i hi => match i, hi with
    | 0, _ => hz 0
    | 1, _ => hv, hans⟩
  have hpos : 0 < s.width := h.running.width_legal.1
  obtain ⟨t, ht, hpt, hct, -⟩ := h.run_reaches hpos hp (by decide)
  obtain ⟨u, hu, hpu, hcu, -⟩ := hpt.latchRun_reaches (value := v) (len := markerLen 0xC0#8)
    (Nat.zero_le _) s.inOffset
  exact ⟨v, u, ht.trans hu, hpu, hct.trans hcu⟩

/-- As many zero-length runs are consumed as one likes (R142, R189). -/
theorem Partway.zeroRuns_reach (k : Nat) (h : Partway [] s) (hz : ∀ i, s.byteAhead (2 * i) = some 0xC0#8)
    (hans : ∀ n, s.answers n) :
    ∃ gone t, gone.length = 2 * k ∧ Reaches (scanLoop s) (scanLoop t) ∧ Partway [] t ∧ Consumed gone s t := by
  induction k generalizing s with
  | zero => exact ⟨[], s, rfl, .refl _, h, .refl s⟩
  | succ k ih =>
    obtain ⟨v, t, ht, hpt, hct⟩ := h.zeroRun_reaches hz (hans 2)
    have hzt (i : Nat) : t.byteAhead (2 * i) = some 0xC0#8 := by
      rw [hct.byteAhead, ← hz (i + 1)]
      congr 1
      simp only [List.length_cons, List.length_nil]
      omega
    obtain ⟨gone, u, hlen, hu, hpu, hcu⟩ := ih hpt hzt fun n => hct.answers n (hans _)
    exact ⟨[0xC0#8, v] ++ gone, u, by rw [List.length_append, hlen, List.length_cons, List.length_singleton]; omega,
      ht.trans hu, hpu, hct.trans hcu⟩

theorem State.Inv.fillScanline_inZeroRuns (h : s.Inv) (hr : s.state = .ready) (ha : s.agenda = [])
    (hz : ∀ i, s.byteAhead (2 * i) = some 0xC0#8) (hans : ∀ n, s.answers n) : InZeroRuns s.scan (fillScanlineBody s) := by
  have hinv := ReadyBody.fillScanline.inv h hr
  rw [h.fillScanlineBody_eq hr] at hinv ⊢
  exact ⟨hinv, 0, rfl, ha, rfl, rfl, rfl, rfl, h.width_pos hr, hans, hz⟩

end

/-! ### The obligation -/

/-- Settles O59: every step stays inside the zero-length runs, and each of them is consumed in its turn. -/
theorem endlessZeroRunsNeverComplete : Obligations.EndlessZeroRunsNeverComplete := by
  unfold Obligations.EndlessZeroRunsNeverComplete
  intro s h hr ha hz hans
  have hzero := h.fillScanline_inZeroRuns hr ha hz hans
  refine ⟨_, exec_fillScanline_of_ready hr, fun n => ?_, fun k => ?_⟩
  · have hran := ReadyBody.fillScanline.engineRan h hr ha
    obtain ⟨u, hu⟩ := hran.inv.runSteps_goesOn hran.agenda n
    obtain ⟨-, _, -, hahead⟩ := (Reaches.of_run n hu).keeps (fun _ _ hv hs => InZeroRuns.step hv hs) hzero
    exact ⟨u, hu, hahead.busy, hahead.command, hahead.cursor, hahead.scan⟩
  · obtain ⟨gone, t, hlen, ⟨n, hn⟩, hpt, hct⟩ := (h.fillScanline_partway hr ha).zeroRuns_reach k hz hans
    rw [hpt.scanLoop_more hpt.running.width_legal.1] at hn
    refine ⟨n, goto .code t, hn, hpt.running.busy, ?_⟩
    rw [← hlen]
    exact hct.inOffset

end Sys2Proof.Machine
end

section
/-! The Tile Packer (R160, R163): the index of a tile byte, which pixel bits a plane byte holds, and the four plane bytes of a column. -/

namespace Sys2Proof.Machine

/-! ### The index of a tile byte -/

section
variable {c r p : Nat}

theorem tileIndex_lt {w : Nat} (hc : c < w / 8) (hr : r < 8) (hp : p < 4) : tileIndex c r p < 4 * w := by
  unfold tileIndex
  omega

theorem tileCol_tileIndex (hr : r < 8) (hp : p < 4) : tileCol (tileIndex c r p) = c := by
  unfold tileCol tileIndex
  omega

theorem tileRow_tileIndex (hr : r < 8) (hp : p < 4) : tileRow (tileIndex c r p) = r := by
  unfold tileRow tileIndex
  omega

theorem tileIndex_mod_four (hp : p < 4) : tileIndex c r p % 4 = p := by
  unfold tileIndex
  omega

theorem tileIndex_tileCol_tileRow (a : Nat) : tileIndex (tileCol a) (tileRow a) (a % 4) = a := by
  unfold tileIndex tileCol tileRow
  omega

/-! ### The low nibble of a pixel -/

theorem pixelBit_lowNibble (x : Byte) (hp : p < 4) : pixelBit (x &&& 0x0F#8) p = pixelBit x p := by
  have hmask : ∀ q, q < 4 → 0x0F#8 >>> q &&& 1#8 = 1#8 := by decide
  rw [pixelBit, BitVec.ushiftRight_and_distrib, BitVec.and_assoc, hmask p hp, pixelBit]

theorem planeFrom_lowNibbles (px : List Byte) (hp : p < 4) (k : Nat) :
    planeFrom (px.map fun x => x &&& 0x0F#8) p k = planeFrom px p k := by
  induction px generalizing k with
  | nil => rfl
  | cons x rest ih => rw [List.map_cons, planeFrom, planeFrom, pixelBit_lowNibble x hp, ih]

end

/-! ### The plane bytes of a column -/

/-- What a buffer holds after the four plane bytes of eight pixels are written one after another (R163). -/
theorem Memory.read_writeAll_planes (m : Memory) (px : List Byte) (i a : Nat) :
    (m.writeAll i ((List.range' 0 4).map (planeByte px))).read a =
      if i ≤ a ∧ a < i + 4 then some (planeByte px (a - i)) else m.read a := by
  rw [Memory.read_writeAll, List.length_map, List.length_range']
  by_cases h : i ≤ a ∧ a < i + 4
  · rw [if_pos h, if_pos h, List.getElem?_map, List.getElem?_range' (by omega)]
    simp
  · rw [if_neg h, if_neg h]

/-- A packed column moves the engine state, the scanline cursor and the engine's position in the command, and nothing else (R163). -/
theorem nextColumn_moved (s : State) :
    nextColumn s = { s with
      state := (nextColumn s).state, slCursor := (nextColumn s).slCursor, curCmd := (nextColumn s).curCmd
      row := (nextColumn s).row, col := (nextColumn s).col, micro := (nextColumn s).micro } := by
  have hpixels (r c : Nat) := nextPixels_loopMoved (setTilePos r c s)
  unfold LoopMoved at hpixels
  rcases nextColumn_cases s with ⟨-, h⟩ | ⟨-, -, h⟩ | ⟨-, -, h⟩ <;> rw [h]
  · rw [hpixels]
    rfl
  · rw [hpixels]
    rfl
  · rfl

/-! ### The obligations -/

/-- Settles O55: an index has one column, one row and one plane. -/
theorem tileIndexCoversBufferOnce : Obligations.TileIndexCoversBufferOnce := by
  unfold Obligations.TileIndexCoversBufferOnce
  intro w hw
  refine ⟨fun c r p => tileIndex_lt, fun a ha => ?_, fun c r p c' r' p' hr hp hr' hp' heq => ⟨?_, ?_, ?_⟩⟩
  · exact ⟨tileCol a, tileRow a, a % 4, tileCol_lt hw ha, tileRow_lt a, Nat.mod_lt a (by decide), tileIndex_tileCol_tileRow a⟩
  · exact (tileCol_tileIndex hr hp).symm.trans ((congrArg tileCol heq).trans (tileCol_tileIndex hr' hp'))
  · exact (tileRow_tileIndex hr hp).symm.trans ((congrArg tileRow heq).trans (tileRow_tileIndex hr' hp'))
  · exact (tileIndex_mod_four hp).symm.trans ((congrArg (· % 4) heq).trans (tileIndex_mod_four hp'))

/-- Settles O54: each pixel sets the bit of its own position, and a plane byte is that of the low nibbles. -/
theorem planeByteBits : Obligations.PlaneByteBits := by
  unfold Obligations.PlaneByteBits
  intro px p hlen hp
  refine ⟨fun b x _ hx => ?_, fun py hmap => ?_⟩
  · have hbit := getLsbD_planeFrom (p := p) (k := 0) (by omega) hx
    rwa [Nat.zero_add] at hbit
  · rw [planeByte, ← planeFrom_lowNibbles px hp, hmap, planeFrom_lowNibbles py hp, planeByte]

/-- Settles O53: the plane bytes are written one a micro-step, and with the fourth the column is packed, which leaves `tile` alone. -/
theorem planeBytesAreWritten : Obligations.PlaneBytesAreWritten := by
  unfold Obligations.PlaneBytesAreWritten
  intro s px hb hm ha hcol hrow
  have hrun := runSteps_planes 3 hb ha hm rfl (tileIndex_lt hcol hrow (by decide))
  have htile (a : Nat) := Memory.read_writeAll_planes s.tile px (tileIndex s.col s.row 0) a
  refine ⟨_, hrun, fun p hp => ?_, fun a hne => ?_, ?_⟩
  · rw [(nextColumn_engineSide _).sameBuffers.tile]
    refine (htile _).trans ?_
    rw [if_pos (by unfold tileIndex; omega), tileIndex, Nat.add_zero, Nat.add_sub_cancel_left]
  · rw [(nextColumn_engineSide _).sameBuffers.tile]
    refine (htile a).trans (if_neg fun h => ?_)
    obtain ⟨hlo, hhi⟩ := h
    unfold tileIndex at hlo hhi
    exact hne (a - (s.col * 32 + s.row * 4)) (by omega) (by omega)
  · rw [nextColumn_moved]
    rfl

end Sys2Proof.Machine
end

section
/-! The host commands at the CTRL register (R180 to R189): which writes are ignored, what a write does to the sticky flag, START with its
prime, and the wait for an unanswered read. -/

namespace Sys2Proof.Machine

/-! ### A CTRL write, by its word -/

/-- A write to CTRL is performed with its action taken off the agenda (R21, R180). -/
theorem step_writeCtrl {s : State} {v : Word} {rest : List HostAct} (ha : s.agenda = .write 0#4 v :: rest) :
    step s = writeCtrl v (setAgenda rest s) := by
  rw [step_perform s _ rest ha nofun]
  rfl

theorem writeCtrl_of_reserved {v : Word} {e : DecodeError} (hd : decodeCommand v = .error e) (s : State) :
    writeCtrl v s = .next (reservedCommand s) := by
  rw [writeCtrl, hd]

theorem reservedCommand_raises {s : State} (h : s.state = .idle ∨ s.state = .ready) :
    reservedCommand s = raise .illegalCommand s.inOffset s := by
  rcases h with h | h <;> rw [reservedCommand, h]

theorem reservedCommand_ignores {s : State} (h : s.state = .busy ∨ s.state = .error) : reservedCommand s = ignoreWrite s := by
  rcases h with h | h <;> rw [reservedCommand, h]

/-- PACK_ROW, DECODE_RUN and FILL_SCANLINE trap in IDLE (R188). -/
theorem whenReady_of_idle {s : State} (run : State → State) (hi : s.state = .idle) :
    whenReady run s = raise .sequence s.inOffset s := by
  rw [whenReady, hi]

/-- START runs in every state but BUSY (R183). -/
theorem exec_start_of_notBusy {s : State} (hb : s.state ≠ .busy) : exec .start s = .next (startBody s) := by
  rcases execStart_cases s with ⟨hbusy, -⟩ | ⟨-, he⟩
  · exact absurd hbusy hb
  · exact he

@[simp] theorem startBody_cmdIgnored (s : State) : (startBody s).cmdIgnored = false := by
  rcases startBody_cases s with ⟨-, h⟩ | ⟨-, h⟩ <;> rw [h] <;> rfl

/-! ### The sticky flag -/

section
variable {s t : State} {v : Word}

/-- The block ignores the word `v` written to CTRL (R181, R190): any word in BUSY, any but NOP and START in ERROR. -/
def IgnoresWrite (v : Word) (s : State) : Prop := s.state = .busy ∨ (s.state = .error ∧ v ≠ 0#32 ∧ v ≠ 1#32)

/-- A word that is neither NOP nor START is ignored in BUSY and in ERROR. -/
theorem ignoresWrite_iff (h0 : v ≠ 0#32) (h1 : v ≠ 1#32) : IgnoresWrite v s ↔ s.state = .busy ∨ s.state = .error := by
  simp [IgnoresWrite, h0, h1]

/-- NOP and START are ignored in BUSY only. -/
theorem ignoresWrite_iff_busy (h : v = 0#32 ∨ v = 1#32) : IgnoresWrite v s ↔ s.state = .busy := by
  rcases h with rfl | rfl <;> simp [IgnoresWrite]

theorem HostSide.cmdIgnored (h : HostSide s t) : t.cmdIgnored = s.cmdIgnored := by
  unfold HostSide at h
  rw [h]

theorem EngineMoved.cmdIgnored (h : EngineMoved s t) : t.cmdIgnored = s.cmdIgnored := by
  unfold EngineMoved at h
  rw [h]

/-- A CTRL write, by what becomes of the sticky flag (R43, R181, R183): it is ignored, which sets the flag and nothing else; it runs
START; or it leaves the flag alone. -/
inductive CtrlFlag (v : Word) (s : State) : State → Prop
  | ignored (h : IgnoresWrite v s) : CtrlFlag v s (ignoreWrite s)
  | started (h : ¬IgnoresWrite v s) (hv : v = 1#32) : CtrlFlag v s (startBody s)
  | kept {t : State} (h : ¬IgnoresWrite v s) (hv : v ≠ 1#32) (hf : t.cmdIgnored = s.cmdIgnored) : CtrlFlag v s t

theorem ReadyBody.whenReady_flag {run : State → State} (h : ReadyBody s v (run s)) : CtrlFlag v s (whenReady run s) := by
  obtain ⟨h0, h1⟩ : v ≠ 0#32 ∧ v ≠ 1#32 := by rcases h.continues.1 with rfl | rfl | rfl <;> decide
  have hiff := ignoresWrite_iff (s := s) h0 h1
  rcases whenReady_cases run s with ⟨hr, hw⟩ | ⟨hi, hw⟩ | ⟨hb, hw⟩ <;> rw [hw]
  · exact .kept (by simp [hiff, hr]) h1 h.engineSide.moved.cmdIgnored
  · exact .kept (by simp [hiff, hi]) h1 rfl
  · exact .ignored (hiff.2 hb)

/-- A reserved word is neither NOP nor START (R86). -/
theorem reservedCommand_flag {e : DecodeError} (hd : decodeCommand v = .error e) : CtrlFlag v s (reservedCommand s) := by
  have h0 : v ≠ 0#32 := by rintro rfl; cases hd
  have h1 : v ≠ 1#32 := by rintro rfl; cases hd
  have hiff := ignoresWrite_iff (s := s) h0 h1
  rcases reservedCommand_cases s with ⟨hb, hr⟩ | ⟨hb, hr⟩ <;> rw [hr]
  · exact .kept (by rcases hb with hb | hb <;> simp [hiff, hb]) h1 rfl
  · exact .ignored (hiff.2 hb)

theorem writeCtrl_flag (v : Word) (s : State) : ∃ t, writeCtrl v s = .next t ∧ CtrlFlag v s t := by
  rcases writeCtrl_cases v s with ⟨i, hd, hw⟩ | ⟨_, hd, hw⟩ <;> rw [hw]
  · have hv := encode_of_decodeCommand hd
    cases i with
    | lit00 value => cases hv
    | lit01 value => cases hv
    | lit10 value => cases hv
    | run len value => cases hv
    | nop =>
      cases hv
      have hiff := ignoresWrite_iff_busy (s := s) (v := 0#32) (.inl rfl)
      rcases execNop_cases s with ⟨hb, he⟩ | ⟨hb, he⟩
      · exact ⟨_, he, .ignored (hiff.2 hb)⟩
      · exact ⟨_, he, .kept (mt hiff.1 hb) (by decide) rfl⟩
    | start =>
      cases hv
      have hiff := ignoresWrite_iff_busy (s := s) (v := 1#32) (.inr rfl)
      rcases execStart_cases s with ⟨hb, he⟩ | ⟨hb, he⟩
      · exact ⟨_, he, .ignored (hiff.2 hb)⟩
      · exact ⟨_, he, .started (mt hiff.1 hb) rfl⟩
    | packRow => cases hv; exact ⟨_, rfl, ReadyBody.packRow.whenReady_flag⟩
    | decodeRun => cases hv; exact ⟨_, rfl, ReadyBody.decodeRun.whenReady_flag⟩
    | fillScanline => cases hv; exact ⟨_, rfl, ReadyBody.fillScanline.whenReady_flag⟩
  · exact ⟨_, rfl, reservedCommand_flag hd⟩

/-- What a step does to the sticky flag (R43): it leaves it alone, or an ignored CTRL write sets it, or reset or an accepted START
clears it. -/
theorem step_flag_cases (h : step s = .next t) :
    t.cmdIgnored = s.cmdIgnored ∨
      (t.cmdIgnored = true ∧ ∃ v rest, s.agenda = .write 0#4 v :: rest ∧ IgnoresWrite v s) ∨
      (t.cmdIgnored = false ∧
        ∃ rest, s.agenda = .reset :: rest ∨ (s.agenda = .write 0#4 1#32 :: rest ∧ s.state ≠ .busy)) := by
  obtain ⟨u, hu, hk⟩ := step_next h
  cases hk with
  | host => exact .inl hu.cmdIgnored
  | engine hb hm => exact .inl ((microStep_moved hm).cmdIgnored.trans hu.cmdIgnored)
  | reset ha => exact .inr (.inr ⟨rfl, _, .inl ha⟩)
  | @ctrl v rest _ ha _ =>
    obtain ⟨t', hw, hf⟩ := writeCtrl_flag v (setAgenda rest s)
    obtain rfl := Host.Outcome.next.inj (h.symm.trans ((step_writeCtrl ha).trans hw))
    cases hf with
    | ignored hi => exact .inr (.inl ⟨rfl, v, rest, ha, hi⟩)
    | started hn hv => exact .inr (.inr ⟨startBody_cmdIgnored _, rest, .inr ⟨hv ▸ ha, fun hb => hn (.inl hb)⟩⟩)
    | kept _ _ hf => exact .inl hf

end

/-! ### START -/

section
variable {s : State}

theorem legalWidth_of_ne_zero {m : Nat} {w : Word} (h0 : w ≠ 0#32) (h8 : w.toNat % 8 = 0) (hm : w.toNat ≤ m) :
    legalWidth m w = true :=
  (legalWidth_iff m w).2 ⟨Nat.pos_of_ne_zero fun h => h0 (BitVec.eq_of_toNat_eq h), h8, hm⟩

theorem legalWidth_eq_false {m : Nat} {w : Word} (h : w = 0#32 ∨ w.toNat % 8 ≠ 0 ∨ m < w.toNat) : legalWidth m w = false := by
  rw [Bool.eq_false_iff]
  intro hl
  obtain ⟨hpos, h8, hm⟩ := (legalWidth_iff m w).1 hl
  rcases h with rfl | h | h
  · exact absurd hpos (by decide)
  · exact h h8
  · omega

theorem startBody_of_legal (h : legalWidth s.maxWidth s.widthReg = true) :
    startBody s = goto (.refill .primed) (setScanCursor s.widthReg (clearConversion (accept .start s))) := by
  rcases startBody_cases s with ⟨-, hs⟩ | ⟨hn, -⟩
  · exact hs
  · cases hn.symm.trans h

theorem startBody_of_illegal (h : legalWidth s.maxWidth s.widthReg = false) :
    startBody s = raise .dimension 0 (clearConversion (accept .start s)) := by
  rcases startBody_cases s with ⟨hl, -⟩ | ⟨-, hs⟩
  · cases hl.symm.trans h
  · exact hs

end

/-! ### The wait for an unanswered read -/

section
variable {s : State}

theorem runSteps_of_fixed (h : step s = .next s) (n : Nat) : runSteps n s = .next s := by
  induction n with
  | zero => rfl
  | succ n ih => rw [runSteps_step n h, ih]

/-- With no draw left the outstanding read is not answered, and `refill()` stays where it is (R189, R252). -/
theorem microStep_unanswered {k : Resume} (hm : s.micro = .refill k) (hq : s.reqPending = true) (hd : s.nextDraw = none) :
    microStep s = .next s := by
  simp [microStep, hm, hq, answerRead, hd]

theorem nextDraw_eq_none (hd : s.draws = []) (hc : s.drawCycle = []) : s.nextDraw = none := by
  rw [State.nextDraw, hd, hc]

end

/-! ### The obligations -/

/-- Settles O35: each of the three is dispatched by the engine state. -/
theorem sequenceErrorInIdle : Obligations.SequenceErrorInIdle := by
  unfold Obligations.SequenceErrorInIdle
  refine ⟨rfl, fun s i hi hcmd => ?_⟩
  rcases hcmd with rfl | rfl | rfl
  · exact congrArg Host.Outcome.next (whenReady_of_idle packRowBody hi)
  · exact congrArg Host.Outcome.next (whenReady_of_idle decodeRunBody hi)
  · exact congrArg Host.Outcome.next (whenReady_of_idle fillScanlineBody hi)

/-- Settles O36, by the two cases of NOP. -/
theorem nopHasNoEffect : Obligations.NopHasNoEffect := by
  unfold Obligations.NopHasNoEffect
  refine ⟨decodeCommand_ok_iff.2 rfl, fun s => ?_⟩
  rcases execNop_cases s with ⟨hb, he⟩ | ⟨hb, he⟩
  · exact ⟨fun hn => absurd hb hn, fun _ => he⟩
  · exact ⟨fun _ => he, fun hbusy => absurd hbusy hb⟩

/-- Settles O34: the word is rejected by the decoder, and `reservedCommand` takes it. -/
theorem reservedWordRaisesIllegalCommand : Obligations.ReservedWordRaisesIllegalCommand := by
  unfold Obligations.ReservedWordRaisesIllegalCommand
  intro s v rest ha hres
  have hd := (reservedCommandWordsRejected v).2 hres
  rw [step_writeCtrl ha, writeCtrl_of_reserved hd]
  exact ⟨fun hst => congrArg Host.Outcome.next (reservedCommand_raises (s := setAgenda rest s) hst),
    fun hst => congrArg Host.Outcome.next (reservedCommand_ignores (s := setAgenda rest s) hst)⟩

/-- Settles O33: an ignored write is told from the other CTRL writes by its word and the engine state, and of all steps only it sets the
flag, and only reset and START clear it. -/
theorem ignoredWriteSetsOnlyFlag : Obligations.IgnoredWriteSetsOnlyFlag := by
  unfold Obligations.IgnoredWriteSetsOnlyFlag
  refine ⟨fun s v rest ha hi => ?_, fun s t h hs ht => ?_, fun s t h hs hreset hstart => ?_, fun s t rest h hclear => ?_⟩
  · obtain ⟨t, hw, hf⟩ := writeCtrl_flag v (setAgenda rest s)
    rw [step_writeCtrl ha, hw]
    cases hf with
    | ignored _ => rfl
    | started hn _ => exact absurd hi hn
    | kept hn _ _ => exact absurd hi hn
  · rcases step_flag_cases h with hkept | ⟨-, hset⟩ | ⟨hclear, -⟩
    · simp [hkept, hs] at ht
    · exact hset
    · simp [hclear] at ht
  · rcases step_flag_cases h with hkept | ⟨hset, -⟩ | ⟨-, rest, ha | ⟨ha, hb⟩⟩
    · exact hkept.trans hs
    · exact hset
    · exact absurd ha (hreset rest)
    · exact absurd (hstart rest ha) hb
  · rcases hclear with ha | ⟨ha, hb⟩
    · rw [step_perform s _ rest ha nofun] at h
      obtain rfl := Host.Outcome.next.inj h
      rfl
    · rw [step_writeCtrl ha, writeCtrl_of_decode (i := .start) rfl, exec_start_of_notBusy (by exact hb)] at h
      obtain rfl := Host.Outcome.next.inj h
      exact startBody_cmdIgnored _

/-- Settles O25: the waiting micro-step leaves the state as it is, under WAIT too, and reset counts the outstanding read. -/
theorem unansweredReadWaits : Obligations.UnansweredReadWaits := by
  unfold Obligations.UnansweredReadWaits
  intro s k hb hm hq hd hc
  have hwait := microStep_unanswered hm hq (nextDraw_eq_none hd hc)
  refine ⟨fun ha => runSteps_of_fixed ((step_engine s hb ha).trans hwait),
    fun rest ha => runSteps_of_fixed ((step_wait_busy ha hb).trans hwait), fun rest ha => ?_⟩
  exact ⟨resetPin (setAgenda rest s), step_perform s _ rest ha nofun, rfl, if_pos hq⟩

/-- Settles O38: START with such a width traps with the conversion cleared and the width latched. -/
theorem startRejectsIllegalWidth : Obligations.StartRejectsIllegalWidth := by
  unfold Obligations.StartRejectsIllegalWidth
  intro s hb hw
  rw [exec_start_of_notBusy hb, startBody_of_illegal (legalWidth_eq_false hw)]
  rfl

/-- Settles O37: START is accepted into the prime's `refill()`, whose read is issued and answered, and nothing is left to do. -/
theorem startCompletes : Obligations.StartCompletes := by
  unfold Obligations.StartCompletes
  intro s extra ds hb hq ha hdraw h0 h8 hmax n
  have hstart := startBody_of_legal (legalWidth_of_ne_zero h0 h8 hmax)
  have hprimed := runSteps_answered (s := setScanCursor s.widthReg (clearConversion (accept .start s))) .primed rfl ha hq hdraw
  have hn : delivered extra (setScanCursor s.widthReg (clearConversion (accept .start s))).upcoming = n := rfl
  have hwin (i : Nat) : (s.win.writeAll 0 (s.upcoming.take n)).read i = if i < n then s.upcoming[i]? else s.win.read i :=
    read_refilled s.win (Nat.min_le_right _ _) i
  clear_value n
  rw [refilled_eq hn, ← hstart] at hprimed
  refine ⟨startBody s, 2, _, exec_start_of_notBusy hb, ?_, ?_, hprimed, fun i hi => ?_, fun i hi => ?_, ?_⟩
  · rw [hstart]; rfl
  · rw [hstart]; rfl
  · exact (hwin i).trans (if_pos hi)
  · exact (hwin i).trans (if_neg (Nat.not_lt.2 hi))
  · rw [hq]
    rfl

end Sys2Proof.Machine
end

section
/-! ERROR and the quiescent states (R209, R210, R219): outside BUSY the engine is still, and in ERROR no CTRL write but START has more effect
than the sticky flag, so the first error stays recorded. -/

namespace Sys2Proof.Machine

section
variable {s t : State} {v : Word}

/-! ### The quiescent states -/

/-- Outside BUSY the engine takes no micro-step (R210, R219). -/
theorem engineTick_of_notBusy (hb : s.state ≠ .busy) : engineTick s = .next s := by
  rcases engineTick_cases s with ⟨hbusy, -⟩ | ⟨-, he⟩
  · exact absurd hbusy hb
  · exact he

/-! ### The recorded error -/

/-- The engine state and the recorded error are the same (R22, R41, R42). -/
structure SameError (s t : State) : Prop where
  state : t.state = s.state
  errCode : t.errCode = s.errCode
  errOffset : t.errOffset = s.errOffset

theorem SameError.trans {u : State} (h : SameError s t) (h' : SameError t u) : SameError s u :=
  ⟨h'.state.trans h.state, h'.errCode.trans h.errCode, h'.errOffset.trans h.errOffset⟩

theorem HostSide.sameError (h : HostSide s t) : SameError s t := by
  unfold HostSide at h
  rw [h]
  exact ⟨rfl, rfl, rfl⟩

/-- In ERROR, NOP has no effect and every other word but START's is ignored (R181, R182, R190). -/
theorem writeCtrl_of_error (hs : s.state = .error) (hv : v ≠ 1#32) :
    writeCtrl v s = .next s ∨ writeCtrl v s = .next (ignoreWrite s) := by
  by_cases h0 : v = 0#32
  · subst h0
    exact .inl ((writeCtrl_of_decode nopHasNoEffect.1).trans ((nopHasNoEffect.2 s).1 (by simp [hs])))
  · obtain ⟨t, hw, hf⟩ := writeCtrl_flag v s
    have hi : IgnoresWrite v s := .inr ⟨hs, h0, hv⟩
    cases hf with
    | ignored _ => exact .inr hw
    | started hn _ => exact absurd hi hn
    | kept hn _ _ => exact absurd hi hn

/-- A CTRL write other than START leaves a recorded error as it is (R190, R209). -/
theorem writeCtrl_sameError (hs : s.state = .error) (hv : v ≠ 1#32) (h : writeCtrl v s = .next t) : SameError s t := by
  rcases writeCtrl_of_error hs hv with hw | hw <;> obtain rfl := Host.Outcome.next.inj (hw.symm.trans h) <;> exact ⟨rfl, rfl, rfl⟩

end

/-! ### The obligations -/

/-- Settles O24: with no action left the step is the engine's, and a tick is performed by the engine. -/
theorem quiescentOutsideBusy : Obligations.QuiescentOutsideBusy := by
  unfold Obligations.QuiescentOutsideBusy
  refine fun s hb => ⟨fun ha => (step_of_noAgenda ha).trans (engineTick_of_notBusy hb), fun rest ha => ?_⟩
  exact (step_perform s .tick rest ha nofun).trans (engineTick_of_notBusy (s := setAgenda rest s) hb)

/-- Settles O20, by the kinds of step: the engine is still in ERROR, and of the CTRL writes only START changes it. -/
theorem errorLeftOnlyByStartOrReset : Obligations.ErrorLeftOnlyByStartOrReset := by
  unfold Obligations.ErrorLeftOnlyByStartOrReset
  intro s t hs h hreset hstart
  suffices hsame : SameError s t from ⟨hsame.state.trans hs, hsame.errCode, hsame.errOffset⟩
  obtain ⟨u, hu, hk⟩ := step_next h
  cases hk with
  | host => exact hu.sameError
  | engine hb _ => cases hb.symm.trans (hu.state.trans hs)
  | reset ha => exact absurd ha (hreset _)
  | @ctrl v rest _ ha _ =>
    have hv : v ≠ 1#32 := by rintro rfl; exact hstart rest ha
    have hrest : SameError s (setAgenda rest s) := ⟨rfl, rfl, rfl⟩
    exact hrest.trans (writeCtrl_sameError (s := setAgenda rest s) hs hv ((step_writeCtrl ha).symm.trans h))

end Sys2Proof.Machine
end

section
/-! The bound stream (R104, R241, R244, R255): only the environment's answers take bytes of it, from the front; nothing gives one back; and
only the host's binding sets it anew. -/

namespace Sys2Proof.Machine

section
variable {s t u : State}

/-! ### Steps that leave the stream alone -/

/-- The undelivered bytes of the stream and the rounds of its cycle are the same. -/
structure SameStream (s t : State) : Prop where
  stream : t.stream = s.stream
  streamCycle : t.streamCycle = s.streamCycle

theorem EngineSide.sameStream (h : EngineSide s t) : SameStream s t := by
  unfold EngineSide at h
  rw [h]
  exact ⟨rfl, rfl⟩

theorem startBody_sameStream (s : State) : SameStream s (startBody s) := by
  rcases startBody_cases s with ⟨-, h⟩ | ⟨-, h⟩ <;> rw [h] <;> exact ⟨rfl, rfl⟩

/-- No command rewinds the stream, START among them (R183, R255). -/
theorem CtrlWrite.sameStream {v : Word} (h : CtrlWrite s v t) : SameStream s t := by
  cases h with
  | nothing => exact ⟨rfl, rfl⟩
  | ignored => exact ⟨rfl, rfl⟩
  | trapped hb he => exact ⟨rfl, rfl⟩
  | started hb hv => exact startBody_sameStream s
  | ran hr h => exact h.engineSide.sameStream

theorem writeRegister_sameStream {r : BitVec 4} {v : Word} (h : writeRegister r v s = .next t) : SameStream s t := by
  rcases writeRegister_cases r v s with ⟨-, hw⟩ | ⟨-, hw⟩ | ⟨-, -, hw⟩ <;> rw [hw] at h
  · exact (writeCtrl_next h).sameStream
  · obtain rfl := Host.Outcome.next.inj h; exact ⟨rfl, rfl⟩
  · obtain rfl := Host.Outcome.next.inj h; exact ⟨rfl, rfl⟩

theorem readRegister_sameStream (r : BitVec 4) (s : State) : SameStream s (readRegister r s) := by
  rcases readRegister_cases r s with ⟨-, -, -, h⟩ | ⟨-, h⟩ <;> rw [h] <;> exact ⟨rfl, rfl⟩

theorem readBuffer_sameStream {sp : Space} {i : Nat} (h : readBuffer sp i s = .next t) : SameStream s t := by
  rcases readBuffer_cases sp i s with ⟨-, hr⟩ | ⟨-, ⟨_, -, -, -, hr⟩ | ⟨-, hr⟩⟩ <;> rw [hr] at h
  · cases h
  · obtain rfl := Host.Outcome.next.inj h; exact ⟨rfl, rfl⟩
  · obtain rfl := Host.Outcome.next.inj h; exact ⟨rfl, rfl⟩

/-! ### Steps that take bytes of the stream -/

/-- Bytes are gone from the front of the stream, rounds of its cycle unrolled as far as they reach, and none has come back. -/
structure StreamAdvances (s t : State) : Prop where
  streamCycle : t.streamCycle = s.streamCycle
  stream : ∃ n gone, s.stream ++ (List.replicate n s.streamCycle).flatten = gone ++ t.stream

theorem SameStream.advances (h : SameStream s t) : StreamAdvances s t :=
  ⟨h.streamCycle, 0, [], by simp [h.stream]⟩

theorem StreamAdvances.of_sameStream_after (h : StreamAdvances s u) (h' : SameStream u t) : StreamAdvances s t :=
  ⟨h'.streamCycle.trans h.streamCycle, by rw [h'.stream]; exact h.stream⟩

/-- An answered read takes its bytes off the front of what is to come (R103, R104). -/
theorem takeBytes_advances (extra : Byte) (s : State) : StreamAdvances s (takeBytes extra s) := by
  obtain ⟨n, hn⟩ := upcoming_eq s
  refine ⟨rfl, n, s.upcoming.take (delivered extra s.upcoming), ?_⟩
  rw [takeBytes_stream, List.take_append_drop, hn]

theorem takeLateAnswer_advances (d : Draw) (s : State) : StreamAdvances s (takeLateAnswer d s) := by
  rcases takeLateAnswer_cases d s with ⟨-, h⟩ | ⟨-, n, gone, _, hgone, h⟩ <;> rw [h]
  · exact SameStream.advances ⟨rfl, rfl⟩
  · exact ⟨rfl, n, gone, hgone⟩

/-- Of the accesses of a micro-step only an answered read takes bytes of the stream (R103, R104). -/
theorem MicroAccess.streamAdvances (h : MicroAccess s t) : StreamAdvances s t := by
  cases h with
  | answered extra rest => exact ⟨rfl, (takeBytes_advances extra (setDraws rest s)).stream⟩
  | none => exact SameStream.advances ⟨rfl, rfl⟩
  | consumed => exact SameStream.advances ⟨rfl, rfl⟩
  | issued => exact SameStream.advances ⟨rfl, rfl⟩
  | failed rest => exact SameStream.advances ⟨rfl, rfl⟩
  | wroteScan hi b => exact SameStream.advances ⟨rfl, rfl⟩
  | wroteTile hi b => exact SameStream.advances ⟨rfl, rfl⟩

theorem microStep_advances (h : microStep s = .next t) : StreamAdvances s t := by
  obtain ⟨u, ha, he⟩ := microStep_effect h
  exact ha.streamAdvances.of_sameStream_after he.sameStream

theorem engineTick_advances (h : engineTick s = .next t) : StreamAdvances s t := by
  rcases engineTick_cases s with ⟨-, he⟩ | ⟨-, he⟩ <;> rw [he] at h
  · exact microStep_advances h
  · obtain rfl := Host.Outcome.next.inj h; exact SameStream.advances ⟨rfl, rfl⟩

/-- Every action but a binding takes bytes off the front of the stream at most (R255). -/
theorem perform_advances {a : HostAct} (hbind : ∀ bytes cycle, a ≠ .bind bytes cycle) (h : perform a s = .next t) :
    StreamAdvances s t := by
  cases a with
  | tick => exact engineTick_advances h
  | wait => obtain rfl := Host.Outcome.next.inj h; exact (readRegister_sameStream 1#4 s).advances
  | write r v => exact (writeRegister_sameStream h).advances
  | read r => obtain rfl := Host.Outcome.next.inj h; exact (readRegister_sameStream r s).advances
  | bufRead sp i => exact (readBuffer_sameStream h).advances
  | reset => obtain rfl := Host.Outcome.next.inj h; exact SameStream.advances ⟨rfl, rfl⟩
  | bind bytes cycle => exact absurd rfl (hbind bytes cycle)
  | lateAnswer d => obtain rfl := Host.Outcome.next.inj h; exact takeLateAnswer_advances d s

/-- An action taken off the agenda first makes no difference: the agenda is the host's. -/
theorem StreamAdvances.of_setAgenda {rest : List HostAct} (h : StreamAdvances (setAgenda rest s) t) : StreamAdvances s t :=
  ⟨h.streamCycle, h.stream⟩

/-! ### The late answer of an abandoned read -/

theorem takeLateAnswer_bytes (h : 0 < s.abandoned) (extra : Byte) :
    takeLateAnswer (.bytes extra) s =
      { s with abandoned := s.abandoned - 1, stream := s.upcoming.drop (delivered extra s.upcoming) } :=
  if_neg (Nat.ne_of_gt h)

theorem takeLateAnswer_ioErr (h : 0 < s.abandoned) : takeLateAnswer .ioErr s = { s with abandoned := s.abandoned - 1 } :=
  if_neg (Nat.ne_of_gt h)

end

/-! ### The obligations -/

/-- Settles O11: the step takes the late answer with its action taken off the agenda. -/
theorem lateAnswerIsDiscarded : Obligations.LateAnswerIsDiscarded := by
  unfold Obligations.LateAnswerIsDiscarded
  refine fun s rest hab => ⟨fun extra ha => ?_, fun ha => ?_⟩ <;> rw [step_perform s _ rest ha nofun]
  · exact congrArg Host.Outcome.next (takeLateAnswer_bytes (s := setAgenda rest s) hab extra)
  · exact congrArg Host.Outcome.next (takeLateAnswer_ioErr (s := setAgenda rest s) hab)

/-- Settles O30: the step binds the stream with its action taken off the agenda. -/
theorem bindingSetsStream : Obligations.BindingSetsStream := by
  unfold Obligations.BindingSetsStream
  intro s bytes cycle rest ha
  rw [step_perform s _ rest ha nofun]
  rfl

/-- Settles O23: a step is the engine's or performs the head of the agenda, and neither gives a byte back. -/
theorem streamIsNeverRewound : Obligations.StreamIsNeverRewound := by
  unfold Obligations.StreamIsNeverRewound
  intro s t h hbind
  suffices hadv : StreamAdvances s t from ⟨hadv.streamCycle, hadv.stream⟩
  rcases step_cases s with ⟨-, hs⟩ | ⟨a, rest, ha, -, hs⟩ <;> rw [hs] at h
  · exact engineTick_advances h
  · have hnotBind (bytes cycle : List Byte) : a ≠ .bind bytes cycle := by
      rintro rfl
      exact hbind bytes cycle rest ha
    exact (perform_advances hnotBind h).of_setAgenda

end Sys2Proof.Machine
end
